-- ==== Sys2Proof/Word.lean ====
section
/-! DEFINITION. The machine's words: the widths the spec fixes for everything software sees as bits (00_scope.md R5, R6). -/

namespace Sys2Proof

/-- An operand: an X register, a field value or a modulus, `W = 256` bits (R5, R21). -/
abbrev W256 := BitVec 256

/-- A bus word or a command word, 32 bits (R51, R80). -/
abbrev W32 := BitVec 32

/-- One byte of `BUF`, of a SEC or DER string, or of the HMAC port's strings (R10, R29). -/
abbrev Byte := BitVec 8

/-- A register index 0..15 of the file its operand class names (R28, R81). -/
abbrev Reg := Fin 16

/-- A 32-byte string, first byte first: a key or a result of the HMAC port (R40). -/
abbrev Bytes32 := Vector Byte 32

end Sys2Proof
end

