-- ==== Sys2Proof/Syntax.lean ====
section
/-! DEFINITION. The command set MFAE-256 r1 as syntax: one constructor per row of spec/opcode_table.json (30_encoding.md R85). -/

namespace Sys2Proof

/-- A command. An argument is named by its field of the command word (R80): `d a b c e` are register
indexes into the file the row gives that field, and the last Boolean of `fpow`, `liftx` and `secenc`
is the modifier bit M (R82). -/
inductive Instr where
  -- control (40_control.md)
  | nop
  | zeroize
  | xmov (d a : Reg)
  /-- `a` is the constant selector 0..6, not a register (R83). -/
  | xldc (d a : Reg)
  -- field (41_field.md)
  | fset (d a b : Reg)
  | fget (d a : Reg)
  | fmod (d a : Reg)
  | fadd (d a b : Reg)
  | fsub (d a b : Reg)
  | fmul (d a b : Reg)
  | fdiv (d a b : Reg)
  | finv (d a : Reg)
  | fpow (d a b : Reg) (signed : Bool)
  | feq (a b : Reg)
  | fmov (d a : Reg)
  -- point (42_point.md)
  | pset (d a b c e : Reg)
  | pinf (d a b : Reg)
  | pgetx (d a : Reg)
  | pgety (d a : Reg)
  | padd (d a b : Reg)
  | pdbl (d a : Reg)
  | pneg (d a : Reg)
  | pmul (d a b : Reg)
  | peq (a b : Reg)
  | pmov (d a : Reg)
  | ptst (a : Reg)
  -- secp256k1 (43_secp256k1.md)
  | gload (d : Reg)
  | smul (d a b : Reg)
  | liftx (d a : Reg) (odd : Bool)
  -- ECDSA (44_ecdsa.md)
  | keygen (d e : Reg)
  | pubkey (d a : Reg)
  | sign (d e a b : Reg)
  | verify (a b c e : Reg)
  -- encoding (45_encoding.md)
  | secenc (a : Reg) (compressed : Bool)
  | secdec (d : Reg)
  | derenc (a b : Reg)
  | derdec (d e : Reg)
  deriving DecidableEq, Repr

end Sys2Proof
end

