-- ==== Sys2Proof/WellFormed.lean ====
section
/-! DEFINITION. Which commands have an encoding: checks 4 and 5 of 30_encoding.md R84, the ones operand types do not already make. -/

namespace Sys2Proof

/-- Two destinations of one file must differ (R84 check 4, D14); an XLDC selector is 0..6 (R84 check 5, R83). -/
def Instr.wellFormed : Instr → Bool
  | .sign d e _ _ => d != e
  | .derdec d e => d != e
  | .xldc _ a => a.val ≤ 6
  | .nop | .zeroize | .xmov _ _ => true
  | .fset _ _ _ | .fget _ _ | .fmod _ _ | .fadd _ _ _ | .fsub _ _ _ | .fmul _ _ _ | .fdiv _ _ _
  | .finv _ _ | .fpow _ _ _ _ | .feq _ _ | .fmov _ _ => true
  | .pset _ _ _ _ _ | .pinf _ _ _ | .pgetx _ _ | .pgety _ _ | .padd _ _ _ | .pdbl _ _ | .pneg _ _
  | .pmul _ _ _ | .peq _ _ | .pmov _ _ | .ptst _ => true
  | .gload _ | .smul _ _ _ | .liftx _ _ _ => true
  | .keygen _ _ | .pubkey _ _ | .verify _ _ _ _ => true
  | .secenc _ _ | .secdec _ | .derenc _ _ => true

end Sys2Proof
end

