-- ==== Sys2Proof/Decode.lean ====
section
/-! DEFINITION. Decoding a command word and encoding a command (30_encoding.md R80 to R88), both written from the table of R85. -/

namespace Sys2Proof

/-! ### The word's fields (R80) -/

/-- The fields of a CMD32 word above its opcode. -/
structure Fields where
  d : Reg := 0
  a : Reg := 0
  b : Reg := 0
  c : Reg := 0
  e : Reg := 0
  m : Bool := false
  rsv : Fin 8 := 0
  deriving DecidableEq, Repr

/-- `OPC = w[7:0]`. -/
def opcodeOf (w : W32) : Nat := w.toNat % 256

/-- `D = w[11:8]`, `A = w[15:12]`, `B = w[19:16]`, `C = w[23:20]`, `E = w[27:24]`, `M = w[28]`, `RSV = w[31:29]`. -/
def Fields.ofWord (w : W32) : Fields where
  d := Fin.ofNat 16 (w.toNat / 2 ^ 8)
  a := Fin.ofNat 16 (w.toNat / 2 ^ 12)
  b := Fin.ofNat 16 (w.toNat / 2 ^ 16)
  c := Fin.ofNat 16 (w.toNat / 2 ^ 20)
  e := Fin.ofNat 16 (w.toNat / 2 ^ 24)
  m := w.toNat / 2 ^ 28 % 2 == 1
  rsv := Fin.ofNat 8 (w.toNat / 2 ^ 29)

/-- `w = OPC | D << 8 | A << 12 | B << 16 | C << 20 | E << 24 | M << 28` (R86), with RSV above. -/
def assemble (opc : Nat) (f : Fields) : W32 :=
  BitVec.ofNat 32 (opc + f.d.val * 2 ^ 8 + f.a.val * 2 ^ 12 + f.b.val * 2 ^ 16 + f.c.val * 2 ^ 20
    + f.e.val * 2 ^ 24 + f.m.toNat * 2 ^ 28 + f.rsv.val * 2 ^ 29)

/-- Which fields an opcode uses (R85). -/
structure FieldUse where
  d : Bool := false
  a : Bool := false
  b : Bool := false
  c : Bool := false
  e : Bool := false
  m : Bool := false
  deriving DecidableEq, Repr

/-- Every field the opcode does not use is 0 (R84 check 3). -/
def FieldUse.admits (u : FieldUse) (f : Fields) : Bool :=
  (u.d || f.d == 0) && (u.a || f.a == 0) && (u.b || f.b == 0) && (u.c || f.c == 0)
    && (u.e || f.e == 0) && (u.m || !f.m)

/-! ### The opcode map (R85) -/

/-- A row of the opcode map: the fields it uses and the command they make. -/
structure OpcodeRow where
  use : FieldUse
  build : Fields → Instr

/-- The opcode map; every opcode it does not list is reserved (R87). -/
def opcodeRow : Nat → Option OpcodeRow
  | 0x00 => some ⟨{}, fun _ => .nop⟩
  | 0x01 => some ⟨{}, fun _ => .zeroize⟩
  | 0x02 => some ⟨{a := true, d := true}, fun f => .xmov f.d f.a⟩
  | 0x03 => some ⟨{a := true, d := true}, fun f => .xldc f.d f.a⟩
  | 0x10 => some ⟨{a := true, b := true, d := true}, fun f => .fset f.d f.a f.b⟩
  | 0x11 => some ⟨{a := true, d := true}, fun f => .fget f.d f.a⟩
  | 0x12 => some ⟨{a := true, d := true}, fun f => .fmod f.d f.a⟩
  | 0x13 => some ⟨{a := true, b := true, d := true}, fun f => .fadd f.d f.a f.b⟩
  | 0x14 => some ⟨{a := true, b := true, d := true}, fun f => .fsub f.d f.a f.b⟩
  | 0x15 => some ⟨{a := true, b := true, d := true}, fun f => .fmul f.d f.a f.b⟩
  | 0x16 => some ⟨{a := true, b := true, d := true}, fun f => .fdiv f.d f.a f.b⟩
  | 0x17 => some ⟨{a := true, d := true}, fun f => .finv f.d f.a⟩
  | 0x18 => some ⟨{a := true, b := true, d := true, m := true}, fun f => .fpow f.d f.a f.b f.m⟩
  | 0x19 => some ⟨{a := true, b := true}, fun f => .feq f.a f.b⟩
  | 0x1A => some ⟨{a := true, d := true}, fun f => .fmov f.d f.a⟩
  | 0x20 => some ⟨{a := true, b := true, c := true, d := true, e := true}, fun f => .pset f.d f.a f.b f.c f.e⟩
  | 0x21 => some ⟨{a := true, b := true, d := true}, fun f => .pinf f.d f.a f.b⟩
  | 0x22 => some ⟨{a := true, d := true}, fun f => .pgetx f.d f.a⟩
  | 0x23 => some ⟨{a := true, d := true}, fun f => .pgety f.d f.a⟩
  | 0x24 => some ⟨{a := true, b := true, d := true}, fun f => .padd f.d f.a f.b⟩
  | 0x25 => some ⟨{a := true, d := true}, fun f => .pdbl f.d f.a⟩
  | 0x26 => some ⟨{a := true, d := true}, fun f => .pneg f.d f.a⟩
  | 0x27 => some ⟨{a := true, b := true, d := true}, fun f => .pmul f.d f.a f.b⟩
  | 0x28 => some ⟨{a := true, b := true}, fun f => .peq f.a f.b⟩
  | 0x29 => some ⟨{a := true, d := true}, fun f => .pmov f.d f.a⟩
  | 0x2A => some ⟨{a := true}, fun f => .ptst f.a⟩
  | 0x30 => some ⟨{d := true}, fun f => .gload f.d⟩
  | 0x31 => some ⟨{a := true, b := true, d := true}, fun f => .smul f.d f.a f.b⟩
  | 0x32 => some ⟨{a := true, d := true, m := true}, fun f => .liftx f.d f.a f.m⟩
  | 0x40 => some ⟨{d := true, e := true}, fun f => .keygen f.d f.e⟩
  | 0x41 => some ⟨{a := true, d := true}, fun f => .pubkey f.d f.a⟩
  | 0x42 => some ⟨{a := true, b := true, d := true, e := true}, fun f => .sign f.d f.e f.a f.b⟩
  | 0x43 => some ⟨{a := true, b := true, c := true, e := true}, fun f => .verify f.a f.b f.c f.e⟩
  | 0x50 => some ⟨{a := true, m := true}, fun f => .secenc f.a f.m⟩
  | 0x51 => some ⟨{d := true}, fun f => .secdec f.d⟩
  | 0x52 => some ⟨{a := true, b := true}, fun f => .derenc f.a f.b⟩
  | 0x53 => some ⟨{d := true, e := true}, fun f => .derdec f.d f.e⟩
  | _ => none

/-! ### Decoding (R84) -/

/-- Why a word is `ILLEGAL_COMMAND`: the first of R84's checks it fails. -/
inductive Illegal where
  /-- Check 1: `w[7:0]` is no opcode of R85. -/
  | reservedOpcode
  /-- Check 2: `w[31:29] != 0`. -/
  | reservedBits
  /-- Check 3: a field the opcode does not use is not 0. -/
  | unusedField
  /-- Check 4: SIGN or DERDEC with `D = E`. -/
  | sameDestination
  /-- Check 5: XLDC with `A > 6`. -/
  | badSelector
  deriving DecidableEq, Repr

/-- Which of checks 4 and 5 an ill-formed command fails. -/
def Instr.illFormedReason (i : Instr) : Illegal :=
  match i with
  | .xldc _ _ => .badSelector
  | _ => .sameDestination

/-- Total decoding of a command word, its checks in R84's order. -/
def decode (w : W32) : Except Illegal Instr :=
  match opcodeRow (opcodeOf w) with
  | none => .error .reservedOpcode
  | some r =>
    if (Fields.ofWord w).rsv ≠ 0 then .error .reservedBits
    else if r.use.admits (Fields.ofWord w) = false then .error .unusedField
    else if (r.build (Fields.ofWord w)).wellFormed = false then
      .error (r.build (Fields.ofWord w)).illFormedReason
    else .ok (r.build (Fields.ofWord w))

/-- What the decoder reads from a table word: one 32-bit command word (R88), bit 0 the least significant. -/
def decodeTableWord (nbits w : Nat) : Option Instr :=
  (decode (BitVec.ofNat 32 (w % 2 ^ nbits))).toOption

/-! ### Encoding (R86) -/

/-- A command's opcode and fields. -/
def Instr.parts : Instr → Nat × Fields
  | .nop => (0x00, {})
  | .zeroize => (0x01, {})
  | .xmov d a => (0x02, {a, d})
  | .xldc d a => (0x03, {a, d})
  | .fset d a b => (0x10, {a, b, d})
  | .fget d a => (0x11, {a, d})
  | .fmod d a => (0x12, {a, d})
  | .fadd d a b => (0x13, {a, b, d})
  | .fsub d a b => (0x14, {a, b, d})
  | .fmul d a b => (0x15, {a, b, d})
  | .fdiv d a b => (0x16, {a, b, d})
  | .finv d a => (0x17, {a, d})
  | .fpow d a b m => (0x18, {a, b, d, m})
  | .feq a b => (0x19, {a, b})
  | .fmov d a => (0x1A, {a, d})
  | .pset d a b c e => (0x20, {a, b, c, d, e})
  | .pinf d a b => (0x21, {a, b, d})
  | .pgetx d a => (0x22, {a, d})
  | .pgety d a => (0x23, {a, d})
  | .padd d a b => (0x24, {a, b, d})
  | .pdbl d a => (0x25, {a, d})
  | .pneg d a => (0x26, {a, d})
  | .pmul d a b => (0x27, {a, b, d})
  | .peq a b => (0x28, {a, b})
  | .pmov d a => (0x29, {a, d})
  | .ptst a => (0x2A, {a})
  | .gload d => (0x30, {d})
  | .smul d a b => (0x31, {a, b, d})
  | .liftx d a m => (0x32, {a, d, m})
  | .keygen d e => (0x40, {d, e})
  | .pubkey d a => (0x41, {a, d})
  | .sign d e a b => (0x42, {a, b, d, e})
  | .verify a b c e => (0x43, {a, b, c, e})
  | .secenc a m => (0x50, {a, m})
  | .secdec d => (0x51, {d})
  | .derenc a b => (0x52, {a, b})
  | .derdec d e => (0x53, {d, e})

/-- The command's word (R86). -/
def encode (i : Instr) : W32 := assemble i.parts.1 i.parts.2

/-! ### The table's `match` and `mask` columns (R85)

Transcribed apart from the decoder, so that the decoder can be held against them. -/

/-- The `(match, mask)` of a command's row. -/
def Instr.matchMask : Instr → W32 × W32
  | .nop => (0x00000000#32, 0xFFFFFFFF#32)
  | .zeroize => (0x00000001#32, 0xFFFFFFFF#32)
  | .xmov _ _ => (0x00000002#32, 0xFFFF00FF#32)
  | .xldc _ _ => (0x00000003#32, 0xFFFF00FF#32)
  | .fset _ _ _ => (0x00000010#32, 0xFFF000FF#32)
  | .fget _ _ => (0x00000011#32, 0xFFFF00FF#32)
  | .fmod _ _ => (0x00000012#32, 0xFFFF00FF#32)
  | .fadd _ _ _ => (0x00000013#32, 0xFFF000FF#32)
  | .fsub _ _ _ => (0x00000014#32, 0xFFF000FF#32)
  | .fmul _ _ _ => (0x00000015#32, 0xFFF000FF#32)
  | .fdiv _ _ _ => (0x00000016#32, 0xFFF000FF#32)
  | .finv _ _ => (0x00000017#32, 0xFFFF00FF#32)
  | .fpow _ _ _ _ => (0x00000018#32, 0xEFF000FF#32)
  | .feq _ _ => (0x00000019#32, 0xFFF00FFF#32)
  | .fmov _ _ => (0x0000001A#32, 0xFFFF00FF#32)
  | .pset _ _ _ _ _ => (0x00000020#32, 0xF00000FF#32)
  | .pinf _ _ _ => (0x00000021#32, 0xFFF000FF#32)
  | .pgetx _ _ => (0x00000022#32, 0xFFFF00FF#32)
  | .pgety _ _ => (0x00000023#32, 0xFFFF00FF#32)
  | .padd _ _ _ => (0x00000024#32, 0xFFF000FF#32)
  | .pdbl _ _ => (0x00000025#32, 0xFFFF00FF#32)
  | .pneg _ _ => (0x00000026#32, 0xFFFF00FF#32)
  | .pmul _ _ _ => (0x00000027#32, 0xFFF000FF#32)
  | .peq _ _ => (0x00000028#32, 0xFFF00FFF#32)
  | .pmov _ _ => (0x00000029#32, 0xFFFF00FF#32)
  | .ptst _ => (0x0000002A#32, 0xFFFF0FFF#32)
  | .gload _ => (0x00000030#32, 0xFFFFF0FF#32)
  | .smul _ _ _ => (0x00000031#32, 0xFFF000FF#32)
  | .liftx _ _ _ => (0x00000032#32, 0xEFFF00FF#32)
  | .keygen _ _ => (0x00000040#32, 0xF0FFF0FF#32)
  | .pubkey _ _ => (0x00000041#32, 0xFFFF00FF#32)
  | .sign _ _ _ _ => (0x00000042#32, 0xF0F000FF#32)
  | .verify _ _ _ _ => (0x00000043#32, 0xF0000FFF#32)
  | .secenc _ _ => (0x00000050#32, 0xEFFF0FFF#32)
  | .secdec _ => (0x00000051#32, 0xFFFFF0FF#32)
  | .derenc _ _ => (0x00000052#32, 0xFFF00FFF#32)
  | .derdec _ _ => (0x00000053#32, 0xF0FFF0FF#32)

end Sys2Proof
end

