-- ==== Sys2Proof/Machine/Bytes.lean ====
section
/-! DEFINITION. Byte strings and slices of words: the conversions of 00_scope.md R6 and R10, 20_memory.md R55 to R59. -/

namespace Sys2Proof.Machine

/-- `be(s)`: the integer whose big-endian base-256 digits are the bytes of `s` (R10). -/
def be (s : List Byte) : Nat := s.foldl (fun acc c => acc * 256 + c.toNat) 0

/-- The `n` low base-256 digits of `v`, most significant first. -/
def beBytes : Nat → Nat → List Byte
  | 0, _ => []
  | n + 1, v => beBytes n (v / 256) ++ [BitVec.ofNat 8 v]

/-- `be32(v)`: the 32-byte big-endian string of `v`, leading zero bytes kept (R10). -/
def be32 (v : Nat) : List Byte := beBytes 32 v

/-- `minbe(v)` for `1 <= v < 2^256`: the shortest big-endian string of `v` (R10). -/
def minbe (v : Nat) : List Byte := (be32 v).dropWhile (· == 0)

/-- `v[32*j+31 : 32*j]` of a 256-bit value (R6, R55). -/
def wordOf (v : W256) (j : Fin 8) : W32 := v.extractLsb' (32 * j.val) 32

/-- `v` with bits `[32*j+31 : 32*j]` replaced by `w` and the other 224 bits unchanged (R55). -/
def setWord (v : W256) (j : Fin 8) (w : W32) : W256 :=
  (v &&& ~~~((BitVec.allOnes 32).setWidth 256 <<< (32 * j.val))) ||| (w.setWidth 256 <<< (32 * j.val))

/-- Byte `i` of a bus word, byte 0 in bits [7:0] (R57, R59). -/
def byteOf (w : W32) (i : Nat) : Byte := w.extractLsb' (8 * i) 8

/-- Four bytes packed little-endian into a bus word (R57, R59). -/
def packWord (b0 b1 b2 b3 : Byte) : W32 :=
  b0.setWidth 32 ||| (b1.setWidth 32 <<< 8) ||| (b2.setWidth 32 <<< 16) ||| (b3.setWidth 32 <<< 24)

/-- A bus word with bit `i` set where the condition holds, others 0. -/
def flagBit (i : Nat) (c : Bool) : W32 := if c then 1#32 <<< i else 0

end Sys2Proof.Machine
end

