-- ==== Sys2Proof/Config.lean ====
section
/-! DEFINITION. The parameters the spec leaves open (00_scope.md R5). Each is opaque: nothing can evaluate it, so a statement holds for every value of it. -/

namespace Sys2Proof

/-- The HMAC port's function `HMAC(K, M)`: a 32-byte key and a message to 32 bytes (R40, R201; log 6).
The spec assumes HMAC-SHA256 and takes it as a parameter; no rule depends on more than its type. -/
opaque Config.hmac : Bytes32 → List Byte → Bytes32

/-- The platform's base address of the register window (R5, R50; log 16). Offsets are the only addresses the block sees. -/
opaque Config.base : Nat

/-- How many independent instances a system holds (R5, R278; log 16). -/
opaque Config.numEngines : Nat

end Sys2Proof
end

