-- ==== Sys2Proof/Machine/State.lean ====
section
/-! DEFINITION. The machine's state as plain data: everything 10_state.md gives the block, and the model's own record of what the outside world is still to do. -/

namespace Sys2Proof.Machine

/-! ### Values -/

/-- A field element `fe(v, m)`: value and modulus (R13, R22). -/
structure Fe where
  v : W256
  m : W256
  deriving DecidableEq, Repr

/-- An F register `{valid, v, m}` (R22). -/
structure FReg where
  valid : Bool
  fe : Fe
  deriving DecidableEq, Repr

/-- A point value `{inf, x, y, a, b}`: the identity of curve `(a, b)` when `inf`, else the affine point `(x, y)` (R25, R150). -/
structure Pt where
  inf : Bool
  x : Fe
  y : Fe
  a : Fe
  b : Fe
  deriving DecidableEq, Repr

/-- A P register `{valid, inf, x, y, a, b}` (R25). -/
structure PReg where
  valid : Bool
  pt : Pt
  deriving DecidableEq, Repr

/-- `fe(0, 0)`, what an empty register's fields hold (R44, R106). -/
def Fe.zero : Fe := ⟨0, 0⟩

/-- The F register of reset and ZEROIZE (R22, R106). -/
def FReg.empty : FReg := ⟨false, Fe.zero⟩

/-- The P register of reset and ZEROIZE (R25, R106). -/
def PReg.empty : PReg := ⟨false, ⟨false, Fe.zero, Fe.zero, Fe.zero, Fe.zero⟩⟩

/-- The result codes (60_exceptions.md R261); their numbers are `ResultCode.value`. -/
inductive ResultCode where
  | ok
  | outOfRange
  | fieldMismatch
  | curveMismatch
  | notOnCurve
  | divisionByZero
  /-- Numbered, never produced (R266). -/
  | degenerateNonce
  | invalidSignature
  | malformedDer
  /-- Numbered, never produced (R266). -/
  | checksumMismatch
  /-- Numbered, never produced (R266). -/
  | integerTooLarge
  | illegalCommand
  | emptyOperand
  | identityPoint
  | malformedSec
  deriving DecidableEq, Repr

/-- The four flags of `FLAGS` (R32). -/
structure Flags where
  eq : Bool
  inf : Bool
  vok : Bool
  nrt : Bool
  deriving DecidableEq, Repr

/-- The fields of `STATUS` (R34). -/
structure Status where
  busy : Bool
  done : Bool
  err : Bool
  ign : Bool
  code : ResultCode
  deriving DecidableEq, Repr

/-- What lives only inside one SIGN: the nonce generator's `K` and `V`, and whether a candidate was
rejected because `r = 0` or `s = 0` (R43, R203, R205; log 4). -/
structure NonceState where
  key : Bytes32
  val : Bytes32
  nrt : Bool
  deriving DecidableEq, Repr

/-! ### The byte buffer -/

/-- `BUF` as a list of (index, byte), in the canonical form `Memory.wf`. -/
abbrev Memory := List Host.Cell

/-- `BUF` has 128 bytes (R29). -/
def Memory.size : Nat := 128

/-- What an unlisted byte reads as: `BUF`'s reset contents, 0x00 (R29, R44). -/
def Memory.unlisted : Byte := 0

/-- The canonical form: indexes strictly rising and below 128, no entry equal to what an unlisted byte reads as. -/
abbrev Memory.wf (b : Memory) : Prop :=
  b.Pairwise (fun c c' => c.1 < c'.1) ∧ ∀ c ∈ b, c.1 < Memory.size ∧ c.2 ≠ Memory.unlisted

/-! ### The outside world -/

/-- The width of a bus access in bytes (R51, R52): only 4 is well-formed. -/
inductive Width where
  | w1
  | w2
  | w4
  | w8
  deriving DecidableEq, Repr

/-- An event, the unit of the total order of R63 and R271 (log 1). -/
inductive Event where
  /-- `MemRead(BASE + off, width)` by some host (R51). -/
  | read (width : Width) (off : BitVec 12)
  /-- `MemWrite(BASE + off, width, v)` by some host (R51). -/
  | write (width : Width) (off : BitVec 12) (v : W32)
  /-- Power-on, or the platform's reset input (R300). -/
  | hardReset
  /-- The entropy port delivers one draw (R41). -/
  | entropy (draw : W256)
  /-- The engine's turn: its completion step, when it is enabled (R101). -/
  | engine
  deriving DecidableEq, Repr

/-! ### The state -/

/-- The block's state (10_state.md), with `entropy`, `agenda` and `lastRead` the model's own (logs 1, 5, 8). -/
structure State where
  /-- `X[0..15]` (R21). -/
  x : Vector W256 16
  /-- `F[0..15]` (R22). -/
  f : Vector FReg 16
  /-- `P[0..15]` (R25). -/
  p : Vector PReg 16
  /-- `BUF[0..127]` (R29). -/
  buf : Memory
  /-- `LEN` (R30). -/
  len : Byte
  /-- `FLAGS` (R32). -/
  flags : Flags
  /-- `CTRL.IE` (R33). -/
  ie : Bool
  /-- `STATUS` (R34). -/
  status : Status
  /-- `CMD`, the latched command (R35). -/
  cmd : W32
  /-- `CMDCNT` (R37). -/
  cmdcnt : W32
  /-- The nonce generator of the SIGN in execution, if it has started (R43, R203; log 4). -/
  nonce : Option NonceState
  /-- Draws the entropy port has delivered and no KEYGEN has taken, oldest first (R41; log 5). -/
  entropy : List W256
  /-- The events still to come, next first (R63, R271; log 1). -/
  agenda : List Event
  /-- The word the last completed bus read returned (R51; log 8). -/
  lastRead : Option W32
  deriving DecidableEq, Repr

/-- The state after a reset (R44, R300). -/
def State.reset : State where
  x := Vector.replicate 16 0
  f := Vector.replicate 16 FReg.empty
  p := Vector.replicate 16 PReg.empty
  buf := []
  len := 0
  flags := ⟨false, false, false, false⟩
  ie := false
  status := ⟨false, false, false, false, .ok⟩
  cmd := 0
  cmdcnt := 0
  nonce := none
  entropy := []
  agenda := []
  lastRead := none

/-! ### How a step can stop -/

/-- The reasons a step faults. -/
inductive Fault where
  /-- Raised by a bus access that is not 4 bytes wide or not 4-byte aligned: a bus error, which the spec
  has a model treat as a fault of the host agent (R52, R60, R267; log 7). Safe: the model stops where
  the block goes on with its state unchanged. -/
  | busError
  deriving DecidableEq, Repr

/-- The reasons a step is refused. -/
inductive Refusal where
  /-- Raised by an arm of exec that has no meaning yet; no arm does. Safe. -/
  | notModelled (mnemonic : String)
  deriving DecidableEq, Repr

end Sys2Proof.Machine
end

