-- ==== Sys2Proof/Machine/Flags.lean ====
section
/-! DEFINITION. FLAGS and STATUS: the flag writes of 10_state.md R32, the result codes of 60_exceptions.md R261 and R264, and the words software reads. -/

namespace Sys2Proof.Machine

/-! ### FLAGS (R32) -/

/-- `FLAGS.EQ <- v`: FEQ and PEQ. -/
def State.setEq (s : State) (v : Bool) : State := { s with flags := { s.flags with eq := v } }

/-- `FLAGS.INF <- v`: the commands that write a P register, and PTST. -/
def State.setInf (s : State) (v : Bool) : State := { s with flags := { s.flags with inf := v } }

/-- `FLAGS.VOK <- v`: VERIFY. -/
def State.setVok (s : State) (v : Bool) : State := { s with flags := { s.flags with vok := v } }

/-- `FLAGS.NRT <- v`: SIGN. -/
def State.setNrt (s : State) (v : Bool) : State := { s with flags := { s.flags with nrt := v } }

/-- The word FLAGS reads as: EQ, INF, VOK, NRT in bits 0 to 3, bits [31:4] 0 (R32). -/
def Flags.word (g : Flags) : W32 :=
  flagBit 0 g.eq ||| flagBit 1 g.inf ||| flagBit 2 g.vok ||| flagBit 3 g.nrt

/-! ### Result codes -/

/-- A result code's value in `STATUS.CODE` (R261). -/
def ResultCode.value : ResultCode → Byte
  | .ok => 0x00
  | .outOfRange => 0x01
  | .fieldMismatch => 0x02
  | .curveMismatch => 0x03
  | .notOnCurve => 0x04
  | .divisionByZero => 0x05
  | .degenerateNonce => 0x06
  | .invalidSignature => 0x07
  | .malformedDer => 0x08
  | .checksumMismatch => 0x09
  | .integerTooLarge => 0x0A
  | .illegalCommand => 0x10
  | .emptyOperand => 0x11
  | .identityPoint => 0x12
  | .malformedSec => 0x13

/-- The error class: every code but `OK` and `INVALID_SIGNATURE` (R264). -/
def ResultCode.isError (c : ResultCode) : Bool := c != .ok && c != .invalidSignature

/-! ### STATUS and CTRL -/

/-- The word STATUS reads as: BUSY, DONE, ERR, IGN in bits 0 to 3, CODE in [15:8], the rest 0 (R34). -/
def Status.word (t : Status) : W32 :=
  flagBit 0 t.busy ||| flagBit 1 t.done ||| flagBit 2 t.err ||| flagBit 3 t.ign
    ||| (t.code.value.setWidth 32 <<< 8)

/-- The interrupt line `irq = CTRL.IE AND STATUS.DONE` (R42, R269). -/
def State.irq (s : State) : Bool := s.ie && s.status.done

end Sys2Proof.Machine
end

