-- ==== Sys2Proof/Machine/Ops.lean ====
section
/-! DEFINITION. The named operations over the byte buffer and the register files, and the completion of a command, which is also how a command's error is taken (40_control.md R101, 60_exceptions.md R262). -/

namespace Sys2Proof.Machine

/-! ### The byte buffer (R29) -/

/-- The byte at index `j`. -/
def Memory.read : Memory → Nat → Byte
  | [], _ => Memory.unlisted
  | c :: rest, j => if c.1 = j then c.2 else Memory.read rest j

/-- The list with the byte at `j` replaced; storing what an unlisted byte reads as removes the entry. -/
def Memory.put : Memory → Nat → Byte → Memory
  | [], j, v => if v = Memory.unlisted then [] else [(j, v)]
  | c :: rest, j, v =>
    if j < c.1 then (if v = Memory.unlisted then c :: rest else (j, v) :: c :: rest)
    else if j = c.1 then (if v = Memory.unlisted then rest else (j, v) :: rest)
    else c :: Memory.put rest j v

/-- `BUF[j] <- v`. `BUF` has no byte at 128 and above. -/
def Memory.write (b : Memory) (j : Nat) (v : Byte) : Memory :=
  if j < Memory.size then b.put j v else b

/-- `BUF[j .. j+k-1]` (R8). -/
def Memory.readBytes (b : Memory) (j k : Nat) : List Byte := (List.range k).map fun i => b.read (j + i)

/-- `BUF[j .. j+len(t)-1] <- t`, the other bytes unchanged (R230). -/
def Memory.writeBytes : Memory → Nat → List Byte → Memory
  | b, _, [] => b
  | b, j, v :: rest => Memory.writeBytes (b.write j v) (j + 1) rest

/-! ### The register files (R21, R22, R25) -/

/-- `X[i] <- v`. -/
def State.setX (s : State) (i : Reg) (v : W256) : State := { s with x := s.x.set i.val v }

/-- `F[i] <- {valid: 1, e}`. -/
def State.setF (s : State) (i : Reg) (e : Fe) : State := { s with f := s.f.set i.val ⟨true, e⟩ }

/-- `P[i] <- {valid: 1, q}`. -/
def State.setP (s : State) (i : Reg) (q : Pt) : State := { s with p := s.p.set i.val ⟨true, q⟩ }

/-- `P[i] <- q; FLAGS.INF <- q.inf`, what every P-register write does (R32, R150). -/
def State.putP (s : State) (i : Reg) (q : Pt) : State := (s.setP i q).setInf q.inf

/-- `BUF[0 .. len(t)-1] <- t; LEN <- len(t)`, an encoder's output (R230). -/
def State.putString (s : State) (t : List Byte) : State :=
  { s with buf := s.buf.writeBytes 0 t, len := BitVec.ofNat 8 t.length }

/-! ### Completion, and taking an error (R101, R262, R272) -/

/-- The completion step's own writes: CODE, ERR, BUSY, DONE, CMDCNT (R101), and the end of the
command's internal state (R43, R204). -/
def State.finish (s : State) (c : ResultCode) : State :=
  { s with
    status := { s.status with busy := false, done := true, err := c.isError, code := c }
    cmdcnt := s.cmdcnt + 1
    nonce := none }

/-- `raise c`: every write the command scheduled is discarded, so the state before the command is the
one completed with `c` (R9, R262). The block has no other trap entry (R260, R272). -/
def State.raise (s : State) (c : ResultCode) : State := s.finish c

/-- The host's acknowledgement of a completion, the nearest thing to a return (R273): W1C of DONE. -/
def State.acknowledge (s : State) : State := { s with status := { s.status with done := false } }

/-- The completion of a command whose rule, run on `s`, gave `r`: its scheduled writes and `OK`, or the code it raised. -/
def conclude (s : State) (r : Except ResultCode State) : Host.Outcome State Fault Refusal :=
  match r with
  | .ok t => .next (t.finish .ok)
  | .error c => .next (s.raise c)

/-! ### Reset and acceptance -/

/-- A reset, hard or soft: every element of the block takes its reset value (R300, R301). What is
outside the block stays: events to come, draws delivered, the host's last read (log 15). -/
def State.resetBlock (s : State) : State :=
  { State.reset with entropy := s.entropy, agenda := s.agenda, lastRead := s.lastRead }

/-- The acceptance of command word `w` (R100); the operand registers themselves are the snapshot (log 3). -/
def State.accept (s : State) (w : W32) : State :=
  { s with cmd := w, status := { s.status with busy := true, done := false }, nonce := none }

/-- A write ignored because the engine is busy (R64, R268). -/
def State.ignored (s : State) : State := { s with status := { s.status with ign := true } }

/-- ZEROIZE's writes: all operand state wiped, and nothing else (R106). -/
def State.zeroized (s : State) : State :=
  { s with
    x := Vector.replicate 16 0
    f := Vector.replicate 16 FReg.empty
    p := Vector.replicate 16 PReg.empty
    buf := []
    len := 0
    flags := ⟨false, false, false, false⟩ }

end Sys2Proof.Machine
end

