-- ==== Sys2Proof/Machine/Operands.lean ====
section
/-! DEFINITION. Every operand form: an X register as an unsigned or signed integer, a valid F or P register, and the string in BUF (30_encoding.md R81, R82; 41_field.md R120; 42_point.md R150; 45_encoding.md R230). -/

namespace Sys2Proof.Machine

/-- `X[i]`, its 256 bits (R21). -/
def State.readX (s : State) (i : Reg) : W256 := s.x[i.val]

/-- `X[i]` as an integer in `u256` (R6, R21). -/
def State.readNat (s : State) (i : Reg) : Nat := (s.readX i).toNat

/-- `X[i]` as FPOW's exponent: `sext_256(X[i])` when signed, else unsigned (R6, R82, R138). -/
def State.readExponent (s : State) (i : Reg) (signed : Bool) : Int :=
  if signed then (s.readX i).toInt else (s.readNat i : Int)

/-- `readF(i)`: an F source, `EMPTY_OPERAND` when it is not valid (R24, R120). -/
def State.readF (s : State) (i : Reg) : Except ResultCode Fe :=
  if s.f[i.val].valid then .ok s.f[i.val].fe else .error .emptyOperand

/-- `readP(i)`: a P source, `EMPTY_OPERAND` when it is not valid (R27, R150). -/
def State.readP (s : State) (i : Reg) : Except ResultCode Pt :=
  if s.p[i.val].valid then .ok s.p[i.val].pt else .error .emptyOperand

/-- `BUF[0 .. LEN-1]`, a decoder's input (R230). -/
def State.readString (s : State) : List Byte := s.buf.readBytes 0 s.len.toNat

end Sys2Proof.Machine
end

