-- ==== Sys2Proof/Machine/Rom.lean ====
section
/-! DEFINITION. The block's constants: ID and VERSION (10_state.md R38) and the constant ROM (R39, 43_secp256k1.md R180 to R184; log 10). -/

namespace Sys2Proof.Machine

/-- `ID`, the ASCII bytes "MFAE" (R38). -/
def idWord : W32 := 0x4D464145

/-- `VERSION` (R38). -/
def versionWord : W32 := 0x00000001

/-- The field prime `p = 2^256 - 2^32 - 977` (R180). -/
def secpP : Nat := 0xfffffffffffffffffffffffffffffffffffffffffffffffffffffffefffffc2f

/-- The group order `n` (R182). -/
def secpN : Nat := 0xfffffffffffffffffffffffffffffffebaaedce6af48a03bbfd25e8cd0364141

/-- The generator's x-coordinate (R182). -/
def secpGx : Nat := 0x79be667ef9dcbbac55a06295ce870b07029bfcdb2dce28d959f2815b16f81798

/-- The generator's y-coordinate (R182). -/
def secpGy : Nat := 0x483ada7726a3c4655da4fbfc0e1108a8fd17b448a68554199c47d08ffb10d4b8

/-- `fe(v, p)`, an element of the secp256k1 field. -/
def secpFe (v : Nat) : Fe := ⟨BitVec.ofNat 256 v, BitVec.ofNat 256 secpP⟩

/-- The generator `G` (R183). -/
def secpG : Pt := ⟨false, secpFe secpGx, secpFe secpGy, secpFe 0, secpFe 7⟩

/-- The constant ROM by XLDC's selector; selectors 7 to 15 are reserved (R83, R184). -/
def rom (sel : Reg) : Option W256 :=
  match sel.val with
  | 0 => some (BitVec.ofNat 256 secpP)
  | 1 => some (BitVec.ofNat 256 secpN)
  | 2 => some (BitVec.ofNat 256 secpGx)
  | 3 => some (BitVec.ofNat 256 secpGy)
  | 4 => some 7
  | 5 => some 0
  | 6 => some 1
  | _ => none

end Sys2Proof.Machine
end

