-- ==== Sys2Proof/Machine/Bus.lean ====
section
/-! DEFINITION. The host's bus: the register window and its reads and writes (20_memory.md R51 to R64). -/

namespace Sys2Proof.Machine

/-! ### The window (R53) -/

/-- What a word of the window is. -/
inductive Loc where
  | id
  | version
  | ctrl
  | status
  | cmd
  | flags
  | cmdcnt
  | fvalid
  | pvalid
  | len
  /-- Word `j` of `X[i]` (R55). -/
  | xWord (i : Reg) (j : Fin 8)
  /-- `BUF[4*k .. 4*k+3]` (R57). -/
  | bufWord (k : Fin 32)
  /-- A reserved offset (R54). -/
  | reserved
  deriving DecidableEq, Repr

/-- The location at a 4-byte aligned offset (R53). -/
def locOf (off : BitVec 12) : Loc :=
  let n := off.toNat
  if 0x100 ≤ n ∧ n < 0x300 then .xWord (Fin.ofNat 16 ((n - 0x100) / 32)) (Fin.ofNat 8 (n / 4))
  else if 0x300 ≤ n ∧ n < 0x380 then .bufWord (Fin.ofNat 32 ((n - 0x300) / 4))
  else match n with
    | 0x000 => .id
    | 0x004 => .version
    | 0x008 => .ctrl
    | 0x00C => .status
    | 0x010 => .cmd
    | 0x014 => .flags
    | 0x018 => .cmdcnt
    | 0x01C => .fvalid
    | 0x020 => .pvalid
    | 0x024 => .len
    | _ => .reserved

/-- An access is well-formed when it is 4 bytes wide and `off[1:0] = 0` (R51). -/
def wellFormedAccess (width : Width) (off : BitVec 12) : Bool := width == .w4 && off.toNat % 4 == 0

/-- The bus address of an offset: the window lies at the platform's `BASE` (R5, R51). -/
def busAddress (off : BitVec 12) : Nat := Config.base + off.toNat

/-! ### Reads (R55, R57, R64) -/

/-- A word whose bit `i`, for `i` in 0..15, is `bit i`; bits [31:16] are 0 (R36). -/
def validWord (bit : Reg → Bool) : W32 :=
  (List.finRange 16).foldl (fun w i => w ||| flagBit i.val (bit i)) 0

/-- What a well-formed read of a location returns (R53 to R57). -/
def State.busRead (s : State) : Loc → W32
  | .id => idWord
  | .version => versionWord
  | .ctrl => flagBit 0 s.ie
  | .status => s.status.word
  | .cmd => s.cmd
  | .flags => s.flags.word
  | .cmdcnt => s.cmdcnt
  | .fvalid => validWord fun i => s.f[i.val].valid
  | .pvalid => validWord fun i => s.p[i.val].valid
  | .len => s.len.setWidth 32
  | .xWord i j => wordOf (s.readX i) j
  | .bufWord k =>
    packWord (s.buf.read (4 * k.val)) (s.buf.read (4 * k.val + 1)) (s.buf.read (4 * k.val + 2))
      (s.buf.read (4 * k.val + 3))
  | .reserved => 0

/-! ### Writes (R53 to R58, R64) -/

/-- A write that is ignored, with IGN set, while the engine is busy (R64). -/
def State.whenIdle (s : State) (t : State) : State := if s.status.busy then s.ignored else t

/-- A CTRL write: SRST resets and IE ends at 0, else IE is written; busy or not (R33, R300, R302). -/
def State.writeCtrl (s : State) (v : W32) : State :=
  if v.getLsbD 1 then s.resetBlock else { s with ie := v.getLsbD 0 }

/-- A STATUS write: W1C of DONE (bit 1) and IGN (bit 3); busy or not (R34). -/
def State.writeStatus (s : State) (v : W32) : State :=
  let t := if v.getLsbD 1 then s.acknowledge else s
  { t with status := { t.status with ign := t.status.ign && !v.getLsbD 3 } }

/-- The four bytes of a `BUF` word, lowest index first (R57). -/
def bytesOf (v : W32) : List Byte := [byteOf v 0, byteOf v 1, byteOf v 2, byteOf v 3]

/-- What a well-formed write to a location does (R53 to R58, R64). -/
def State.busWrite (s : State) (v : W32) : Loc → State
  | .ctrl => s.writeCtrl v
  | .status => s.writeStatus v
  | .cmd => s.whenIdle (s.accept v)
  | .len => s.whenIdle { s with len := v.setWidth 8 }
  | .xWord i j => s.whenIdle (s.setX i (setWord (s.readX i) j v))
  | .bufWord k => s.whenIdle { s with buf := s.buf.writeBytes (4 * k.val) (bytesOf v) }
  | .id | .version | .flags | .cmdcnt | .fvalid | .pvalid | .reserved => s

end Sys2Proof.Machine
end

