-- ==== Sys2Proof/Machine/Control.lean ====
section
/-! DEFINITION. The control commands: 40_control.md R105 to R108. -/

namespace Sys2Proof.Machine

/-- `NOP` (R105): only the completion. -/
def execNop (s : State) : Host.Outcome State Fault Refusal := conclude s (.ok s)

/-- `ZEROIZE` (R106). -/
def execZeroize (s : State) : Host.Outcome State Fault Refusal := conclude s (.ok s.zeroized)

/-- `XMOV xD, xA` (R107). -/
def execXmov (d a : Reg) (s : State) : Host.Outcome State Fault Refusal :=
  conclude s (.ok (s.setX d (s.readX a)))

/-- `XLDC xD, #A` (R108); a reserved selector is `ILLEGAL_COMMAND` (R83). -/
def execXldc (d a : Reg) (s : State) : Host.Outcome State Fault Refusal :=
  conclude s (match rom a with
    | some v => .ok (s.setX d v)
    | none => .error .illegalCommand)

end Sys2Proof.Machine
end

