-- ==== Sys2Proof/Machine/FieldArith.lean ====
section
/-! DEFINITION. Field arithmetic: the helpers of 41_field.md R121 to R128, exact on integers and narrowed once at the end (R129). -/

namespace Sys2Proof.Machine

/-- Square-and-multiply, least significant bit first, reducing at every step (R126): `acc * base ^ e mod m` for `e < 2 ^ fuel`. -/
def powModLoop : Nat → Nat → Nat → Nat → Nat → Nat
  | 0, acc, _, _, _ => acc
  | fuel + 1, acc, base, e, m =>
    if e = 0 then acc
    else powModLoop fuel (if e % 2 = 1 then acc * base % m else acc) (base * base % m) (e / 2) m

/-- `a ^ e mod m` with `a ^ 0 = 1`, for `e < 2^256` (R7, R126); equal to it by `powMod_eq` (log 12). -/
def powMod (a e m : Nat) : Nat := powModLoop 256 (1 % m) (a % m) e m

/-- `fcheck(a, b)` (R121). -/
def fcheck (a b : Fe) : Except ResultCode Unit := if a.m ≠ b.m then .error .fieldMismatch else .ok ()

/-- `fadd(a, b)` (R122). -/
def fadd (a b : Fe) : Except ResultCode Fe := do
  fcheck a b
  return ⟨BitVec.ofNat 256 ((a.v.toNat + b.v.toNat) % a.m.toNat), a.m⟩

/-- `fsub(a, b)`, with the Euclidean remainder (R7, R123). -/
def fsub (a b : Fe) : Except ResultCode Fe := do
  fcheck a b
  return ⟨BitVec.ofNat 256 (((a.v.toNat : Int) - b.v.toNat) % a.m.toNat).toNat, a.m⟩

/-- `fmul(a, b)` (R124). -/
def fmul (a b : Fe) : Except ResultCode Fe := do
  fcheck a b
  return ⟨BitVec.ofNat 256 (a.v.toNat * b.v.toNat % a.m.toNat), a.m⟩

/-- The exponent normalized modulo `m - 1`: `e mod (m - 1)`, Euclidean (R125). -/
def normExponent (m : W256) (e : Int) : Nat := (e % ((m.toNat : Int) - 1)).toNat

/-- `fpow(a, e)` (R125). -/
def fpow (a : Fe) (e : Int) : Fe :=
  ⟨BitVec.ofNat 256 (powMod a.v.toNat (normExponent a.m e) a.m.toNat), a.m⟩

/-- `finv(a)` (R127). -/
def finv (a : Fe) : Except ResultCode Fe :=
  if a.v = 0 then .error .divisionByZero else .ok (fpow a ((a.m.toNat : Int) - 2))

/-- `fdiv(a, b)`: `FIELD_MISMATCH` before `DIVISION_BY_ZERO` (R128). -/
def fdiv (a b : Fe) : Except ResultCode Fe := do
  fcheck a b
  if b.v = 0 then .error .divisionByZero
  else fmul a (fpow b ((b.m.toNat : Int) - 2))

end Sys2Proof.Machine
end

