-- ==== Sys2Proof/Machine/PointLaw.lean ====
section
/-! DEFINITION. The group law on a generic short-Weierstrass curve: the helpers of 42_point.md R151 to R159. -/

namespace Sys2Proof.Machine

/-- `oncurve(x, y, a, b)` for four elements of one modulus (R151). -/
def oncurve (x y a b : Fe) : Bool :=
  y.v.toNat * y.v.toNat % x.m.toNat
    == (x.v.toNat * x.v.toNat * x.v.toNat + a.v.toNat * x.v.toNat + b.v.toNat) % x.m.toNat

/-- `peq(P1, P2)` (R152). -/
def peq (q r : Pt) : Bool :=
  q.a == r.a && q.b == r.b && q.inf == r.inf && (q.inf || (q.x == r.x && q.y == r.y))

/-- `mkpoint(x, y, a, b)` (R153). -/
def mkpoint (x y a b : Fe) : Except ResultCode Pt :=
  if x.m ≠ y.m ∨ x.m ≠ a.m ∨ x.m ≠ b.m then .error .fieldMismatch
  else if oncurve x y a b = false then .error .notOnCurve
  else .ok ⟨false, x, y, a, b⟩

/-- `mkinf(a, b)`: the identity of curve `(a, b)`, its stored coordinates `fe(0, a.m)` (R154). -/
def mkinf (a b : Fe) : Except ResultCode Pt :=
  if a.m ≠ b.m then .error .fieldMismatch else .ok ⟨true, ⟨0, a.m⟩, ⟨0, a.m⟩, a, b⟩

/-- `ccheck(P1, P2)` (R155). -/
def ccheck (q r : Pt) : Except ResultCode Unit :=
  if q.a ≠ r.a ∨ q.b ≠ r.b then .error .curveMismatch else .ok ()

/-- `c(k) = fe(k mod m, m)` (R157). -/
def fconst (k : Nat) (m : W256) : Fe := ⟨BitVec.ofNat 256 (k % m.toNat), m⟩

/-- The third point on the line of slope `s` through `q` and an affine point of x-coordinate `x2`,
reflected: `x3 = s² - x1 - x2`, `y3 = s·(x1 - x3) - y1` (R156 cases 3 and 4). -/
def chord (q : Pt) (x2 s : Fe) : Except ResultCode Pt := do
  let x3 ← fsub (← fsub (← fmul s s) q.x) x2
  let y3 ← fsub (← fmul s (← fsub q.x x3)) q.y
  return ⟨false, x3, y3, q.a, q.b⟩

/-- The third point of a doubling: `x3 = s² - 2·x1`, `y3 = s·(x1 - x3) - y1` (R156 case 4). -/
def tangent (q : Pt) (s : Fe) : Except ResultCode Pt := do
  let x3 ← fsub (← fmul s s) (← fmul (fconst 2 q.a.m) q.x)
  let y3 ← fsub (← fmul s (← fsub q.x x3)) q.y
  return ⟨false, x3, y3, q.a, q.b⟩

/-- `padd(P1, P2)`: the four cases, in order (R156). -/
def padd (q r : Pt) : Except ResultCode Pt := do
  ccheck q r
  if q.inf then .ok r
  else if r.inf then .ok q
  else if q.x = r.x ∧ q.y ≠ r.y then mkinf q.a q.b
  else if q.x ≠ r.x then
    chord q r.x (← fdiv (← fsub r.y q.y) (← fsub r.x q.x))
  else if q.y.v = 0 then mkinf q.a q.b
  else
    let num ← fadd (← fmul (fconst 3 q.a.m) (← fmul q.x q.x)) q.a
    tangent q (← fdiv num (← fmul (fconst 2 q.a.m) q.y))

/-- `pneg(P)` (R158). -/
def pneg (q : Pt) : Pt :=
  if q.inf then q
  else { q with y := ⟨BitVec.ofNat 256 ((0 - (q.y.v.toNat : Int)) % q.a.m.toNat).toNat, q.a.m⟩ }

/-- R159's loop, for a coefficient below `2 ^ fuel`: the sequence of `padd` calls is normative, the
doubling after the most significant bit included. -/
def pmulLoop : Nat → Pt → Pt → Nat → Except ResultCode Pt
  | 0, result, _, _ => .ok result
  | fuel + 1, result, current, coef =>
    if coef = 0 then .ok result
    else do
      let result ← (if coef % 2 = 1 then padd result current else .ok result : Except ResultCode Pt)
      let current ← padd current current
      pmulLoop fuel result current (coef / 2)

/-- `pmul(P, k)` for `0 <= k < 2^256` (R159). -/
def pmul (q : Pt) (k : Nat) : Except ResultCode Pt := do
  pmulLoop 256 (← mkinf q.a q.b) q k

end Sys2Proof.Machine
end

