-- ==== Sys2Proof/Machine/SecpLaw.lean ====
section
/-! DEFINITION. The secp256k1 helpers: 43_secp256k1.md R183, R185, R186. -/

namespace Sys2Proof.Machine

/-- `issecp(P)` (R183). -/
def issecp (q : Pt) : Bool := q.a == secpFe 0 && q.b == secpFe 7

/-- `smul(P, k)` (R185); the algorithm is free there (R188, log 11). -/
def smul (q : Pt) (k : Nat) : Except ResultCode Pt :=
  if issecp q = false then .error .curveMismatch else pmul q (k % secpN)

/-- `beta`, the candidate square root of `alpha` modulo `p` (R186). -/
def sqrtP (alpha : Nat) : Nat := powMod alpha ((secpP + 1) / 4) secpP

/-- `liftx(x, odd)` (R186). -/
def liftx (x : Nat) (odd : Bool) : Except ResultCode Pt :=
  let alpha := (x ^ 3 + 7) % secpP
  let beta := sqrtP alpha
  if secpP ≤ x then .error .outOfRange
  else if beta * beta % secpP ≠ alpha then .error .notOnCurve
  else .ok ⟨false, secpFe x, secpFe (if (beta % 2 == 1) = odd then beta else secpP - beta),
    secpFe 0, secpFe 7⟩

end Sys2Proof.Machine
end

