-- ==== Sys2Proof/Machine/EcdsaCore.lean ====
section
/-! DEFINITION. The ECDSA helpers: 44_ecdsa.md R202 to R208. The HMAC function is an argument here; SIGN gives `Config.hmac` (R40). -/

namespace Sys2Proof.Machine

/-- A scalar in `[1, n - 1]`: a secret, a nonce, an `r` or an `s` (R200). -/
def inScalarRange (k : Nat) : Bool := 1 ≤ k && k ≤ secpN - 1

/-! ### The nonce generator (R203) -/

/-- R203's steps b to g: the generator's state before its first candidate. -/
def nonceSeed (hmac : Bytes32 → List Byte → Bytes32) (x z : Nat) : NonceState :=
  let tail := be32 x ++ be32 (z % secpN)
  let v0 : Bytes32 := Vector.replicate 32 0x01
  let k0 : Bytes32 := Vector.replicate 32 0x00
  let k1 := hmac k0 (v0.toList ++ [0x00] ++ tail)
  let v1 := hmac k1 v0.toList
  let k2 := hmac k1 (v1.toList ++ [0x01] ++ tail)
  let v2 := hmac k2 v1.toList
  ⟨k2, v2, false⟩

/-- `V <- HMAC(K, V)`, the first line of step h's loop. -/
def nonceDraw (hmac : Bytes32 → List Byte → Bytes32) (g : NonceState) : NonceState :=
  { g with val := hmac g.key g.val.toList }

/-- `K <- HMAC(K, V || 0x00); V <- HMAC(K, V)`, what precedes the next candidate. -/
def nonceNext (hmac : Bytes32 → List Byte → Bytes32) (g : NonceState) : NonceState :=
  let key := hmac g.key (g.val.toList ++ [0x00])
  { g with key := key, val := hmac key g.val.toList }

/-! ### Signing (R205, R206) -/

/-- `lows(s)` (R206). -/
def lows (s : Nat) : Nat := if (secpN - 1) / 2 < s then secpN - s else s

/-- The body of R205's loop for candidate `k`: the signature, or none when `r = 0` or `s = 0`. -/
def signCandidate (x z k : Nat) : Except ResultCode (Option (Nat × Nat)) := do
  let R ← smul secpG k
  let r := R.x.v.toNat % secpN
  let s := (z + r * x) * powMod k (secpN - 2) secpN % secpN
  if r = 0 then .ok none
  else if s = 0 then .ok none
  else .ok (some (r, lows s))

/-- What one candidate of the signing loop came to. -/
inductive SignRound where
  /-- The signature and NRT: the command completes. -/
  | accepted (r s : Nat) (nrt : Bool)
  /-- The candidate was out of range or rejected: the loop goes on from this generator state. -/
  | again (g : NonceState)
  deriving DecidableEq, Repr

/-- One candidate of R203's and R205's loops, from generator state `g`. -/
def signRound (hmac : Bytes32 → List Byte → Bytes32) (x z : Nat) (g : NonceState) :
    Except ResultCode SignRound :=
  let g' := nonceDraw hmac g
  let k := be g'.val.toList
  if inScalarRange k = false then .ok (.again (nonceNext hmac g'))
  else do
    match ← signCandidate x z k with
    | none => .ok (.again (nonceNext hmac { g' with nrt := true }))
    | some (r, s) => .ok (.accepted r s g'.nrt)

/-! ### Verification (R207) -/

/-- `verifycore(Q, z, r, s)`: the completion code and the verdict. -/
def verifycore (q : Pt) (z r s : Nat) : Except ResultCode (ResultCode × Bool) :=
  let sInv := powMod s (secpN - 2) secpN
  let u := z * sInv % secpN
  let v := r * sInv % secpN
  if issecp q = false then .error .curveMismatch
  else if q.inf then .error .identityPoint
  else if inScalarRange r = false || inScalarRange s = false then .ok (.invalidSignature, false)
  else do
    let R ← padd (← smul secpG u) (← smul q v)
    if R.inf then .ok (.ok, false) else .ok (.ok, R.x.v.toNat % secpN == r)

/-! ### Key generation (R208) -/

/-- `keygen()` on the draws at hand: the first in `[1, n - 1]` and the draws after it; none when there is no such draw. -/
def takeDraw : List W256 → Option (W256 × List W256)
  | [] => none
  | c :: rest => if inScalarRange c.toNat then some (c, rest) else takeDraw rest

end Sys2Proof.Machine
end

