-- ==== Sys2Proof/Machine/Ecdsa.lean ====
section
/-! DEFINITION. The ECDSA commands: 44_ecdsa.md R210 to R213. -/

namespace Sys2Proof.Machine

/-- `KEYGEN xD, pE` (R210). With no draw in `[1, n - 1]` at hand the draws there are discarded (R208)
and the command has not completed: BUSY stays as it is and a later engine turn goes on (R311; log 5). -/
def execKeygen (d e : Reg) (s : State) : Host.Outcome State Fault Refusal :=
  match takeDraw s.entropy with
  | none => .next { s with entropy := [] }
  | some (c, rest) =>
    conclude s do
      let q ← smul secpG c.toNat
      .ok ((({ s with entropy := rest }.setX d c).setP e q).setInf false)

/-- `PUBKEY pD, xA` (R211). -/
def execPubkey (d a : Reg) (s : State) : Host.Outcome State Fault Refusal :=
  conclude s
    (if inScalarRange (s.readNat a) = false then .error .outOfRange
    else do
      let q ← smul secpG (s.readNat a)
      .ok ((s.setP d q).setInf false))

/-- SIGN over a given HMAC function: one candidate of the signing loop (R205, R212). A rejected
candidate leaves the command in execution, BUSY as it is, with the generator's state kept for the
next engine turn (R311; log 4). -/
def signWith (hmac : Bytes32 → List Byte → Bytes32) (d e a b : Reg) (s : State) :
    Host.Outcome State Fault Refusal :=
  if d = e then .next (s.raise .illegalCommand)
  else if inScalarRange (s.readNat a) = false then .next (s.raise .outOfRange)
  else
    match signRound hmac (s.readNat a) (s.readNat b)
        (s.nonce.getD (nonceSeed hmac (s.readNat a) (s.readNat b))) with
    | .error c => .next (s.raise c)
    | .ok (.again g) => .next { s with nonce := some g }
    | .ok (.accepted r t nrt) =>
      conclude s (.ok (((s.setX d (BitVec.ofNat 256 r)).setX e (BitVec.ofNat 256 t)).setNrt nrt))

/-- `SIGN xD, xE, xA, xB` (R212), over the HMAC port (R201). -/
def execSign (d e a b : Reg) (s : State) : Host.Outcome State Fault Refusal :=
  signWith Config.hmac d e a b s

/-- `VERIFY pA, xB, xC, xE` (R213): VOK is written in every outcome (R32, R101). -/
def execVerify (a b c e : Reg) (s : State) : Host.Outcome State Fault Refusal :=
  match (do
      let q ← s.readP a
      verifycore q (s.readNat b) (s.readNat c) (s.readNat e)) with
  | .ok (code, verdict) => .next ((s.setVok verdict).finish code)
  | .error code => .next ((s.setVok false).raise code)

end Sys2Proof.Machine
end

