-- ==== Sys2Proof/Machine/SecDer.lean ====
section
/-! DEFINITION. The SEC point and DER signature formats: 45_encoding.md R231 to R233 and R236. -/

namespace Sys2Proof.Machine

/-- `sec_u(x, y)`, 65 bytes (R231). -/
def secU (x y : Fe) : List Byte := 0x04 :: (be32 x.v.toNat ++ be32 y.v.toNat)

/-- `sec_c(x, y)`, 33 bytes (R231). -/
def secC (x y : Fe) : List Byte := (if y.v.toNat % 2 = 0 then 0x02 else 0x03) :: be32 x.v.toNat

/-- SECDEC's parse of the string `t` (R236); the caller has refused `LEN > 128`. -/
def secParse (t : List Byte) : Except ResultCode Pt :=
  match t with
  | [] => .error .malformedSec
  | c :: body =>
    if c = 0x04 then
      let x := be (body.take 32)
      let y := be (body.drop 32)
      if t.length ≠ 65 then .error .malformedSec
      else if secpP ≤ x ∨ secpP ≤ y then .error .outOfRange
      else mkpoint (secpFe x) (secpFe y) (secpFe 0) (secpFe 7)
    else if c = 0x02 ∨ c = 0x03 then
      if t.length ≠ 33 then .error .malformedSec
      else liftx (be body) (c = 0x03)
    else .error .malformedSec

/-- The content bytes of a DER INTEGER: `minbe(v)`, with a 0x00 before a set high bit (R232). -/
def derContent (v : Nat) : List Byte :=
  match minbe v with
  | [] => []
  | c :: rest => if c.msb then 0x00 :: c :: rest else c :: rest

/-- `derint(v)` for `v >= 1` (R232). -/
def derint (v : Nat) : List Byte :=
  0x02 :: BitVec.ofNat 8 (derContent v).length :: derContent v

/-- `der(r, s)` (R232). -/
def der (r s : Nat) : List Byte :=
  0x30 :: BitVec.ofNat 8 (derint r ++ derint s).length :: (derint r ++ derint s)

/-- Byte `i` of a string as an integer; every use below is at an index the checks before it put inside the string. -/
def byteAt (t : List Byte) (i : Nat) : Nat := (t.getD i 0).toNat

/-- `derparse(S)`, its checks in order (R233). -/
def derparse (t : List Byte) : Except ResultCode (Nat × Nat) :=
  let L := t.length
  let lr := byteAt t 3
  let ls := byteAt t (5 + lr)
  let r := be ((t.drop 4).take lr)
  let s := be ((t.drop (6 + lr)).take ls)
  if L < 2 ∨ byteAt t 0 ≠ 0x30 then .error .malformedDer
  else if byteAt t 1 + 2 ≠ L then .error .malformedDer
  else if L < 4 ∨ byteAt t 2 ≠ 0x02 then .error .malformedDer
  else if lr = 0 ∨ L < 4 + lr + 2 then .error .malformedDer
  else if byteAt t (4 + lr) ≠ 0x02 then .error .malformedDer
  else if ls = 0 ∨ 6 + lr + ls ≠ L then .error .malformedDer
  else if 2 ^ 256 ≤ r ∨ 2 ^ 256 ≤ s then .error .malformedDer
  else .ok (r, s)

end Sys2Proof.Machine
end

