-- ==== Sys2Proof/Machine/Encoding.lean ====
section
/-! DEFINITION. The encoding commands: 45_encoding.md R235 to R238. -/

namespace Sys2Proof.Machine

/-- SECENC's checks and output string, in R235's order. -/
def secString (q : Pt) (compressed : Bool) : Except ResultCode (List Byte) :=
  if issecp q = false then .error .curveMismatch
  else if q.inf then .error .identityPoint
  else .ok (if compressed then secC q.x q.y else secU q.x q.y)

/-- `SECENC[.C] pA` (R235). -/
def execSecenc (a : Reg) (compressed : Bool) (s : State) : Host.Outcome State Fault Refusal :=
  conclude s do
    let q ← s.readP a
    let t ← secString q compressed
    .ok (s.putString t)

/-- `SECDEC pD` (R236). -/
def execSecdec (d : Reg) (s : State) : Host.Outcome State Fault Refusal :=
  conclude s
    (if s.len = 0 ∨ Memory.size < s.len.toNat then .error .malformedSec
    else do
      let q ← secParse s.readString
      .ok ((s.setP d q).setInf false))

/-- `DERENC xA, xB` (R237). -/
def execDerenc (a b : Reg) (s : State) : Host.Outcome State Fault Refusal :=
  conclude s
    (if inScalarRange (s.readNat a) = false ∨ inScalarRange (s.readNat b) = false then
      .error .outOfRange
    else .ok (s.putString (der (s.readNat a) (s.readNat b))))

/-- `DERDEC xD, xE` (R238). -/
def execDerdec (d e : Reg) (s : State) : Host.Outcome State Fault Refusal :=
  conclude s
    (if d = e then .error .illegalCommand
    else if Memory.size < s.len.toNat then .error .malformedDer
    else do
      let (r, t) ← derparse s.readString
      .ok ((s.setX d (BitVec.ofNat 256 r)).setX e (BitVec.ofNat 256 t)))

end Sys2Proof.Machine
end

