-- ==== Sys2Proof/Machine/Field.lean ====
section
/-! DEFINITION. The field commands: 41_field.md R130 to R140. -/

namespace Sys2Proof.Machine

/-! ### The shapes the commands share -/

/-- `a <- readF(A); b <- readF(B); F[D] <- op(a, b)` (R133 to R136). -/
def fieldBinary (op : Fe → Fe → Except ResultCode Fe) (d a b : Reg) (s : State) :
    Host.Outcome State Fault Refusal :=
  conclude s do
    let x ← s.readF a
    let y ← s.readF b
    let r ← op x y
    .ok (s.setF d r)

/-- `a <- readF(A); F[D] <- op(a)` (R137, R138, R140). -/
def fieldUnary (op : Fe → Except ResultCode Fe) (d a : Reg) (s : State) :
    Host.Outcome State Fault Refusal :=
  conclude s do
    let x ← s.readF a
    let r ← op x
    .ok (s.setF d r)

/-- `a <- readF(A); X[D] <- get(a)` (R131, R132). -/
def fieldGet (get : Fe → W256) (d a : Reg) (s : State) : Host.Outcome State Fault Refusal :=
  conclude s do
    let x ← s.readF a
    .ok (s.setX d (get x))

/-! ### The commands -/

/-- `FSET fD, xA, xB` (R130). -/
def execFset (d a b : Reg) (s : State) : Host.Outcome State Fault Refusal :=
  conclude s
    (if s.readNat b < 2 then .error .outOfRange
    else if s.readNat b ≤ s.readNat a then .error .outOfRange
    else .ok (s.setF d ⟨s.readX a, s.readX b⟩))

/-- `FGET xD, fA` (R131). -/
def execFget (d a : Reg) (s : State) : Host.Outcome State Fault Refusal := fieldGet Fe.v d a s

/-- `FMOD xD, fA` (R132). -/
def execFmod (d a : Reg) (s : State) : Host.Outcome State Fault Refusal := fieldGet Fe.m d a s

/-- `FADD fD, fA, fB` (R133). -/
def execFadd (d a b : Reg) (s : State) : Host.Outcome State Fault Refusal := fieldBinary fadd d a b s

/-- `FSUB fD, fA, fB` (R134). -/
def execFsub (d a b : Reg) (s : State) : Host.Outcome State Fault Refusal := fieldBinary fsub d a b s

/-- `FMUL fD, fA, fB` (R135). -/
def execFmul (d a b : Reg) (s : State) : Host.Outcome State Fault Refusal := fieldBinary fmul d a b s

/-- `FDIV fD, fA, fB` (R136). -/
def execFdiv (d a b : Reg) (s : State) : Host.Outcome State Fault Refusal := fieldBinary fdiv d a b s

/-- `FINV fD, fA` (R137). -/
def execFinv (d a : Reg) (s : State) : Host.Outcome State Fault Refusal := fieldUnary finv d a s

/-- `FPOW[.S] fD, fA, xB` (R138). -/
def execFpow (d a b : Reg) (signed : Bool) (s : State) : Host.Outcome State Fault Refusal :=
  fieldUnary (fun x => .ok (fpow x (s.readExponent b signed))) d a s

/-- `FEQ fA, fB` (R139): equal values and equal moduli; no mismatch is raised. -/
def execFeq (a b : Reg) (s : State) : Host.Outcome State Fault Refusal :=
  conclude s do
    let x ← s.readF a
    let y ← s.readF b
    .ok (s.setEq (x == y))

/-- `FMOV fD, fA` (R140). -/
def execFmov (d a : Reg) (s : State) : Host.Outcome State Fault Refusal := fieldUnary .ok d a s

end Sys2Proof.Machine
end

