-- ==== Sys2Proof/Machine/Point.lean ====
section
/-! DEFINITION. The point commands: 42_point.md R160 to R170. -/

namespace Sys2Proof.Machine

/-! ### The shapes the commands share -/

/-- `p <- readP(A); r <- op(p); P[D] <- r; FLAGS.INF <- r.inf` (R165 to R167, R169, R191). -/
def pointUnary (op : Pt → Except ResultCode Pt) (d a : Reg) (s : State) :
    Host.Outcome State Fault Refusal :=
  conclude s do
    let q ← s.readP a
    let r ← op q
    .ok (s.putP d r)

/-- A coordinate of an affine point; `IDENTITY_POINT` for the identity (R162, R163). -/
def coordinate (get : Pt → Fe) (q : Pt) : Except ResultCode Fe :=
  if q.inf then .error .identityPoint else .ok (get q)

/-- `p <- readP(A); F[D] <- the coordinate` (R162, R163). -/
def pointGet (get : Pt → Fe) (d a : Reg) (s : State) : Host.Outcome State Fault Refusal :=
  conclude s do
    let q ← s.readP a
    let r ← coordinate get q
    .ok (s.setF d r)

/-! ### The commands -/

/-- `PSET pD, fA, fB, fC, fE` (R160). -/
def execPset (d a b c e : Reg) (s : State) : Host.Outcome State Fault Refusal :=
  conclude s do
    let x ← s.readF a
    let y ← s.readF b
    let ca ← s.readF c
    let cb ← s.readF e
    let r ← mkpoint x y ca cb
    .ok (s.putP d r)

/-- `PINF pD, fA, fB` (R161). -/
def execPinf (d a b : Reg) (s : State) : Host.Outcome State Fault Refusal :=
  conclude s do
    let ca ← s.readF a
    let cb ← s.readF b
    let r ← mkinf ca cb
    .ok (s.putP d r)

/-- `PGETX fD, pA` (R162). -/
def execPgetx (d a : Reg) (s : State) : Host.Outcome State Fault Refusal := pointGet Pt.x d a s

/-- `PGETY fD, pA` (R163). -/
def execPgety (d a : Reg) (s : State) : Host.Outcome State Fault Refusal := pointGet Pt.y d a s

/-- `PADD pD, pA, pB` (R164). -/
def execPadd (d a b : Reg) (s : State) : Host.Outcome State Fault Refusal :=
  conclude s do
    let q ← s.readP a
    let r ← s.readP b
    let t ← padd q r
    .ok (s.putP d t)

/-- `PDBL pD, pA` (R165). -/
def execPdbl (d a : Reg) (s : State) : Host.Outcome State Fault Refusal :=
  pointUnary (fun q => padd q q) d a s

/-- `PNEG pD, pA` (R166). -/
def execPneg (d a : Reg) (s : State) : Host.Outcome State Fault Refusal :=
  pointUnary (fun q => .ok (pneg q)) d a s

/-- `PMUL pD, pA, xB` (R167). -/
def execPmul (d a b : Reg) (s : State) : Host.Outcome State Fault Refusal :=
  pointUnary (fun q => pmul q (s.readNat b)) d a s

/-- `PEQ pA, pB` (R168): no mismatch is raised. -/
def execPeq (a b : Reg) (s : State) : Host.Outcome State Fault Refusal :=
  conclude s do
    let q ← s.readP a
    let r ← s.readP b
    .ok (s.setEq (peq q r))

/-- `PMOV pD, pA` (R169). -/
def execPmov (d a : Reg) (s : State) : Host.Outcome State Fault Refusal := pointUnary .ok d a s

/-- `PTST pA` (R170). -/
def execPtst (a : Reg) (s : State) : Host.Outcome State Fault Refusal :=
  conclude s do
    let q ← s.readP a
    .ok (s.setInf q.inf)

end Sys2Proof.Machine
end

