-- ==== Sys2Proof/Machine/Secp256k1.lean ====
section
/-! DEFINITION. The secp256k1 commands: 43_secp256k1.md R190 to R192. -/

namespace Sys2Proof.Machine

/-- `GLOAD pD` (R190). -/
def execGload (d : Reg) (s : State) : Host.Outcome State Fault Refusal :=
  conclude s (.ok (s.putP d secpG))

/-- `SMUL pD, pA, xB` (R191). -/
def execSmul (d a b : Reg) (s : State) : Host.Outcome State Fault Refusal :=
  pointUnary (fun q => smul q (s.readNat b)) d a s

/-- `LIFTX[.ODD] pD, xA` (R192). -/
def execLiftx (d a : Reg) (odd : Bool) (s : State) : Host.Outcome State Fault Refusal :=
  conclude s do
    let r ← liftx (s.readNat a) odd
    .ok (s.putP d r)

end Sys2Proof.Machine
end

