-- ==== Sys2Proof/Machine/Dispatch.lean ====
section
/-! DEFINITION. The completion step of a decoded command (40_control.md R101): one arm per constructor of Instr. -/

namespace Sys2Proof.Machine

/-- What the engine's completion step does with a decoded command. -/
def exec (i : Instr) (s : State) : Host.Outcome State Fault Refusal :=
  match i with
  | .nop => Sys2Proof.Machine.execNop s
  | .zeroize => Sys2Proof.Machine.execZeroize s
  | .xmov d a => Sys2Proof.Machine.execXmov d a s
  | .xldc d a => Sys2Proof.Machine.execXldc d a s
  | .fset d a b => Sys2Proof.Machine.execFset d a b s
  | .fget d a => Sys2Proof.Machine.execFget d a s
  | .fmod d a => Sys2Proof.Machine.execFmod d a s
  | .fadd d a b => Sys2Proof.Machine.execFadd d a b s
  | .fsub d a b => Sys2Proof.Machine.execFsub d a b s
  | .fmul d a b => Sys2Proof.Machine.execFmul d a b s
  | .fdiv d a b => Sys2Proof.Machine.execFdiv d a b s
  | .finv d a => Sys2Proof.Machine.execFinv d a s
  | .fpow d a b m => Sys2Proof.Machine.execFpow d a b m s
  | .feq a b => Sys2Proof.Machine.execFeq a b s
  | .fmov d a => Sys2Proof.Machine.execFmov d a s
  | .pset d a b c e => Sys2Proof.Machine.execPset d a b c e s
  | .pinf d a b => Sys2Proof.Machine.execPinf d a b s
  | .pgetx d a => Sys2Proof.Machine.execPgetx d a s
  | .pgety d a => Sys2Proof.Machine.execPgety d a s
  | .padd d a b => Sys2Proof.Machine.execPadd d a b s
  | .pdbl d a => Sys2Proof.Machine.execPdbl d a s
  | .pneg d a => Sys2Proof.Machine.execPneg d a s
  | .pmul d a b => Sys2Proof.Machine.execPmul d a b s
  | .peq a b => Sys2Proof.Machine.execPeq a b s
  | .pmov d a => Sys2Proof.Machine.execPmov d a s
  | .ptst a => Sys2Proof.Machine.execPtst a s
  | .gload d => Sys2Proof.Machine.execGload d s
  | .smul d a b => Sys2Proof.Machine.execSmul d a b s
  | .liftx d a m => Sys2Proof.Machine.execLiftx d a m s
  | .keygen d e => Sys2Proof.Machine.execKeygen d e s
  | .pubkey d a => Sys2Proof.Machine.execPubkey d a s
  | .sign d e a b => Sys2Proof.Machine.execSign d e a b s
  | .verify a b c e => Sys2Proof.Machine.execVerify a b c e s
  | .secenc a m => Sys2Proof.Machine.execSecenc a m s
  | .secdec d => Sys2Proof.Machine.execSecdec d s
  | .derenc a b => Sys2Proof.Machine.execDerenc a b s
  | .derdec d e => Sys2Proof.Machine.execDerdec d e s

end Sys2Proof.Machine
end

