-- ==== Sys2Proof/Machine/Engine.lean ====
section
/-! DEFINITION. The engine's turn and the other events of R63 and R271. -/

namespace Sys2Proof.Machine

/-- The engine's completion step, enabled when `BUSY = 1`: it decodes the latched word and runs the
command, or completes with `ILLEGAL_COMMAND` (R84, R101). An idle engine holds all its state (R280). -/
def engineTurn (s : State) : Host.Outcome State Fault Refusal :=
  if s.status.busy then
    match decode s.cmd with
    | .ok i => exec i s
    | .error _ => .next (s.raise .illegalCommand)
  else .next s

/-- One event on the state it finds (R63, R271). -/
def applyEvent (ev : Event) (s : State) : Host.Outcome State Fault Refusal :=
  match ev with
  | .read width off =>
    if wellFormedAccess width off then .next { s with lastRead := some (s.busRead (locOf off)) }
    else .fault .busError
  | .write width off v =>
    if wellFormedAccess width off then .next (s.busWrite v (locOf off)) else .fault .busError
  | .hardReset => .next s.resetBlock
  | .entropy draw => .next { s with entropy := s.entropy ++ [draw] }
  | .engine => engineTurn s

/-- The next event: the first of the agenda, or the engine's turn when no other event is to come (R311: the engine is weakly fair). -/
def nextEvent (s : State) : Event × State :=
  match s.agenda with
  | [] => (.engine, s)
  | ev :: rest => (ev, { s with agenda := rest })

end Sys2Proof.Machine
end

