-- ==== Sys2Proof/Machine/Step.lean ====
section
/-! DEFINITION. One step of the machine: its next event; and how a command word is placed to run next. -/

namespace Sys2Proof.Machine

/-- One step: the next event takes effect (R63). -/
def step (s : State) : Host.Outcome State Fault Refusal := applyEvent (nextEvent s).1 (nextEvent s).2

/-- `s` with the word `w` latched in CMD as a host's CMD write leaves it (R100), and the engine's turn
next, so that the next step runs that command (log 2). Commands are 32 bits (R88). -/
def State.withFetchWord (s : State) (nbits w : Nat) : State :=
  { s.accept (BitVec.ofNat 32 (w % 2 ^ nbits)) with agenda := .engine :: s.agenda }

end Sys2Proof.Machine
end

