-- ==== Sys2Proof/Safety.lean ====
section
/-! DEFINITION. What a good state and a safe run are: the invariants the spec gives the registers (10_state.md R23, R26) and the form the model keeps its data in. -/

namespace Sys2Proof.Machine

/-- A legal field element: `2 <= m` and `0 <= v < m` (R23). -/
def Fe.wf (e : Fe) : Prop := 2 ≤ e.m.toNat ∧ e.v.toNat < e.m.toNat

/-- A legal point value (R26), the curve-equation clause apart: one modulus, four legal elements, and
zero coordinates in the identity. -/
def Pt.wf (q : Pt) : Prop :=
  (q.x.m = q.a.m ∧ q.y.m = q.a.m ∧ q.b.m = q.a.m) ∧
  (q.x.wf ∧ q.y.wf ∧ q.a.wf ∧ q.b.wf) ∧
  (q.inf = true → q.x.v = 0 ∧ q.y.v = 0)

/-- R26's curve-equation clause: an affine point satisfies `y^2 = x^3 + a*x + b`. -/
def Pt.onCurve (q : Pt) : Prop := q.inf = false → oncurve q.x q.y q.a q.b = true

/-- Every valid F register is legal (R23). -/
def State.fieldsOk (s : State) : Prop := ∀ i : Reg, s.f[i.val].valid = true → s.f[i.val].fe.wf

/-- Every valid P register is legal (R26), the curve-equation clause apart. -/
def State.pointsOk (s : State) : Prop := ∀ i : Reg, s.p[i.val].valid = true → s.p[i.val].pt.wf

/-- R26's curve-equation clause where the spec guarantees it: prime moduli. -/
def State.curvesOk (s : State) : Prop :=
  ∀ i : Reg, s.p[i.val].valid = true → Nat.Prime s.p[i.val].pt.a.m.toNat → s.p[i.val].pt.onCurve

/-- The codes the block never writes (R266). -/
def ResultCode.neverProduced (c : ResultCode) : Bool :=
  c == .degenerateNonce || c == .checksumMismatch || c == .integerTooLarge

/-- The invariant of every step: legal registers, `BUF` in canonical form, a code that is produced, and
nonce state only inside a command in execution (R43). -/
structure State.Inv (s : State) : Prop where
  fields : s.fieldsOk
  points : s.pointsOk
  buffer : s.buf.wf
  code : s.status.code.neverProduced = false
  secrecy : s.nonce ≠ none → s.status.busy = true

/-- A safe step: it is never refused, and it faults only on a malformed bus access. -/
def State.safe (s : State) : Prop := ∃ t, step s = .next t

end Sys2Proof.Machine
end

