-- ==== Sys2Proof/Curve.lean ====
section
/-! DEFINITION. The reference the group law is held to: Mathlib's group of the points of a Weierstrass curve over a prime field, and when a point register's value stands for one of its points (42_point.md R150, R156, R159). The machine does not use it; statements do. -/

namespace Sys2Proof.Machine

/-- An element's value as an element of the ring of integers modulo `m`. -/
def Fe.toZ (m : Nat) (e : Fe) : ZMod m := (e.v.toNat : ZMod m)

/-- The curve `y^2 = x^3 + a*x + b` over the integers modulo `m` (R151). -/
def shortCurve (m : Nat) (a b : ZMod m) : WeierstrassCurve.Affine (ZMod m) :=
  { a₁ := 0, a₂ := 0, a₃ := 0, a₄ := a, a₆ := b }

/-- A point value stands for a point of the curve `(a, b)` over the integers modulo `m`: a legal value
of that curve, the identity for the identity, and otherwise the point of the same coordinates. -/
def Pt.Represents {m : Nat} {a b : ZMod m} (q : Pt) (g : (shortCurve m a b).Point) : Prop :=
  q.wf ∧ q.a.m.toNat = m ∧ q.a.toZ m = a ∧ q.b.toZ m = b ∧
  match g with
  | .zero => q.inf = true
  | .some x y _ => q.inf = false ∧ q.x.toZ m = x ∧ q.y.toZ m = y

end Sys2Proof.Machine
end

