-- ==== Sys2Proof/Machine/System.lean ====
section
/-! DEFINITION. A system of `NUM_ENGINES` instances (60_exceptions.md R278): each its own window, state and `irq`, nothing shared. -/

namespace Sys2Proof.Machine

/-- The instances of a system, by number. -/
structure System where
  engines : List State
  deriving DecidableEq, Repr

/-- The system after power-on: `NUM_ENGINES` instances, each in its reset state. -/
def System.reset : System := ⟨List.replicate Config.numEngines State.reset⟩

/-- The next event of instance `i`; an instance that is not there does nothing. -/
def System.stepAt (y : System) (i : Nat) : Host.Outcome System Fault Refusal :=
  match y.engines[i]? with
  | none => .next y
  | some s =>
    match step s with
    | .next t => .next ⟨y.engines.set i t⟩
    | .fault c => .fault c
    | .refused c => .refused c

end Sys2Proof.Machine
end

