-- ==== Sys2Proof/Claims.lean ====
section
/-! DEFINITION. The vocabulary of the statements: completions, register writes, field values and strings said as the spec says them, apart from the functions the machine is made of. -/

namespace Sys2Proof.Claims

open Sys2Proof.Machine

/-! ### A command's end (R101, R264) -/

/-- `t`, holding a command's scheduled writes, completed with the code `c`. -/
def completed (t : State) (c : ResultCode) : State :=
  { t with
    status := { t.status with
      busy := false
      done := true
      err := decide (c ≠ .ok ∧ c ≠ .invalidSignature)
      code := c }
    cmdcnt := t.cmdcnt + 1
    nonce := none }

/-- `X[i] <- v`. -/
def withX (s : State) (i : Reg) (v : W256) : State := { s with x := s.x.set i.val v }

/-- `F[i] <- {valid: 1, e}`. -/
def withF (s : State) (i : Reg) (e : Fe) : State := { s with f := s.f.set i.val ⟨true, e⟩ }

/-- `P[i] <- {valid: 1, q}; FLAGS.INF <- q.inf`. -/
def withP (s : State) (i : Reg) (q : Pt) : State :=
  { s with p := s.p.set i.val ⟨true, q⟩, flags := { s.flags with inf := q.inf } }

/-- `FLAGS.EQ <- v`. -/
def withEq (s : State) (v : Bool) : State := { s with flags := { s.flags with eq := v } }

/-- `FLAGS.VOK <- v`. -/
def withVok (s : State) (v : Bool) : State := { s with flags := { s.flags with vok := v } }

/-! ### Values -/

/-- `fe(z mod m, m)`, with the Euclidean remainder (R7, R13). -/
def fe (z : Int) (m : W256) : Fe := ⟨BitVec.ofInt 256 (z % (m.toNat : Int)), m⟩

/-- The identity of curve `(a, b)` (R154). -/
def identity (a b : Fe) : Pt := ⟨true, ⟨0, a.m⟩, ⟨0, a.m⟩, a, b⟩

/-- An element's value as an integer. -/
def int (e : Fe) : Int := (e.v.toNat : Int)

/-- R156's `x3` and `y3` for the slope `s` through `(x1, y1)` and a point of x-coordinate `x2`. -/
def third (q : Pt) (x2 s : Int) : Pt :=
  let x3 := s ^ 2 - int q.x - x2
  ⟨false, fe x3 q.a.m, fe (s * (int q.x - x3) - int q.y) q.a.m, q.a, q.b⟩

/-- R156 case 3: the chord through two points of different x-coordinate. -/
def chordPoint (q r : Pt) : Pt :=
  third q (int r.x) ((int r.y - int q.y) * (int r.x - int q.x) ^ (q.a.m.toNat - 2))

/-- R156 case 4: the tangent at a point. -/
def tangentPoint (q : Pt) : Pt :=
  third q (int q.x) ((3 * int q.x ^ 2 + int q.a) * (2 * int q.y) ^ (q.a.m.toNat - 2))

/-- What a point operation ends with: the point written, or the code raised. -/
def pointEnd (s : State) (d : Reg) : Except ResultCode Pt → State
  | .ok q => completed (withP s d q) .ok
  | .error c => completed s c

/-- R156 as one value. -/
def sum (q r : Pt) : Except ResultCode Pt :=
  if q.a ≠ r.a ∨ q.b ≠ r.b then .error .curveMismatch
  else if q.inf then .ok r
  else if r.inf then .ok q
  else if q.x = r.x ∧ q.y ≠ r.y then .ok (identity q.a q.b)
  else if q.x ≠ r.x then .ok (chordPoint q r)
  else if q.y.v = 0 then .ok (identity q.a q.b)
  else if 2 * int q.y % (q.a.m.toNat : Int) = 0 then .error .divisionByZero
  else .ok (tangentPoint q)

/-- R159's loop as a relation: `result`, `current`, `coef` and how the loop ends. -/
inductive DoubleAndAdd : Pt → Pt → Nat → Except ResultCode Pt → Prop where
  | stop (result current : Pt) : DoubleAndAdd result current 0 (.ok result)
  | addFails {result current : Pt} {coef : Nat} {c : ResultCode} :
      coef % 2 = 1 → sum result current = .error c → DoubleAndAdd result current coef (.error c)
  | doubleFails {result current : Pt} {coef : Nat} {r : Pt} {c : ResultCode} : coef ≠ 0 →
      (coef % 2 = 1 → sum result current = .ok r) → sum current current = .error c →
      DoubleAndAdd result current coef (.error c)
  | turn {result current next next' : Pt} {coef : Nat} {out : Except ResultCode Pt} : coef ≠ 0 →
      (if coef % 2 = 1 then sum result current = .ok next else next = result) →
      sum current current = .ok next' → DoubleAndAdd next next' (coef / 2) out →
      DoubleAndAdd result current coef out

/-! ### secp256k1 (R180 to R183) -/

/-- `fe(v, p)`. -/
def fp (v : Nat) : Fe := fe v (BitVec.ofNat 256 secpP)

/-- The affine point `(x, y)` over the field of `p` on `y^2 = x^3 + 7`. -/
def secpPoint (x y : Nat) : Pt := ⟨false, fp x, fp y, fp 0, fp 7⟩

/-- `y^2 = x^3 + 7` modulo `p`. -/
def secpEquation (x y : Nat) : Prop := y ^ 2 % secpP = (x ^ 3 + 7) % secpP

/-- A point register's value that names the curve of secp256k1. -/
def onSecp (q : Pt) : Prop := q.a = fp 0 ∧ q.b = fp 7

/-- A scalar in `[1, n - 1]` (R200). -/
def inRange (k : Nat) : Prop := 1 ≤ k ∧ k ≤ secpN - 1

/-- The group of secp256k1. -/
abbrev SecpGroup : Type := (shortCurve secpP 0 7).Point

/-- The element of the group that the generator `G` stands for. -/
def IsGenerator (g : SecpGroup) : Prop := Pt.Represents (secpPoint secpGx secpGy) g

/-! ### Strings -/

/-- The integer of the big-endian string `BUF[j .. j+k-1]` (R10). -/
def number (b : Memory) (j k : Nat) : Nat := (List.range k).foldl (fun acc i => 256 * acc + (b.read (j + i)).toNat) 0

/-- `BUF[j .. j+len(t)-1]` is the string `t`. -/
def holds (b : Memory) (j : Nat) (t : List Byte) : Prop := ∀ i, (h : i < t.length) → b.read (j + i) = t[i]

/-- Every byte from `j` on is as before. -/
def sameFrom (b b' : Memory) (j : Nat) : Prop := ∀ i, j ≤ i → b'.read i = b.read i

/-- The integer of a big-endian string (R10). -/
def bigEndian (t : List Byte) : Nat := t.foldl (fun acc c => 256 * acc + c.toNat) 0

/-- A DER INTEGER's content: the shortest big-endian string whose high bit is clear (R232). -/
def derInteger (v : Nat) (t : List Byte) : Prop :=
  bigEndian t = v ∧ ∃ c rest, t = c :: rest ∧ c.msb = false ∧ (c = 0 → ∃ c' rest', rest = c' :: rest' ∧ c'.msb = true)

/-- The DER frame around two INTEGER contents (R232, R233). -/
def derFrame (t r s : List Byte) : Prop :=
  r ≠ [] ∧ s ≠ [] ∧ r.length + s.length + 4 < 256 ∧
  t = [0x30, BitVec.ofNat 8 (r.length + s.length + 4), 0x02, BitVec.ofNat 8 r.length] ++ r
    ++ [0x02, BitVec.ofNat 8 s.length] ++ s

/-! ### Events -/

/-- One step in which the host reads the word at `off`: the word returned is `v`, and nothing else changes. -/
def reads (s : State) (off : BitVec 12) (v : W32) : Prop :=
  step { s with agenda := .read .w4 off :: s.agenda } = .next { s with lastRead := some v }

/-- One step in which the host writes `v` at `off` leaves `t`. -/
def writes (s : State) (off : BitVec 12) (v : W32) (t : State) : Prop :=
  step { s with agenda := .write .w4 off v :: s.agenda } = .next t

/-- `k` steps in a row, each answering a next state. -/
def steps : Nat → State → Host.Outcome State Fault Refusal
  | 0, s => .next s
  | k + 1, s =>
    match step s with
    | .next t => steps k t
    | .fault c => .fault c
    | .refused c => .refused c

/-- An outcome with the nonce generator's state dropped from its next state. -/
def forgetNonce : Host.Outcome State Fault Refusal → Host.Outcome State Fault Refusal
  | .next t => .next { t with nonce := none }
  | .fault c => .fault c
  | .refused c => .refused c

/-! ### What each command may write (R102 to R104, R32) -/

/-- The X registers a command may write. -/
def xDests : Instr → List Reg
  | .xmov d _ | .xldc d _ | .fget d _ | .fmod d _ | .keygen d _ => [d]
  | .sign d e _ _ | .derdec d e => [d, e]
  | _ => []

/-- The F registers a command may write. -/
def fDests : Instr → List Reg
  | .fset d _ _ | .fadd d _ _ | .fsub d _ _ | .fmul d _ _ | .fdiv d _ _ | .finv d _ | .fpow d _ _ _
  | .fmov d _ | .pgetx d _ | .pgety d _ => [d]
  | _ => []

/-- The P registers a command may write. -/
def pDests : Instr → List Reg
  | .pset d _ _ _ _ | .pinf d _ _ | .padd d _ _ | .pdbl d _ | .pneg d _ | .pmul d _ _ | .pmov d _
  | .gload d | .smul d _ _ | .liftx d _ _ | .pubkey d _ | .secdec d => [d]
  | .keygen _ e => [e]
  | _ => []

/-- The F registers a command reads. -/
def fSources : Instr → List Reg
  | .fget _ a | .fmod _ a | .finv _ a | .fpow _ a _ _ | .fmov _ a => [a]
  | .fadd _ a b | .fsub _ a b | .fmul _ a b | .fdiv _ a b | .feq a b | .pinf _ a b => [a, b]
  | .pset _ a b c e => [a, b, c, e]
  | _ => []

/-- The P registers a command reads. -/
def pSources : Instr → List Reg
  | .pgetx _ a | .pgety _ a | .pdbl _ a | .pneg _ a | .pmul _ a _ | .pmov _ a | .ptst a | .smul _ a _
  | .verify a _ _ _ | .secenc a _ => [a]
  | .padd _ a b | .peq a b => [a, b]
  | _ => []

/-- The commands that write `FLAGS.EQ` (R32). -/
def writesEq : Instr → Bool
  | .feq _ _ | .peq _ _ => true
  | _ => false

/-- The commands that write `FLAGS.INF` (R32). -/
def writesInf (i : Instr) : Bool :=
  match i with
  | .ptst _ => true
  | _ => !(pDests i).isEmpty

/-- The commands that write `BUF` and `LEN` (R230). -/
def writesBuf : Instr → Bool
  | .secenc _ _ | .derenc _ _ => true
  | _ => false

/-- The codes a decoded command may end with, besides `OK` (the "Result codes" of its rule). -/
def errorCodes : Instr → List ResultCode
  | .nop | .zeroize | .xmov _ _ | .xldc _ _ | .gload _ | .keygen _ _ => []
  | .fset _ _ _ | .pubkey _ _ | .sign _ _ _ _ | .derenc _ _ => [.outOfRange]
  | .fget _ _ | .fmod _ _ | .fpow _ _ _ _ | .feq _ _ | .fmov _ _ | .pneg _ _ | .peq _ _ | .pmov _ _ | .ptst _ =>
    [.emptyOperand]
  | .fadd _ _ _ | .fsub _ _ _ | .fmul _ _ _ | .pinf _ _ _ => [.emptyOperand, .fieldMismatch]
  | .fdiv _ _ _ => [.emptyOperand, .fieldMismatch, .divisionByZero]
  | .finv _ _ | .pdbl _ _ | .pmul _ _ _ => [.emptyOperand, .divisionByZero]
  | .pset _ _ _ _ _ => [.emptyOperand, .fieldMismatch, .notOnCurve]
  | .pgetx _ _ | .pgety _ _ => [.emptyOperand, .identityPoint]
  | .padd _ _ _ => [.emptyOperand, .curveMismatch, .divisionByZero]
  | .smul _ _ _ => [.emptyOperand, .curveMismatch]
  | .liftx _ _ _ => [.outOfRange, .notOnCurve]
  | .verify _ _ _ _ => [.emptyOperand, .curveMismatch, .identityPoint, .invalidSignature]
  | .secenc _ _ => [.emptyOperand, .curveMismatch, .identityPoint]
  | .secdec _ => [.malformedSec, .outOfRange, .notOnCurve]
  | .derdec _ _ => [.malformedDer]

/-- The commands that may stay in execution after an engine turn (R311). -/
def mayContinue : Instr → Bool
  | .sign _ _ _ _ | .keygen _ _ => true
  | _ => false

/-! ### The command word's fields (R80) -/

/-- `w[7:0]`. -/
def opc (w : W32) : Nat := w.toNat % 2 ^ 8

/-- `w[11:8]`. -/
def fieldD (w : W32) : Nat := w.toNat / 2 ^ 8 % 2 ^ 4

/-- `w[15:12]`. -/
def fieldA (w : W32) : Nat := w.toNat / 2 ^ 12 % 2 ^ 4

/-- `w[27:24]`. -/
def fieldE (w : W32) : Nat := w.toNat / 2 ^ 24 % 2 ^ 4

/-- The row of the opcode map a word selects: `(w AND mask) = match` (R85). -/
def selects (w : W32) (i : Instr) : Prop := w &&& i.matchMask.2 = i.matchMask.1

end Sys2Proof.Claims
end

