-- ==== Sys2Proof/Certificates/Slice0/Obligations.lean ====
section
/-! DEFINITION. The statements, from the spec's numbered rules: encoding, the bus and the step, the state, what every command keeps, and each command's result. -/

open Sys2Proof Sys2Proof.Machine Sys2Proof.Claims

/-! ### Encoding (30_encoding.md) -/

/-- Decoding the word of a command gives the command back, every operand at every value (R84, R86). -/
def Obligations.DecodeInvertsEncode : Prop := ∀ i : Instr, i.wellFormed = true → decode (encode i) = .ok i

/-- A word that decodes is the word of the command it decodes to, and that command is well formed (R84, R86). -/
def Obligations.EncodeInvertsDecode : Prop :=
  ∀ (w : W32) (i : Instr), decode w = .ok i → encode i = w ∧ i.wellFormed = true

/-- The decoder against the table's `match` and `mask` columns (R85), with checks 4 and 5 of R84 on top:
a word decodes only to a command whose row it selects; and a word that selects a row decodes to a
command of that row, or has `D = E` (SIGN, DERDEC) or `A > 6` (XLDC). -/
def Obligations.DecodeFollowsMatchAndMask : Prop :=
  ∀ (w : W32) (i : Instr),
    (decode w = .ok i → selects w i) ∧
    (selects w i →
      (∃ j, j.matchMask = i.matchMask ∧ decode w = .ok j) ∨
      (decode w = .error .sameDestination ∧ (opc w = 0x42 ∨ opc w = 0x53) ∧ fieldD w = fieldE w) ∨
      (decode w = .error .badSelector ∧ opc w = 0x03 ∧ 6 < fieldA w))

/-- Reserved and illegal words (R87): a reserved opcode, a word no row selects, `D = E` for SIGN or
DERDEC and a selector above 6 complete with `ILLEGAL_COMMAND` and write nothing else; the word 0 is NOP. -/
def Obligations.ReservedAndIllegalWords : Prop :=
  (∀ s : State, s.status.busy = true →
    ((0x04 ≤ opc s.cmd ∧ opc s.cmd ≤ 0x0F) ∨ (0x1B ≤ opc s.cmd ∧ opc s.cmd ≤ 0x1F) ∨
      (0x2B ≤ opc s.cmd ∧ opc s.cmd ≤ 0x2F) ∨ (0x33 ≤ opc s.cmd ∧ opc s.cmd ≤ 0x3F) ∨
      (0x44 ≤ opc s.cmd ∧ opc s.cmd ≤ 0x4F) ∨ (0x54 ≤ opc s.cmd ∧ opc s.cmd ≤ 0xFF) ∨
      (∀ i : Instr, ¬ selects s.cmd i) ∨
      ((opc s.cmd = 0x42 ∨ opc s.cmd = 0x53) ∧ fieldD s.cmd = fieldE s.cmd) ∨
      (opc s.cmd = 0x03 ∧ 6 < fieldA s.cmd)) →
    engineTurn s = .next (completed s .illegalCommand)) ∧
  (∀ w : W32, (∃ i, decode w = .ok i) ∨ (∃ r, decode w = .error r)) ∧
  decode 0x00000000#32 = .ok .nop

/-- Words written out from the spec's encodings decode to what they stand for (R85, R86). -/
def Obligations.SpecWordsDecode : Prop :=
  decode 0x00021315#32 = .ok (.fmul 3 1 2) ∧ decode 0x10020118#32 = .ok (.fpow 1 0 2 true) ∧
  decode 0x03010242#32 = .ok (.sign 2 3 0 1) ∧ decode 0x00000001#32 = .ok .zeroize ∧
  decode 0x00006F03#32 = .ok (.xldc 15 6) ∧ decode 0x0E321020#32 = .ok (.pset 0 1 2 3 14) ∧
  decode 0x10001032#32 = .ok (.liftx 0 1 true) ∧ decode 0x09870043#32 = .ok (.verify 0 7 8 9) ∧
  decode 0x10005050#32 = .ok (.secenc 5 true) ∧ decode 0x0B000A53#32 = .ok (.derdec 10 11)

/-! ### The step and the bus (20_memory.md, 40_control.md) -/

/-- A step runs the decoded command: when the engine's turn comes and a command is latched, the step is
exec of it, and an idle engine changes nothing (R84, R100, R101, R280). That an empty agenda gives the engine's turn is
the model's choice (log 1), and so is how a word is placed to be the next step's command, the `withFetchWord` clause (log 2). -/
def Obligations.StepRunsLatchedCommand : Prop :=
  (∀ (s : State) (i : Instr) (rest : List Event),
    s.agenda = .engine :: rest ∨ (s.agenda = [] ∧ rest = []) →
    (s.status.busy = true → decode s.cmd = .ok i → step s = exec i { s with agenda := rest }) ∧
    (s.status.busy = false → step s = .next { s with agenda := rest })) ∧
  (∀ (s : State) (w : W32) (i : Instr), decode w = .ok i →
    step (s.withFetchWord 32 w.toNat) =
      exec i { s with cmd := w, status := { s.status with busy := true, done := false }, nonce := none })

/-- What every well-formed read returns, and that a read changes nothing else (R36, R38, R53 to R55, R57, R62). -/
def Obligations.ReadsReturnTheWindow : Prop :=
  ∀ s : State,
    reads s 0x000 0x4D464145 ∧ reads s 0x004 0x00000001 ∧
    (∃ v, reads s 0x008 v ∧ ∀ k, k < 32 → v.getLsbD k = (k == 0 && s.ie)) ∧
    (∃ v, reads s 0x00C v ∧ v.getLsbD 0 = s.status.busy ∧ v.getLsbD 1 = s.status.done ∧
      v.getLsbD 2 = s.status.err ∧ v.getLsbD 3 = s.status.ign ∧
      (∀ k, k < 8 → v.getLsbD (8 + k) = s.status.code.value.getLsbD k) ∧
      ∀ k, (4 ≤ k ∧ k < 8) ∨ 16 ≤ k → v.getLsbD k = false) ∧
    reads s 0x010 s.cmd ∧
    (∃ v, reads s 0x014 v ∧ v.getLsbD 0 = s.flags.eq ∧ v.getLsbD 1 = s.flags.inf ∧ v.getLsbD 2 = s.flags.vok ∧
      v.getLsbD 3 = s.flags.nrt ∧ ∀ k, 4 ≤ k → v.getLsbD k = false) ∧
    reads s 0x018 s.cmdcnt ∧
    (∃ v, reads s 0x01C v ∧ (∀ i : Reg, v.getLsbD i.val = s.f[i.val].valid) ∧ ∀ k, 16 ≤ k → v.getLsbD k = false) ∧
    (∃ v, reads s 0x020 v ∧ (∀ i : Reg, v.getLsbD i.val = s.p[i.val].valid) ∧ ∀ k, 16 ≤ k → v.getLsbD k = false) ∧
    reads s 0x024 (BitVec.ofNat 32 s.len.toNat) ∧
    (∀ (i : Reg) (j : Fin 8) (off : BitVec 12), off.toNat = 0x100 + 32 * i.val + 4 * j.val →
      reads s off (s.x[i.val].extractLsb' (32 * j.val) 32)) ∧
    (∀ (k : Fin 32) (off : BitVec 12), off.toNat = 0x300 + 4 * k.val →
      ∃ v, reads s off v ∧ ∀ i, i < 4 → v.extractLsb' (8 * i) 8 = s.buf.read (4 * k.val + i)) ∧
    (∀ off : BitVec 12, off.toNat % 4 = 0 → (0x028 ≤ off.toNat ∧ off.toNat < 0x100) ∨ 0x380 ≤ off.toNat →
      reads s off 0)

/-- What a well-formed write does while the engine is idle: an X word, a `BUF` word and `LEN` store the
value and nothing else; read-only and reserved offsets ignore it, busy or not (R53, R54, R55, R57, R58). -/
def Obligations.IdleWritesStore : Prop :=
  (∀ (s : State) (v : W32), s.status.busy = false →
    (∀ (i : Reg) (j : Fin 8) (off : BitVec 12), off.toNat = 0x100 + 32 * i.val + 4 * j.val →
      ∃ u : W256, writes s off v (withX s i u) ∧ u.extractLsb' (32 * j.val) 32 = v ∧
        ∀ k : Fin 8, k ≠ j → u.extractLsb' (32 * k.val) 32 = s.x[i.val].extractLsb' (32 * k.val) 32) ∧
    (s.buf.wf → ∀ (k : Fin 32) (off : BitVec 12), off.toNat = 0x300 + 4 * k.val →
      ∃ b, writes s off v { s with buf := b } ∧ (∀ i, i < 4 → b.read (4 * k.val + i) = v.extractLsb' (8 * i) 8) ∧
        ∀ i, i < 4 * k.val ∨ 4 * k.val + 4 ≤ i → b.read i = s.buf.read i) ∧
    writes s 0x024 v { s with len := v.extractLsb' 0 8 }) ∧
  (∀ (s : State) (v : W32) (off : BitVec 12), off.toNat % 4 = 0 →
    off.toNat = 0x000 ∨ off.toNat = 0x004 ∨ (0x014 ≤ off.toNat ∧ off.toNat < 0x024) ∨
      (0x028 ≤ off.toNat ∧ off.toNat < 0x100) ∨ 0x380 ≤ off.toNat →
    writes s off v s)

/-- CMD (R35): a write while idle latches the word and starts the command; a write while busy is
ignored and sets IGN; a read returns the last accepted word; the reset value is 0. -/
def Obligations.CmdRegister : Prop :=
  (∀ (s : State) (w : W32), s.status.busy = false →
    writes s 0x010 w { s with cmd := w, status := { s.status with busy := true, done := false }, nonce := none }) ∧
  (∀ (s : State) (w : W32), s.status.busy = true →
    writes s 0x010 w { s with status := { s.status with ign := true } }) ∧
  (∀ s : State, reads s 0x010 s.cmd) ∧ State.reset.cmd = 0

/-- The busy window (R64): while busy a write to CMD, LEN, an X word or a `BUF` word only sets IGN, and
whatever well-formed access is made other than a reset, nothing but IE, DONE, IGN and the word read changes. -/
def Obligations.BusyWindow : Prop :=
  ∀ (s : State) (off : BitVec 12) (v : W32), s.status.busy = true → off.toNat % 4 = 0 →
    (off.toNat = 0x010 ∨ off.toNat = 0x024 ∨ (0x100 ≤ off.toNat ∧ off.toNat < 0x380) →
      writes s off v { s with status := { s.status with ign := true } }) ∧
    (¬ (off.toNat = 0x008 ∧ v.getLsbD 1 = true) →
      ∃ ie done ign, writes s off v { s with ie := ie, status := { s.status with done := done, ign := ign } }) ∧
    ∃ u, reads s off u

/-- CTRL and STATUS writes take effect busy or not (R33, R34, R302): IE is written and SRST resets, the
reset winning over IE; 1s written to DONE and IGN clear them and 0s leave them, and nothing else of STATUS changes. -/
def Obligations.ControlRegisterWrites : Prop :=
  ∀ (s : State) (v : W32),
    (v.getLsbD 1 = false → writes s 0x008 v { s with ie := v.getLsbD 0 }) ∧
    (v.getLsbD 1 = true → writes s 0x008 v
      { State.reset with entropy := s.entropy, agenda := s.agenda, lastRead := s.lastRead }) ∧
    writes s 0x00C v { s with status := { s.status with
      done := if v.getLsbD 1 then false else s.status.done
      ign := if v.getLsbD 3 then false else s.status.ign } }

/-- The interrupt line (R42, R269): it is IE and DONE; a completion raises it when IE is set, whatever
the code; a W1C of DONE, an acceptance and a reset lower it. -/
def Obligations.InterruptLine : Prop :=
  (∀ s : State, s.irq = true ↔ s.ie = true ∧ s.status.done = true) ∧
  (∀ (s t : State) (i : Instr), s.status.busy = true → exec i s = .next t → t.status.busy = false →
    t.irq = s.ie) ∧
  (∀ (s t : State) (v : W32), v.getLsbD 1 = true → writes s 0x00C v t → t.irq = false) ∧
  (∀ (s t : State) (w : W32), s.status.busy = false → writes s 0x010 w t → t.irq = false) ∧
  State.reset.irq = false

/-- A reset, hard or soft, at any time and whatever is running: every element of the block takes its
reset value and the command in execution is abandoned (R300, R301). -/
def Obligations.ResetAbandonsTheCommand : Prop :=
  ∀ (s : State) (v : W32), v.getLsbD 1 = true →
    let t := { State.reset with entropy := s.entropy, agenda := s.agenda, lastRead := s.lastRead }
    step { s with agenda := .hardReset :: s.agenda } = .next t ∧ writes s 0x008 v t

/-- An access that is not 4 bytes wide and 4-byte aligned is a fault of the host agent; every other access is answered (R52). -/
def Obligations.MalformedAccessFaults : Prop :=
  ∀ (s : State) (width : Width) (off : BitVec 12) (v : W32),
    (width ≠ .w4 ∨ off.toNat % 4 ≠ 0 →
      step { s with agenda := .read width off :: s.agenda } = .fault .busError ∧
      step { s with agenda := .write width off v :: s.agenda } = .fault .busError) ∧
    (width = .w4 ∧ off.toNat % 4 = 0 →
      (∃ t, step { s with agenda := .read width off :: s.agenda } = .next t) ∧
      ∃ t, step { s with agenda := .write width off v :: s.agenda } = .next t)

/-- The eight word writes of a 256-bit value, in any order while idle, leave the register at that value,
the eight reads give its words back, and the value is the sum of those words in place (R56). -/
def Obligations.EightWritesStoreValue : Prop :=
  ∀ (s : State) (i : Reg) (V : W256) (order : List (Fin 8)) (offs : Fin 8 → BitVec 12), s.status.busy = false →
    (∀ j, j ∈ order) → (∀ j, (offs j).toNat = 0x100 + 32 * i.val + 4 * j.val) →
    steps order.length { s with
      agenda := order.map (fun j => .write .w4 (offs j) (V.extractLsb' (32 * j.val) 32)) ++ s.agenda } =
        .next (withX s i V) ∧
    (∀ j, reads (withX s i V) (offs j) (V.extractLsb' (32 * j.val) 32)) ∧
    V.toNat = ((List.finRange 8).map fun j => (V.extractLsb' (32 * j.val) 32).toNat * 2 ^ (32 * j.val)).sum

/-- Nonce secrecy (R43, R204): no bus read and no interrupt depends on the nonce generator's state, no event but the
engine's turn lets it reach anything else, and a completed command and a reset leave none of it. -/
def Obligations.NonceNeverObservable : Prop :=
  (∀ (s : State) (n : Option NonceState) (l : Loc),
    ({ s with nonce := n } : State).busRead l = s.busRead l ∧ ({ s with nonce := n } : State).irq = s.irq) ∧
  (∀ (s : State) (n : Option NonceState) (ev : Event), ev ≠ .engine →
    forgetNonce (applyEvent ev { s with nonce := n }) = forgetNonce (applyEvent ev s)) ∧
  (∀ (s t : State) (i : Instr), s.status.busy = true → exec i s = .next t → t.status.busy = false → t.nonce = none) ∧
  (∀ s t : State, step { s with agenda := .hardReset :: s.agenda } = .next t → t.nonce = none)

/-- Engines of one system share nothing: a step of one leaves every other as it was, and is its own step (R278). -/
def Obligations.EnginesShareNothing : Prop :=
  ∀ (y : System) (i : Nat) (s t : State), y.engines[i]? = some s → step s = .next t →
    ∃ y', y.stepAt i = .next y' ∧ y'.engines[i]? = some t ∧
      ∀ j, j ≠ i → y'.engines[j]? = y.engines[j]?

/-! ### The state (10_state.md) -/

/-- After a reset every state element holds the value of R44's table, the constant ROM's constants among them. -/
def Obligations.ResetStateValues : Prop :=
  (∀ i : Reg, State.reset.x[i.val] = 0) ∧
  (∀ i : Reg, State.reset.f[i.val] = ⟨false, ⟨0, 0⟩⟩) ∧
  (∀ i : Reg, State.reset.p[i.val] = ⟨false, ⟨false, ⟨0, 0⟩, ⟨0, 0⟩, ⟨0, 0⟩, ⟨0, 0⟩⟩⟩) ∧
  (∀ j, j < 128 → State.reset.buf.read j = 0x00) ∧ State.reset.len = 0 ∧
  reads State.reset 0x014 0 ∧ reads State.reset 0x008 0 ∧ reads State.reset 0x00C 0 ∧ reads State.reset 0x010 0 ∧
  reads State.reset 0x01C 0 ∧ reads State.reset 0x020 0 ∧ reads State.reset 0x018 0 ∧
  reads State.reset 0x000 0x4D464145 ∧ reads State.reset 0x004 0x00000001 ∧
  (rom 0 = some 0xfffffffffffffffffffffffffffffffffffffffffffffffffffffffefffffc2f ∧
    rom 1 = some 0xfffffffffffffffffffffffffffffffebaaedce6af48a03bbfd25e8cd0364141 ∧
    rom 2 = some 0x79be667ef9dcbbac55a06295ce870b07029bfcdb2dce28d959f2815b16f81798 ∧
    rom 3 = some 0x483ada7726a3c4655da4fbfc0e1108a8fd17b448a68554199c47d08ffb10d4b8 ∧
    rom 4 = some 7 ∧ rom 5 = some 0 ∧ rom 6 = some 1) ∧
  State.reset.status.busy = false ∧ State.reset.irq = false

/-- The invariant holds at reset. -/
def Obligations.InvariantAtReset : Prop := State.reset.Inv ∧ State.reset.curvesOk

/-- Every step keeps the invariant: legal F and P registers (R23, R26), `BUF` in canonical form, a code
that is produced (R266), and nonce state only inside a command in execution (R43). -/
def Obligations.StepKeepsInvariant : Prop := ∀ s t : State, s.Inv → step s = .next t → t.Inv

/-- Every step keeps the points of prime moduli on their curves (R26). -/
def Obligations.StepKeepsPointsOnCurve : Prop :=
  ∀ s t : State, s.Inv → s.curvesOk → step s = .next t → t.curvesOk

/-! ### What every command does and keeps (40_control.md, 60_exceptions.md) -/

/-- Completion (R101, R263): every command answers a next state, which is a completion: CODE, ERR by its
class, BUSY 0, DONE 1, CMDCNT one more, IGN kept; only SIGN and KEYGEN may stay in execution, and then
no register, flag, `BUF` byte or STATUS field has changed. -/
def Obligations.EveryCommandCompletes : Prop :=
  ∀ (i : Instr) (s : State), ∃ t, exec i s = .next t ∧
    ((∃ u c, t = completed u c ∧ u.status = s.status ∧ u.cmdcnt = s.cmdcnt) ∨
     (mayContinue i = true ∧ t = { s with nonce := t.nonce, entropy := t.entropy }))

/-- Raise semantics (R262): a command that ends with an error code changes no register, `BUF` byte, `LEN`
or flag, except that VERIFY clears VOK; only its completion is recorded. -/
def Obligations.RaisedCommandWritesNothing : Prop :=
  ∀ (i : Instr) (s t : State), s.status.busy = true → exec i s = .next t → t.status.busy = false →
    t.status.err = true →
    t = completed (match i with | .verify _ _ _ _ => withVok s false | _ => s) t.status.code

/-- The registers a command leaves (R103, R104): every register of each file that is no destination of the
command is unchanged (ZEROIZE, which wipes them all, apart). -/
def Obligations.RegisterFrame : Prop :=
  ∀ (i : Instr) (s t : State), i ≠ .zeroize → exec i s = .next t → ∀ r : Reg,
    (r ∉ xDests i → t.x[r.val] = s.x[r.val]) ∧ (r ∉ fDests i → t.f[r.val] = s.f[r.val]) ∧
    (r ∉ pDests i → t.p[r.val] = s.p[r.val])

/-- The flags a command leaves (R32, R104): EQ only FEQ and PEQ write, INF the writers of P registers and
PTST, VOK VERIFY, NRT SIGN (and ZEROIZE clears all four); no raised error changes a flag but VERIFY's VOK. -/
def Obligations.FlagFrame : Prop :=
  ∀ (i : Instr) (s t : State), i ≠ .zeroize → exec i s = .next t →
    (writesEq i = false → t.flags.eq = s.flags.eq) ∧ (writesInf i = false → t.flags.inf = s.flags.inf) ∧
    ((∀ a b c e, i ≠ .verify a b c e) → t.flags.vok = s.flags.vok) ∧
    ((∀ d e a b, i ≠ .sign d e a b) → t.flags.nrt = s.flags.nrt) ∧
    (s.status.busy = true → t.status.busy = false → t.status.err = true →
      t.flags = { s.flags with vok := t.flags.vok })

/-- The rest a command leaves (R104, R106): every `BUF` byte and `LEN` (SECENC, DERENC and ZEROIZE apart),
CTRL, CMD, IGN, the events to come, the last word read, and (KEYGEN apart) the draws delivered. -/
def Obligations.BufferAndControlFrame : Prop :=
  ∀ (i : Instr) (s t : State), exec i s = .next t →
    (writesBuf i = false → i ≠ .zeroize → (∀ j, t.buf.read j = s.buf.read j) ∧ t.len = s.len) ∧
    t.ie = s.ie ∧ t.cmd = s.cmd ∧ t.status.ign = s.status.ign ∧ t.agenda = s.agenda ∧ t.lastRead = s.lastRead ∧
    ((∀ d e, i ≠ .keygen d e) → t.entropy = s.entropy)

/-- A command with an empty source register, F or P, ends with `EMPTY_OPERAND` (R24, R27); VERIFY clears VOK. -/
def Obligations.EmptyOperandRaised : Prop :=
  ∀ (i : Instr) (s : State),
    (∃ r ∈ fSources i, s.f[r.val].valid = false) ∨ (∃ r ∈ pSources i, s.p[r.val].valid = false) →
    exec i s = .next (completed (match i with | .verify _ _ _ _ => withVok s false | _ => s) .emptyOperand)

/-- The codes a command can end with are those its rule lists (R261, R263), on states that keep the invariant. -/
def Obligations.CodesProduced : Prop :=
  ∀ (i : Instr) (s t : State), i.wellFormed = true → s.Inv → s.status.busy = true → exec i s = .next t →
    t.status.busy = false → t.status.code = .ok ∨ t.status.code ∈ errorCodes i

/-! ### Control commands (40_control.md) -/

/-- NOP, ZEROIZE, XMOV and XLDC (R105 to R108). -/
def Obligations.ControlCommandResults : Prop :=
  ∀ (s : State) (d a : Reg),
    exec .nop s = .next (completed s .ok) ∧
    exec .zeroize s = .next (completed { s with
      x := Vector.replicate 16 0
      f := Vector.replicate 16 ⟨false, ⟨0, 0⟩⟩
      p := Vector.replicate 16 ⟨false, ⟨false, ⟨0, 0⟩, ⟨0, 0⟩, ⟨0, 0⟩, ⟨0, 0⟩⟩⟩
      buf := [], len := 0, flags := ⟨false, false, false, false⟩ } .ok) ∧
    (∀ j, Memory.read [] j = 0x00) ∧
    exec (.xmov d a) s = .next (completed (withX s d s.x[a.val]) .ok) ∧
    exec (.xldc d 0) s = .next (completed (withX s d
      0xfffffffffffffffffffffffffffffffffffffffffffffffffffffffefffffc2f) .ok) ∧
    exec (.xldc d 1) s = .next (completed (withX s d
      0xfffffffffffffffffffffffffffffffebaaedce6af48a03bbfd25e8cd0364141) .ok) ∧
    exec (.xldc d 2) s = .next (completed (withX s d
      0x79be667ef9dcbbac55a06295ce870b07029bfcdb2dce28d959f2815b16f81798) .ok) ∧
    exec (.xldc d 3) s = .next (completed (withX s d
      0x483ada7726a3c4655da4fbfc0e1108a8fd17b448a68554199c47d08ffb10d4b8) .ok) ∧
    exec (.xldc d 4) s = .next (completed (withX s d 7) .ok) ∧
    exec (.xldc d 5) s = .next (completed (withX s d 0) .ok) ∧
    exec (.xldc d 6) s = .next (completed (withX s d 1) .ok) ∧
    (6 < a.val → exec (.xldc d a) s = .next (completed s .illegalCommand))

/-! ### Field commands (41_field.md) -/

/-- FSET (R130): the element, or `OUT_OF_RANGE` when `m < 2` or `v >= m`. -/
def Obligations.FsetResult : Prop :=
  ∀ (s : State) (d a b : Reg),
    (2 ≤ s.x[b.val].toNat ∧ s.x[a.val].toNat < s.x[b.val].toNat →
      exec (.fset d a b) s = .next (completed (withF s d ⟨s.x[a.val], s.x[b.val]⟩) .ok)) ∧
    (s.x[b.val].toNat < 2 ∨ s.x[b.val].toNat ≤ s.x[a.val].toNat →
      exec (.fset d a b) s = .next (completed s .outOfRange))

/-- FGET, FMOD and FMOV copy a value, a modulus and an element (R131, R132, R140). -/
def Obligations.FieldCopies : Prop :=
  ∀ (s : State) (d a : Reg), s.f[a.val].valid = true →
    exec (.fget d a) s = .next (completed (withX s d s.f[a.val].fe.v) .ok) ∧
    exec (.fmod d a) s = .next (completed (withX s d s.f[a.val].fe.m) .ok) ∧
    exec (.fmov d a) s = .next (completed (withF s d s.f[a.val].fe) .ok)

/-- FADD, FSUB and FMUL (R122 to R124, R133 to R135): the exact sum, difference and product, reduced by the
Euclidean remainder of the common modulus; `FIELD_MISMATCH` on two moduli. -/
def Obligations.FieldSumDifferenceProduct : Prop :=
  ∀ (s : State) (d a b : Reg), s.f[a.val].valid = true → s.f[b.val].valid = true → 2 ≤ s.f[a.val].fe.m.toNat →
    let x := s.f[a.val].fe
    let y := s.f[b.val].fe
    (x.m = y.m →
      exec (.fadd d a b) s = .next (completed (withF s d (fe (int x + int y) x.m)) .ok) ∧
      exec (.fsub d a b) s = .next (completed (withF s d (fe (int x - int y) x.m)) .ok) ∧
      exec (.fmul d a b) s = .next (completed (withF s d (fe (int x * int y) x.m)) .ok)) ∧
    (x.m ≠ y.m →
      exec (.fadd d a b) s = .next (completed s .fieldMismatch) ∧
      exec (.fsub d a b) s = .next (completed s .fieldMismatch) ∧
      exec (.fmul d a b) s = .next (completed s .fieldMismatch))

/-- FDIV and FINV (R127, R128, R136, R137): `a * b^(m-2)` and `a^(m-2)`; `FIELD_MISMATCH` before
`DIVISION_BY_ZERO`, which is exactly a zero divisor. -/
def Obligations.FieldDivision : Prop :=
  ∀ (s : State) (d a b : Reg), s.f[a.val].valid = true → s.f[b.val].valid = true →
    2 ≤ s.f[a.val].fe.m.toNat →
    let x := s.f[a.val].fe
    let y := s.f[b.val].fe
    (x.m ≠ y.m → exec (.fdiv d a b) s = .next (completed s .fieldMismatch)) ∧
    (x.m = y.m → y.v = 0 → exec (.fdiv d a b) s = .next (completed s .divisionByZero)) ∧
    (x.m = y.m → y.v ≠ 0 →
      exec (.fdiv d a b) s = .next (completed (withF s d (fe (int x * int y ^ (x.m.toNat - 2)) x.m)) .ok)) ∧
    (x.v = 0 → exec (.finv d a) s = .next (completed s .divisionByZero)) ∧
    (x.v ≠ 0 → exec (.finv d a) s = .next (completed (withF s d (fe (int x ^ (x.m.toNat - 2)) x.m)) .ok))

/-- FPOW (R125, R138): `a^(e mod (m-1))` with the Euclidean remainder and `0^0 = 1`, the exponent unsigned
or two's complement; it never raises. -/
def Obligations.FpowResult : Prop :=
  ∀ (s : State) (d a b : Reg) (signed : Bool), s.f[a.val].valid = true → 2 ≤ s.f[a.val].fe.m.toNat →
    let x := s.f[a.val].fe
    let e : Int := if signed && 2 ^ 255 ≤ s.x[b.val].toNat then (s.x[b.val].toNat : Int) - 2 ^ 256
      else s.x[b.val].toNat
    exec (.fpow d a b signed) s =
      .next (completed (withF s d (fe (int x ^ (e % ((x.m.toNat : Int) - 1)).toNat) x.m)) .ok)

/-- FEQ and PEQ (R139, R152, R168): EQ is set exactly when the operands are equal, moduli and curves
included, and no mismatch is raised. -/
def Obligations.Comparisons : Prop :=
  ∀ (s : State) (a b : Reg),
    (s.f[a.val].valid = true → s.f[b.val].valid = true →
      exec (.feq a b) s = .next (completed (withEq s (decide (s.f[a.val].fe = s.f[b.val].fe))) .ok)) ∧
    (s.p[a.val].valid = true → s.p[b.val].valid = true → s.p[a.val].pt.wf → s.p[b.val].pt.wf →
      exec (.peq a b) s = .next (completed (withEq s (decide (s.p[a.val].pt = s.p[b.val].pt))) .ok))

/-- BP's field properties (R141): for a prime modulus a nonzero element times its power `m - 2` is 1, as
FPOW then FMUL; and adding then subtracting an element of the field gives the first back, as FADD then FSUB. -/
def Obligations.FieldProperties : Prop :=
  (∀ (s t u : State) (d d' a b : Reg), s.f[a.val].valid = true → s.f[a.val].fe.wf →
    Nat.Prime s.f[a.val].fe.m.toNat → s.f[a.val].fe.v ≠ 0 → s.x[b.val].toNat = s.f[a.val].fe.m.toNat - 2 → d ≠ a →
    exec (.fpow d a b false) s = .next t → exec (.fmul d' a d) t = .next u →
    u.f[d'.val] = ⟨true, ⟨1, s.f[a.val].fe.m⟩⟩) ∧
  (∀ (s t u : State) (d d' a b : Reg), s.f[a.val].valid = true → s.f[b.val].valid = true → s.f[a.val].fe.wf →
    s.f[b.val].fe.wf → s.f[a.val].fe.m = s.f[b.val].fe.m → d ≠ b →
    exec (.fadd d a b) s = .next t → exec (.fsub d' d b) t = .next u → u.f[d'.val] = s.f[a.val])

/-! ### Point commands (42_point.md) -/

/-- PSET (R151, R153, R160): the affine point, `FIELD_MISMATCH` unless the four moduli are one, `NOT_ON_CURVE`
unless the curve equation holds. -/
def Obligations.PsetResult : Prop :=
  ∀ (s : State) (d a b c e : Reg), (∀ r ∈ [a, b, c, e], s.f[r.val].valid = true) →
    let x := s.f[a.val].fe
    let y := s.f[b.val].fe
    let ca := s.f[c.val].fe
    let cb := s.f[e.val].fe
    let same := x.m = y.m ∧ x.m = ca.m ∧ x.m = cb.m
    let equation := int y ^ 2 % (x.m.toNat : Int) = (int x ^ 3 + int ca * int x + int cb) % (x.m.toNat : Int)
    (same → equation → exec (.pset d a b c e) s = .next (completed (withP s d ⟨false, x, y, ca, cb⟩) .ok)) ∧
    (same → ¬ equation → exec (.pset d a b c e) s = .next (completed s .notOnCurve)) ∧
    (¬ same → exec (.pset d a b c e) s = .next (completed s .fieldMismatch))

/-- PINF (R154, R161): the identity of the curve, or `FIELD_MISMATCH`. -/
def Obligations.PinfResult : Prop :=
  ∀ (s : State) (d a b : Reg), s.f[a.val].valid = true → s.f[b.val].valid = true →
    (s.f[a.val].fe.m = s.f[b.val].fe.m →
      exec (.pinf d a b) s = .next (completed (withP s d (identity s.f[a.val].fe s.f[b.val].fe)) .ok)) ∧
    (s.f[a.val].fe.m ≠ s.f[b.val].fe.m → exec (.pinf d a b) s = .next (completed s .fieldMismatch))

/-- PGETX, PGETY, PTST, PMOV and PNEG (R158, R162, R163, R166, R169, R170): a coordinate, or `IDENTITY_POINT` of the
identity; INF of the tested point; a copy; and, on legal points, the identity or the point of negated y. -/
def Obligations.PointReadsCopiesAndNegation : Prop :=
  ∀ (s : State) (d a : Reg), s.p[a.val].valid = true →
    let q := s.p[a.val].pt
    (q.inf = false →
      exec (.pgetx d a) s = .next (completed (withF s d q.x) .ok) ∧
      exec (.pgety d a) s = .next (completed (withF s d q.y) .ok)) ∧
    (q.inf = true →
      exec (.pgetx d a) s = .next (completed s .identityPoint) ∧
      exec (.pgety d a) s = .next (completed s .identityPoint)) ∧
    exec (.ptst a) s = .next (completed { s with flags := { s.flags with inf := q.inf } } .ok) ∧
    exec (.pmov d a) s = .next (completed (withP s d q) .ok) ∧
    (q.wf → exec (.pneg d a) s =
      .next (completed (withP s d (if q.inf then q else { q with y := fe (0 - int q.y) q.a.m })) .ok))

/-- PADD and PDBL (R155, R156, R164, R165): the four cases in order, chord and tangent formulas included, on
legal points; `CURVE_MISMATCH` first, `DIVISION_BY_ZERO` exactly where `2 * y = 0` modulo `m` with `y` not 0. -/
def Obligations.PointSumResult : Prop :=
  ∀ (s : State) (d a b : Reg), s.p[a.val].valid = true → s.p[b.val].valid = true →
    s.p[a.val].pt.wf → s.p[b.val].pt.wf →
    exec (.padd d a b) s = .next (pointEnd s d (sum s.p[a.val].pt s.p[b.val].pt)) ∧
    exec (.pdbl d a) s = .next (pointEnd s d (sum s.p[a.val].pt s.p[a.val].pt))

/-- PMUL (R159, R167): R159's double-and-add loop, its sequence of additions included, decides the result and
the error, over every modulus. -/
def Obligations.PmulFollowsTheLoop : Prop :=
  ∀ (s : State) (d a b : Reg), s.p[a.val].valid = true → s.p[a.val].pt.wf →
    ∃ out, DoubleAndAdd (identity s.p[a.val].pt.a s.p[a.val].pt.b) s.p[a.val].pt s.x[b.val].toNat out ∧
      exec (.pmul d a b) s = .next (pointEnd s d out)

/-- PADD, PDBL and PNEG are the group operations (R156, R158): over an odd prime modulus, on registers that stand
for points of Mathlib's curve, they write the point that stands for the sum, the double and the negative. -/
def Obligations.PointOperationsAreTheGroup : Prop :=
  ∀ (m : Nat) [Fact m.Prime] (A B : ZMod m) (g h : (shortCurve m A B).Point) (s : State) (d a b : Reg),
    m % 2 = 1 → s.p[a.val].valid = true → s.p[b.val].valid = true →
    s.p[a.val].pt.Represents g → s.p[b.val].pt.Represents h →
    (∃ q, q.Represents (g + h) ∧ exec (.padd d a b) s = .next (completed (withP s d q) .ok)) ∧
    (∃ q, q.Represents (g + g) ∧ exec (.pdbl d a) s = .next (completed (withP s d q) .ok)) ∧
    (∃ q, q.Represents (-g) ∧ exec (.pneg d a) s = .next (completed (withP s d q) .ok))

/-- PMUL is the scalar multiple (R159): over an odd prime modulus it writes the point that stands for `k` times the
register's, and raises nothing. -/
def Obligations.PmulIsTheScalarMultiple : Prop :=
  ∀ (m : Nat) [Fact m.Prime] (A B : ZMod m) (g : (shortCurve m A B).Point) (s : State) (d a b : Reg),
    m % 2 = 1 → s.p[a.val].valid = true → s.p[a.val].pt.Represents g →
    ∃ q, q.Represents (s.x[b.val].toNat • g) ∧ exec (.pmul d a b) s = .next (completed (withP s d q) .ok)

/-- BP's group properties (R171), for every odd prime modulus: the identity is a left and right identity of PADD, PADD
is commutative, and a point plus its negation is the identity. -/
def Obligations.GroupProperties : Prop :=
  ∀ (s : State) (d a b : Reg), s.p[a.val].valid = true → s.p[b.val].valid = true → s.p[a.val].pt.wf → s.p[b.val].pt.wf →
    Nat.Prime s.p[a.val].pt.a.m.toNat → s.p[a.val].pt.a.m.toNat % 2 = 1 →
    (s.p[b.val].pt = identity s.p[a.val].pt.a s.p[a.val].pt.b →
      exec (.padd d a b) s = .next (completed (withP s d s.p[a.val].pt) .ok) ∧
      exec (.padd d b a) s = .next (completed (withP s d s.p[a.val].pt) .ok)) ∧
    exec (.padd d a b) s = exec (.padd d b a) s ∧
    (∀ (t : State) (k : Reg), k ≠ a → exec (.pneg k a) s = .next t →
      exec (.padd d a k) t = .next (completed (withP t d (identity s.p[a.val].pt.a s.p[a.val].pt.b)) .ok))

/-! ### secp256k1 (43_secp256k1.md) -/

/-- GLOAD (R182, R183, R190): the generator, which satisfies the curve equation. -/
def Obligations.GloadResult : Prop :=
  (∀ (s : State) (d : Reg), exec (.gload d) s = .next (completed (withP s d
    (secpPoint 0x79be667ef9dcbbac55a06295ce870b07029bfcdb2dce28d959f2815b16f81798
      0x483ada7726a3c4655da4fbfc0e1108a8fd17b448a68554199c47d08ffb10d4b8)) .ok)) ∧
  secpEquation 0x79be667ef9dcbbac55a06295ce870b07029bfcdb2dce28d959f2815b16f81798
    0x483ada7726a3c4655da4fbfc0e1108a8fd17b448a68554199c47d08ffb10d4b8

/-- SMUL (R185, R191): `CURVE_MISMATCH` off secp256k1; else the multiple by the scalar reduced modulo `n`, in the
group; the scalars 0 and `n` give the identity and `n + 1` the point itself; and `n - 1` times the generator is its negative. -/
def Obligations.SmulResult : Prop :=
  ∀ [Fact secpP.Prime] (s : State) (d a b : Reg), s.p[a.val].valid = true →
    (¬ onSecp s.p[a.val].pt → exec (.smul d a b) s = .next (completed s .curveMismatch)) ∧
    (∀ g : SecpGroup, s.p[a.val].pt.Represents g →
      (∃ q, q.Represents ((s.x[b.val].toNat % secpN) • g) ∧
        exec (.smul d a b) s = .next (completed (withP s d q) .ok)) ∧
      (s.x[b.val].toNat = 0 ∨ s.x[b.val].toNat = secpN →
        exec (.smul d a b) s = .next (completed (withP s d (identity (fp 0) (fp 7))) .ok)) ∧
      (s.x[b.val].toNat = secpN + 1 → exec (.smul d a b) s = .next (completed (withP s d s.p[a.val].pt) .ok))) ∧
    (s.p[a.val].pt = secpPoint secpGx secpGy → s.x[b.val].toNat = secpN - 1 →
      exec (.smul d a b) s = .next (completed (withP s d (secpPoint secpGx (secpP - secpGy))) .ok))

/-- The generator has order `n` (R182): `n` times it is the identity and no smaller multiple is. -/
def Obligations.GeneratorHasOrderN : Prop :=
  ∀ [Fact secpP.Prime], (∃ g : SecpGroup, IsGenerator g) ∧
    ∀ g : SecpGroup, IsGenerator g → secpN • g = 0 ∧ ∀ k : Nat, inRange k → k • g ≠ 0

/-- LIFTX (R186, R192): `OUT_OF_RANGE` for `x >= p`; the point of the root of the parity asked for; `NOT_ON_CURVE`
exactly when there is no root. -/
def Obligations.LiftxResult : Prop :=
  ∀ (s : State) (d a : Reg) (odd : Bool),
    let x := s.x[a.val].toNat
    (secpP ≤ x → exec (.liftx d a odd) s = .next (completed s .outOfRange)) ∧
    (∀ y, x < secpP → y < secpP → secpEquation x y →
      ∃ y', y' < secpP ∧ secpEquation x y' ∧ y' % 2 = odd.toNat ∧
        exec (.liftx d a odd) s = .next (completed (withP s d (secpPoint x y')) .ok)) ∧
    (x < secpP → (∀ y, ¬ secpEquation x y) → exec (.liftx d a odd) s = .next (completed s .notOnCurve))

/-! ### ECDSA (44_ecdsa.md) -/

/-- KEYGEN (R208, R210): the first draw in `[1, n - 1]` becomes the secret and its multiple of the generator, never
the identity, the key; draws before it are discarded; with no such draw the command stays in execution (log 5). -/
def Obligations.KeygenResult : Prop :=
  ∀ [Fact secpP.Prime] (s : State) (d e : Reg) (g : SecpGroup), IsGenerator g →
    (∀ (bad rest : List W256) (c : W256), s.entropy = bad ++ c :: rest → (∀ v ∈ bad, ¬ inRange v.toNat) →
      inRange c.toNat →
      ∃ q, q.Represents (c.toNat • g) ∧ q.inf = false ∧
        exec (.keygen d e) s = .next (completed (withP (withX { s with entropy := rest } d c) e q) .ok)) ∧
    ((∀ v ∈ s.entropy, ¬ inRange v.toNat) → exec (.keygen d e) s = .next { s with entropy := [] })

/-- PUBKEY (R211): the secret's multiple of the generator, never the identity, or `OUT_OF_RANGE`. -/
def Obligations.PubkeyResult : Prop :=
  ∀ [Fact secpP.Prime] (s : State) (d a : Reg) (g : SecpGroup), IsGenerator g →
    (inRange s.x[a.val].toNat → ∃ q, q.Represents (s.x[a.val].toNat • g) ∧ q.inf = false ∧
      exec (.pubkey d a) s = .next (completed (withP s d q) .ok)) ∧
    (¬ inRange s.x[a.val].toNat → exec (.pubkey d a) s = .next (completed s .outOfRange))

/-- SIGN (R203, R205, R212) is the signing loop over the HMAC port's function, and over any function `H`: `OUT_OF_RANGE` for a secret outside `[1, n - 1]`; else one candidate of the nonce
sequence, from R203's start or from where the last one left it: out of range, or rejected with `r = 0` or `s = 0` (NRT
remembered), it leaves the command in execution with the generator moved on (log 4); accepted, it writes `r`, the low
`s` and NRT. -/
def Obligations.SignResult : Prop :=
  (∀ (s : State) (d e a b : Reg), exec (.sign d e a b) s = signWith Config.hmac d e a b s) ∧
  ∀ [Fact secpP.Prime] (H : Bytes32 → List Byte → Bytes32) (s : State) (d e a b : Reg) (g : SecpGroup),
    IsGenerator g → d ≠ e →
    let x := s.x[a.val].toNat
    let z := s.x[b.val].toNat
    let tail := be32 x ++ be32 (z % secpN)
    let V0 : Bytes32 := Vector.replicate 32 0x01
    let K0 : Bytes32 := Vector.replicate 32 0x00
    let K1 := H K0 (V0.toList ++ [0x00] ++ tail)
    let V1 := H K1 V0.toList
    let K2 := H K1 (V1.toList ++ [0x01] ++ tail)
    let start : NonceState := s.nonce.getD ⟨K2, H K2 V1.toList, false⟩
    let V := H start.key start.val.toList
    let k := bigEndian V.toList
    let K' := H start.key (V.toList ++ [0x00])
    (¬ inRange x → signWith H d e a b s = .next (completed s .outOfRange)) ∧
    (inRange x → ¬ inRange k →
      signWith H d e a b s = .next { s with nonce := some ⟨K', H K' V.toList, start.nrt⟩ }) ∧
    (inRange x → inRange k → ∃ R : Pt, R.Represents (k • g) ∧ R.inf = false ∧
      let r := R.x.v.toNat % secpN
      let w := (z + r * x) * (k ^ (secpN - 2) % secpN) % secpN
      (r = 0 ∨ w = 0 → signWith H d e a b s = .next { s with nonce := some ⟨K', H K' V.toList, true⟩ }) ∧
      (r ≠ 0 → w ≠ 0 →
        signWith H d e a b s = .next (completed
          { withX (withX s d (BitVec.ofNat 256 r)) e
              (BitVec.ofNat 256 (if (secpN - 1) / 2 < w then secpN - w else w)) with
            flags := { s.flags with nrt := start.nrt } } .ok)))

/-- SIGN, over any HMAC function, depends on the digest only modulo `n` (R203, R212): two congruent digests give the same signature, flag
and nonce state. -/
def Obligations.SignReadsDigestModuloN : Prop :=
  ∀ (H : Bytes32 → List Byte → Bytes32) (s : State) (d e a b : Reg) (z : W256), a ≠ b →
    z.toNat % secpN = s.x[b.val].toNat % secpN →
    ∃ t t', signWith H d e a b s = .next t ∧ signWith H d e a b (withX s b z) = .next t' ∧
      t'.status = t.status ∧ t'.nonce = t.nonce ∧ t'.flags = t.flags ∧ t'.cmdcnt = t.cmdcnt ∧
      (s.status.busy = true → t.status.busy = false → t.status.code = .ok →
        t'.x[d.val] = t.x[d.val] ∧ t'.x[e.val] = t.x[e.val])

/-- The signature SIGN writes, over any HMAC function, is in range and low (R200, R206, R214). -/
def Obligations.SignatureIsLow : Prop :=
  ∀ (H : Bytes32 → List Byte → Bytes32) (s t : State) (d e a b : Reg), s.status.busy = true →
    signWith H d e a b s = .next t →
    t.status.busy = false → t.status.code = .ok →
    inRange t.x[d.val].toNat ∧ 1 ≤ t.x[e.val].toNat ∧ t.x[e.val].toNat ≤ (secpN - 1) / 2

/-- VERIFY (R207, R213), its checks in order: `CURVE_MISMATCH`, `IDENTITY_POINT`, `INVALID_SIGNATURE` (no error), each
with VOK 0; else `OK` with VOK set exactly when `u * G + v * Q` is not the identity and its x-coordinate is `r` modulo `n`. -/
def Obligations.VerifyResult : Prop :=
  ∀ [Fact secpP.Prime] (s : State) (a b c e : Reg) (g : SecpGroup), IsGenerator g → s.p[a.val].valid = true →
    let q := s.p[a.val].pt
    let z := s.x[b.val].toNat
    let r := s.x[c.val].toNat
    let w := s.x[e.val].toNat
    (¬ onSecp q → exec (.verify a b c e) s = .next (completed (withVok s false) .curveMismatch)) ∧
    (onSecp q → q.inf = true → exec (.verify a b c e) s = .next (completed (withVok s false) .identityPoint)) ∧
    (onSecp q → q.inf = false → ¬ (inRange r ∧ inRange w) →
      exec (.verify a b c e) s = .next (completed (withVok s false) .invalidSignature)) ∧
    (∀ h : SecpGroup, q.Represents h → q.inf = false → inRange r → inRange w →
      ∃ R : Pt, R.Represents ((z * w ^ (secpN - 2) % secpN) • g + (r * w ^ (secpN - 2) % secpN) • h) ∧
        exec (.verify a b c e) s =
          .next (completed (withVok s (!R.inf && R.x.v.toNat % secpN == r)) .ok))

/-- The ECDSA round trip (R214): whatever the HMAC function, the signature a completed SIGN writes for a secret and a
digest verifies, against the key PUBKEY derives from that secret. -/
def Obligations.EcdsaRoundTrip : Prop :=
  ∀ (H : Bytes32 → List Byte → Bytes32) (s t : State) (d e a b : Reg), s.status.busy = true →
    signWith H d e a b s = .next t → t.status.busy = false → t.status.code = .ok →
    ∀ (u v : State) (p k z r w : Reg), u.x[k.val] = s.x[a.val] → exec (.pubkey p k) u = .next v →
    ∀ v' : State, v'.p[p.val] = v.p[p.val] → v'.x[z.val] = s.x[b.val] → v'.x[r.val] = t.x[d.val] →
      v'.x[w.val] = t.x[e.val] →
      exec (.verify p z r w) v' = .next (completed (withVok v' true) .ok)

/-! ### Encoding commands (45_encoding.md) -/

/-- SECENC (R230, R231, R235): `CURVE_MISMATCH`, then `IDENTITY_POINT`, else the 65-byte or 33-byte string with
big-endian coordinates in `BUF`, its length in `LEN`, and every byte from its end on as it was. -/
def Obligations.SecencResult : Prop :=
  ∀ (s : State) (a : Reg) (compressed : Bool), s.p[a.val].valid = true → s.buf.wf →
    let q := s.p[a.val].pt
    (¬ onSecp q → exec (.secenc a compressed) s = .next (completed s .curveMismatch)) ∧
    (onSecp q → q.inf = true → exec (.secenc a compressed) s = .next (completed s .identityPoint)) ∧
    (onSecp q → q.inf = false →
      ∃ b : Memory, b.wf ∧
        exec (.secenc a compressed) s =
          .next (completed { s with buf := b, len := if compressed then 33 else 65 } .ok) ∧
        b.read 0 = (if compressed then (if q.y.v.toNat % 2 = 0 then 0x02 else 0x03) else 0x04) ∧
        (∀ i, i < 32 → b.read (1 + i) = q.x.v.extractLsb' (8 * (31 - i)) 8) ∧
        (compressed = false → ∀ i, i < 32 → b.read (33 + i) = q.y.v.extractLsb' (8 * (31 - i)) 8) ∧
        sameFrom s.buf b (if compressed then 33 else 65))

/-- SECDEC (R236): the length and prefix checks, then `OUT_OF_RANGE`, then `NOT_ON_CURVE`, else the point the string names. -/
def Obligations.SecdecResult : Prop :=
  ∀ (s : State) (d : Reg),
    let L := s.len.toNat
    let c := s.buf.read 0
    let x := number s.buf 1 32
    let y := number s.buf 33 32
    (L = 0 ∨ 128 < L ∨ (c = 0x04 ∧ L ≠ 65) ∨ ((c = 0x02 ∨ c = 0x03) ∧ L ≠ 33) ∨ (c ≠ 0x02 ∧ c ≠ 0x03 ∧ c ≠ 0x04) →
      exec (.secdec d) s = .next (completed s .malformedSec)) ∧
    (c = 0x04 → L = 65 →
      (secpP ≤ x ∨ secpP ≤ y → exec (.secdec d) s = .next (completed s .outOfRange)) ∧
      (x < secpP → y < secpP → ¬ secpEquation x y → exec (.secdec d) s = .next (completed s .notOnCurve)) ∧
      (x < secpP → y < secpP → secpEquation x y →
        exec (.secdec d) s = .next (completed (withP s d (secpPoint x y)) .ok))) ∧
    (c = 0x02 ∨ c = 0x03 → L = 33 →
      (secpP ≤ x → exec (.secdec d) s = .next (completed s .outOfRange)) ∧
      (x < secpP → (∀ y', ¬ secpEquation x y') → exec (.secdec d) s = .next (completed s .notOnCurve)) ∧
      (∀ y', x < secpP → y' < secpP → secpEquation x y' →
        ∃ y'', y'' < secpP ∧ secpEquation x y'' ∧ (y'' % 2 = 1 ↔ c = 0x03) ∧
          exec (.secdec d) s = .next (completed (withP s d (secpPoint x y'')) .ok)))

/-- DERENC (R230, R232, R237): `OUT_OF_RANGE` outside `[1, n - 1]`, else the DER string of the two canonical INTEGERs,
8 to 72 bytes, in `BUF`, its length in `LEN`, and every byte from its end on as it was. -/
def Obligations.DerencResult : Prop :=
  ∀ (s : State) (a b : Reg), s.buf.wf →
    let r := s.x[a.val].toNat
    let w := s.x[b.val].toNat
    (¬ (inRange r ∧ inRange w) → exec (.derenc a b) s = .next (completed s .outOfRange)) ∧
    (inRange r → inRange w →
      ∃ (m : Memory) (t R W : List Byte), derInteger r R ∧ derInteger w W ∧ derFrame t R W ∧
        8 ≤ t.length ∧ t.length ≤ 72 ∧ m.wf ∧
        exec (.derenc a b) s = .next (completed { s with buf := m, len := BitVec.ofNat 8 t.length } .ok) ∧
        holds m 0 t ∧ sameFrom s.buf m t.length)

/-- DERDEC (R233, R238): a string of `LEN` bytes that is the DER frame of two INTEGERs below `2^256` gives their
values, minimal or not and in range or not; any other string, and `LEN > 128`, is `MALFORMED_DER`. -/
def Obligations.DerdecResult : Prop :=
  ∀ (s : State) (d e : Reg), d ≠ e →
    (∀ t R W : List Byte, t.length = s.len.toNat → t.length ≤ 128 → holds s.buf 0 t → derFrame t R W →
      bigEndian R < 2 ^ 256 → bigEndian W < 2 ^ 256 →
      exec (.derdec d e) s = .next (completed
        (withX (withX s d (BitVec.ofNat 256 (bigEndian R))) e (BitVec.ofNat 256 (bigEndian W))) .ok)) ∧
    ((128 < s.len.toNat ∨ ¬ ∃ t R W : List Byte, t.length = s.len.toNat ∧ holds s.buf 0 t ∧ derFrame t R W ∧
        bigEndian R < 2 ^ 256 ∧ bigEndian W < 2 ^ 256) →
      exec (.derdec d e) s = .next (completed s .malformedDer))

/-- The serialization round trips (R239): SECENC, in both forms, then SECDEC gives back every affine secp256k1 point;
DERENC then DERDEC gives back every `r` and `s` in `[1, n - 1]`. -/
def Obligations.SerializationRoundTrips : Prop :=
  (∀ (s t : State) (a d : Reg) (compressed : Bool), s.p[a.val].valid = true → s.p[a.val].pt.wf →
    s.p[a.val].pt.onCurve → onSecp s.p[a.val].pt → s.p[a.val].pt.inf = false → s.buf.wf →
    exec (.secenc a compressed) s = .next t →
    exec (.secdec d) t = .next (completed (withP t d s.p[a.val].pt) .ok)) ∧
  (∀ (s t : State) (a b d e : Reg), inRange s.x[a.val].toNat → inRange s.x[b.val].toNat → d ≠ e → s.buf.wf →
    exec (.derenc a b) s = .next t →
    exec (.derdec d e) t = .next (completed (withX (withX t d s.x[a.val]) e s.x[b.val]) .ok))
end

