-- ==== Sys2Proof/Laws/Bytes.lean ====
section
/-! SUPPORT. Byte strings and word slices: each conversion undoes the other. -/

namespace Sys2Proof.Machine

/-! ### Big-endian strings (R10) -/

@[simp] theorem be_nil : be [] = 0 := rfl

theorem foldl_be (s : List Byte) (acc : Nat) :
    s.foldl (fun acc c => acc * 256 + c.toNat) acc = acc * 256 ^ s.length + be s := by
  induction s generalizing acc with
  | nil => simp
  | cons c rest ih =>
    rw [be, List.foldl_cons, List.foldl_cons, ih, ih (0 * 256 + c.toNat), List.length_cons]
    ring

theorem be_append (s t : List Byte) : be (s ++ t) = be s * 256 ^ t.length + be t := by
  rw [be, List.foldl_append, foldl_be]
  rfl

theorem be_cons (c : Byte) (t : List Byte) : be (c :: t) = c.toNat * 256 ^ t.length + be t := by
  simpa [be] using foldl_be t c.toNat

theorem be_lt (s : List Byte) : be s < 256 ^ s.length := by
  induction s with
  | nil => simp
  | cons c rest ih =>
    have hc : c.toNat < 256 := c.isLt
    rw [be_cons, List.length_cons, pow_succ]
    calc c.toNat * 256 ^ rest.length + be rest
        < c.toNat * 256 ^ rest.length + 1 * 256 ^ rest.length := by omega
      _ = (c.toNat + 1) * 256 ^ rest.length := by ring
      _ ≤ 256 * 256 ^ rest.length := Nat.mul_le_mul_right _ hc
      _ = 256 ^ rest.length * 256 := by ring

@[simp] theorem length_beBytes (n v : Nat) : (beBytes n v).length = n := by
  induction n generalizing v with
  | zero => rfl
  | succ n ih => simp [beBytes, ih]

theorem be_beBytes (n v : Nat) : be (beBytes n v) = v % 256 ^ n := by
  induction n generalizing v with
  | zero => simp [beBytes, Nat.mod_one]
  | succ n ih =>
    have h : v % 256 ^ (n + 1) = v % 256 + 256 * (v / 256 % 256 ^ n) := by
      rw [pow_succ, Nat.mul_comm, Nat.mod_mul]
    rw [beBytes, be_append, ih, h]
    simp only [List.length_singleton, be_cons, List.length_nil, pow_zero, be_nil, BitVec.toNat_ofNat]
    omega

/-- The `i`-th byte, most significant first. -/
theorem getElem?_beBytes (n v : Nat) {i : Nat} (hi : i < n) :
    (beBytes n v)[i]? = some (BitVec.ofNat 8 (v / 256 ^ (n - 1 - i))) := by
  induction n generalizing v with
  | zero => omega
  | succ n ih =>
    rw [beBytes]
    by_cases h : i < n
    · rw [List.getElem?_append_left (by simpa using h), ih _ h, Nat.div_div_eq_div_mul, ← pow_succ',
        show n - 1 - i + 1 = n + 1 - 1 - i by omega]
    · have e : i = n := by omega
      rw [e, List.getElem?_append_right (by simp)]
      simp

/-- The bytes of a 256-bit value's big-endian string are its slices. -/
theorem getElem?_be32 (v : W256) {i : Nat} (hi : i < 32) :
    (be32 v.toNat)[i]? = some (v.extractLsb' (8 * (31 - i)) 8) := by
  rw [be32, getElem?_beBytes 32 _ hi]
  congr 1
  apply BitVec.eq_of_toNat_eq
  rw [BitVec.toNat_ofNat, BitVec.extractLsb'_toNat, Nat.shiftRight_eq_div_pow, pow_mul]
  norm_num

@[simp] theorem length_be32 (v : Nat) : (be32 v).length = 32 := length_beBytes 32 v

theorem be_be32 {v : Nat} (h : v < 2 ^ 256) : be (be32 v) = v := by
  rw [be32, be_beBytes, Nat.mod_eq_of_lt]
  calc v < 2 ^ 256 := h
    _ = 256 ^ 32 := by norm_num

/-- A string of `n` bytes is the `n`-byte string of its integer. -/
theorem beBytes_be (s : List Byte) : beBytes s.length (be s) = s := by
  induction s using List.reverseRecOn with
  | nil => rfl
  | append_singleton t c ih =>
    have hc : c.toNat < 256 := c.isLt
    have h1 : be (t ++ [c]) = be t * 256 + c.toNat := by simp [be_append, be_cons]
    have h2 : (be t * 256 + c.toNat) / 256 = be t := by omega
    rw [List.length_append, List.length_singleton, beBytes, h1, h2, ih]
    congr 1
    simp only [List.cons.injEq, and_true]
    apply BitVec.eq_of_toNat_eq
    simp only [BitVec.toNat_ofNat]
    omega

/-- Leading zero bytes do not change the integer. -/
theorem be_dropWhile_zero (s : List Byte) : be (s.dropWhile (· == 0)) = be s := by
  induction s with
  | nil => rfl
  | cons c rest ih =>
    rw [List.dropWhile_cons]
    split
    · rename_i h
      have hc : c = 0 := by simpa using h
      rw [ih, be_cons, hc]
      simp
    · rfl

theorem be_minbe {v : Nat} (h : v < 2 ^ 256) : be (minbe v) = v := by
  rw [minbe, be_dropWhile_zero, be_be32 h]

theorem length_minbe_le (v : Nat) : (minbe v).length ≤ 32 := by
  have := (List.dropWhile_sublist (fun c : Byte => c == 0) (l := be32 v)).length_le
  simpa [minbe] using this

/-- What `dropWhile` leaves begins with an element the test refuses. -/
theorem dropWhile_head {α : Type} {test : α → Bool} {l rest : List α} {c : α}
    (h : l.dropWhile test = c :: rest) : test c = false := by
  induction l with
  | nil => simp at h
  | cons d l ih =>
    rw [List.dropWhile_cons] at h
    split at h
    · exact ih h
    · rename_i hd
      rw [List.cons.injEq] at h
      simpa [← h.1] using hd

/-- `minbe` has no leading zero byte (R10). -/
theorem minbe_head {v : Nat} {c : Byte} {rest : List Byte} (h : minbe v = c :: rest) : c ≠ 0 := by
  rw [minbe] at h
  simpa using dropWhile_head h

theorem minbe_ne_nil {v : Nat} (h0 : 1 ≤ v) (h : v < 2 ^ 256) : minbe v ≠ [] := by
  intro hn
  have hv := be_minbe h
  rw [hn, be_nil] at hv
  omega

/-! ### Slices of words (R55, R57) -/

/-- The bits of the slice mask. -/
theorem getLsbD_sliceMask (i : Nat) :
    ((BitVec.allOnes 32).setWidth 256).getLsbD i = decide (i < 32) := by
  rw [BitVec.getLsbD_setWidth, BitVec.getLsbD_allOnes]
  by_cases h : i < 32 <;> simp [h]
  omega

theorem getLsbD_setWord (v : W256) (j : Fin 8) (w : W32) (i : Nat) (hi : i < 256) :
    (setWord v j w).getLsbD i =
      if 32 * j.val ≤ i ∧ i < 32 * j.val + 32 then w.getLsbD (i - 32 * j.val) else v.getLsbD i := by
  rw [setWord, BitVec.getLsbD_or, BitVec.getLsbD_and, BitVec.getLsbD_not, BitVec.getLsbD_shiftLeft,
    BitVec.getLsbD_shiftLeft, getLsbD_sliceMask, BitVec.getLsbD_setWidth]
  by_cases h1 : i < 32 * j.val
  · have h2 : ¬ (32 * j.val ≤ i ∧ i < 32 * j.val + 32) := by omega
    simp [h1, h2, hi]
  · by_cases h3 : i < 32 * j.val + 32
    · have h2 : 32 * j.val ≤ i ∧ i < 32 * j.val + 32 := by omega
      have h4 : i - 32 * j.val < 32 := by omega
      have h5 : i - 32 * j.val < 256 := by omega
      simp [h1, h2, h4, h5, hi]
    · have h2 : ¬ (32 * j.val ≤ i ∧ i < 32 * j.val + 32) := by omega
      have h4 : ¬ i - 32 * j.val < 32 := by omega
      have h6 : w.getLsbD (i - 32 * j.val) = false := BitVec.getLsbD_of_ge _ _ (by omega)
      simp [h1, h2, h4, h6, hi]

theorem getLsbD_wordOf (v : W256) (j : Fin 8) (i : Nat) (hi : i < 32) :
    (wordOf v j).getLsbD i = v.getLsbD (32 * j.val + i) := by
  simp [wordOf, hi]

/-- A slice reads back as the word just stored. -/
theorem wordOf_setWord (v : W256) (j : Fin 8) (w : W32) : wordOf (setWord v j w) j = w := by
  apply BitVec.eq_of_getLsbD_eq
  intro i hi
  rw [getLsbD_wordOf _ _ _ hi, getLsbD_setWord _ _ _ _ (by omega), if_pos (by omega)]
  congr 1
  omega

/-- The other 224 bits are unchanged. -/
theorem wordOf_setWord_ne (v : W256) {j k : Fin 8} (h : j ≠ k) (w : W32) :
    wordOf (setWord v j w) k = wordOf v k := by
  have hjk : j.val ≠ k.val := fun h' => h (Fin.ext h')
  apply BitVec.eq_of_getLsbD_eq
  intro i hi
  rw [getLsbD_wordOf _ _ _ hi, getLsbD_wordOf _ _ _ hi, getLsbD_setWord _ _ _ _ (by omega),
    if_neg (by omega)]

/-- A 256-bit value is its eight words. -/
theorem eq_of_wordOf {v u : W256} (h : ∀ j, wordOf v j = wordOf u j) : v = u := by
  apply BitVec.eq_of_getLsbD_eq
  intro i hi
  have hw := congrArg (fun w : W32 => w.getLsbD (i % 32)) (h ⟨i / 32, by omega⟩)
  have e : 32 * (i / 32) + i % 32 = i := Nat.div_add_mod i 32
  simpa only [getLsbD_wordOf _ _ _ (Nat.mod_lt i (by decide : 32 > 0)), e] using hw

theorem getLsbD_byteOf (w : W32) (k i : Nat) (hi : i < 8) : (byteOf w k).getLsbD i = w.getLsbD (8 * k + i) := by
  simp [byteOf, hi]

/-- The bits of four packed bytes. -/
theorem getLsbD_packWord (b0 b1 b2 b3 : Byte) (i : Nat) (hi : i < 32) :
    (packWord b0 b1 b2 b3).getLsbD i =
      if i < 8 then b0.getLsbD i else if i < 16 then b1.getLsbD (i - 8)
      else if i < 24 then b2.getLsbD (i - 16) else b3.getLsbD (i - 24) := by
  have big : ∀ (b : Byte) (k : Nat), 8 ≤ k → b.getLsbD k = false := fun b k hk => BitVec.getLsbD_of_ge _ _ hk
  simp only [packWord, BitVec.getLsbD_or, BitVec.getLsbD_shiftLeft, BitVec.getLsbD_setWidth]
  rcases (by omega : i < 8 ∨ (8 ≤ i ∧ i < 16) ∨ (16 ≤ i ∧ i < 24) ∨ 24 ≤ i) with h | h | h | h
  · have h1 : i < 16 := by omega
    have h2 : i < 24 := by omega
    simp [hi, h, h1, h2]
  · have h1 : ¬ i < 8 := by omega
    have h2 : i < 24 := by omega
    have h3 : i - 8 < 32 := by omega
    simp [hi, h, h1, h2, h3]
  · have h1 : ¬ i < 8 := by omega
    have h2 : ¬ i < 16 := by omega
    have h3 : i - 16 < 32 := by omega
    simp [hi, h, h1, h2, h3, big b0 i (by omega), big b1 (i - 8) (by omega)]
  · have h1 : ¬ i < 8 := by omega
    have h2 : ¬ i < 16 := by omega
    have h4 : ¬ i < 24 := by omega
    have h3 : i - 24 < 32 := by omega
    simp [hi, h1, h2, h3, h4, big b0 i (by omega), big b1 (i - 8) (by omega), big b2 (i - 16) (by omega)]

/-- Packing the bytes of a bus word gives it back. -/
theorem packWord_bytes (w : W32) : packWord (byteOf w 0) (byteOf w 1) (byteOf w 2) (byteOf w 3) = w := by
  apply BitVec.eq_of_getLsbD_eq
  intro i hi
  rw [getLsbD_packWord _ _ _ _ _ hi]
  split
  · rw [getLsbD_byteOf _ _ _ (by omega)]
    congr 1
    omega
  · split
    · rw [getLsbD_byteOf _ _ _ (by omega)]
      congr 1
      omega
    · split
      · rw [getLsbD_byteOf _ _ _ (by omega)]
        congr 1
        omega
      · rw [getLsbD_byteOf _ _ _ (by omega)]
        congr 1
        omega

end Sys2Proof.Machine
end

