-- ==== Sys2Proof/Laws/State.lean ====
section
/-! SUPPORT. One lemma per field per update of the state, so that no proof unfolds a record update. -/

namespace Sys2Proof.Machine

/-! ### State.setX -/

@[simp] theorem State.setX_x (s : State) (i : Reg) (v : W256) : (s.setX i v).x = s.x.set i.val v := rfl
@[simp] theorem State.setX_f (s : State) (i : Reg) (v : W256) : (s.setX i v).f = s.f := rfl
@[simp] theorem State.setX_p (s : State) (i : Reg) (v : W256) : (s.setX i v).p = s.p := rfl
@[simp] theorem State.setX_buf (s : State) (i : Reg) (v : W256) : (s.setX i v).buf = s.buf := rfl
@[simp] theorem State.setX_len (s : State) (i : Reg) (v : W256) : (s.setX i v).len = s.len := rfl
@[simp] theorem State.setX_flags (s : State) (i : Reg) (v : W256) : (s.setX i v).flags = s.flags := rfl
@[simp] theorem State.setX_ie (s : State) (i : Reg) (v : W256) : (s.setX i v).ie = s.ie := rfl
@[simp] theorem State.setX_status (s : State) (i : Reg) (v : W256) : (s.setX i v).status = s.status := rfl
@[simp] theorem State.setX_cmd (s : State) (i : Reg) (v : W256) : (s.setX i v).cmd = s.cmd := rfl
@[simp] theorem State.setX_cmdcnt (s : State) (i : Reg) (v : W256) : (s.setX i v).cmdcnt = s.cmdcnt := rfl
@[simp] theorem State.setX_nonce (s : State) (i : Reg) (v : W256) : (s.setX i v).nonce = s.nonce := rfl
@[simp] theorem State.setX_entropy (s : State) (i : Reg) (v : W256) : (s.setX i v).entropy = s.entropy := rfl
@[simp] theorem State.setX_agenda (s : State) (i : Reg) (v : W256) : (s.setX i v).agenda = s.agenda := rfl
@[simp] theorem State.setX_lastRead (s : State) (i : Reg) (v : W256) : (s.setX i v).lastRead = s.lastRead := rfl

/-! ### State.setF -/

@[simp] theorem State.setF_x (s : State) (i : Reg) (e : Fe) : (s.setF i e).x = s.x := rfl
@[simp] theorem State.setF_f (s : State) (i : Reg) (e : Fe) : (s.setF i e).f = s.f.set i.val ⟨true, e⟩ := rfl
@[simp] theorem State.setF_p (s : State) (i : Reg) (e : Fe) : (s.setF i e).p = s.p := rfl
@[simp] theorem State.setF_buf (s : State) (i : Reg) (e : Fe) : (s.setF i e).buf = s.buf := rfl
@[simp] theorem State.setF_len (s : State) (i : Reg) (e : Fe) : (s.setF i e).len = s.len := rfl
@[simp] theorem State.setF_flags (s : State) (i : Reg) (e : Fe) : (s.setF i e).flags = s.flags := rfl
@[simp] theorem State.setF_ie (s : State) (i : Reg) (e : Fe) : (s.setF i e).ie = s.ie := rfl
@[simp] theorem State.setF_status (s : State) (i : Reg) (e : Fe) : (s.setF i e).status = s.status := rfl
@[simp] theorem State.setF_cmd (s : State) (i : Reg) (e : Fe) : (s.setF i e).cmd = s.cmd := rfl
@[simp] theorem State.setF_cmdcnt (s : State) (i : Reg) (e : Fe) : (s.setF i e).cmdcnt = s.cmdcnt := rfl
@[simp] theorem State.setF_nonce (s : State) (i : Reg) (e : Fe) : (s.setF i e).nonce = s.nonce := rfl
@[simp] theorem State.setF_entropy (s : State) (i : Reg) (e : Fe) : (s.setF i e).entropy = s.entropy := rfl
@[simp] theorem State.setF_agenda (s : State) (i : Reg) (e : Fe) : (s.setF i e).agenda = s.agenda := rfl
@[simp] theorem State.setF_lastRead (s : State) (i : Reg) (e : Fe) : (s.setF i e).lastRead = s.lastRead := rfl

/-! ### State.setP -/

@[simp] theorem State.setP_x (s : State) (i : Reg) (q : Pt) : (s.setP i q).x = s.x := rfl
@[simp] theorem State.setP_f (s : State) (i : Reg) (q : Pt) : (s.setP i q).f = s.f := rfl
@[simp] theorem State.setP_p (s : State) (i : Reg) (q : Pt) : (s.setP i q).p = s.p.set i.val ⟨true, q⟩ := rfl
@[simp] theorem State.setP_buf (s : State) (i : Reg) (q : Pt) : (s.setP i q).buf = s.buf := rfl
@[simp] theorem State.setP_len (s : State) (i : Reg) (q : Pt) : (s.setP i q).len = s.len := rfl
@[simp] theorem State.setP_flags (s : State) (i : Reg) (q : Pt) : (s.setP i q).flags = s.flags := rfl
@[simp] theorem State.setP_ie (s : State) (i : Reg) (q : Pt) : (s.setP i q).ie = s.ie := rfl
@[simp] theorem State.setP_status (s : State) (i : Reg) (q : Pt) : (s.setP i q).status = s.status := rfl
@[simp] theorem State.setP_cmd (s : State) (i : Reg) (q : Pt) : (s.setP i q).cmd = s.cmd := rfl
@[simp] theorem State.setP_cmdcnt (s : State) (i : Reg) (q : Pt) : (s.setP i q).cmdcnt = s.cmdcnt := rfl
@[simp] theorem State.setP_nonce (s : State) (i : Reg) (q : Pt) : (s.setP i q).nonce = s.nonce := rfl
@[simp] theorem State.setP_entropy (s : State) (i : Reg) (q : Pt) : (s.setP i q).entropy = s.entropy := rfl
@[simp] theorem State.setP_agenda (s : State) (i : Reg) (q : Pt) : (s.setP i q).agenda = s.agenda := rfl
@[simp] theorem State.setP_lastRead (s : State) (i : Reg) (q : Pt) : (s.setP i q).lastRead = s.lastRead := rfl

/-! ### State.putP -/

@[simp] theorem State.putP_x (s : State) (i : Reg) (q : Pt) : (s.putP i q).x = s.x := rfl
@[simp] theorem State.putP_f (s : State) (i : Reg) (q : Pt) : (s.putP i q).f = s.f := rfl
@[simp] theorem State.putP_p (s : State) (i : Reg) (q : Pt) : (s.putP i q).p = s.p.set i.val ⟨true, q⟩ := rfl
@[simp] theorem State.putP_buf (s : State) (i : Reg) (q : Pt) : (s.putP i q).buf = s.buf := rfl
@[simp] theorem State.putP_len (s : State) (i : Reg) (q : Pt) : (s.putP i q).len = s.len := rfl
@[simp] theorem State.putP_flags (s : State) (i : Reg) (q : Pt) : (s.putP i q).flags = { s.flags with inf := q.inf } := rfl
@[simp] theorem State.putP_ie (s : State) (i : Reg) (q : Pt) : (s.putP i q).ie = s.ie := rfl
@[simp] theorem State.putP_status (s : State) (i : Reg) (q : Pt) : (s.putP i q).status = s.status := rfl
@[simp] theorem State.putP_cmd (s : State) (i : Reg) (q : Pt) : (s.putP i q).cmd = s.cmd := rfl
@[simp] theorem State.putP_cmdcnt (s : State) (i : Reg) (q : Pt) : (s.putP i q).cmdcnt = s.cmdcnt := rfl
@[simp] theorem State.putP_nonce (s : State) (i : Reg) (q : Pt) : (s.putP i q).nonce = s.nonce := rfl
@[simp] theorem State.putP_entropy (s : State) (i : Reg) (q : Pt) : (s.putP i q).entropy = s.entropy := rfl
@[simp] theorem State.putP_agenda (s : State) (i : Reg) (q : Pt) : (s.putP i q).agenda = s.agenda := rfl
@[simp] theorem State.putP_lastRead (s : State) (i : Reg) (q : Pt) : (s.putP i q).lastRead = s.lastRead := rfl

/-! ### State.putString -/

@[simp] theorem State.putString_x (s : State) (t : List Byte) : (s.putString t).x = s.x := rfl
@[simp] theorem State.putString_f (s : State) (t : List Byte) : (s.putString t).f = s.f := rfl
@[simp] theorem State.putString_p (s : State) (t : List Byte) : (s.putString t).p = s.p := rfl
@[simp] theorem State.putString_buf (s : State) (t : List Byte) : (s.putString t).buf = s.buf.writeBytes 0 t := rfl
@[simp] theorem State.putString_len (s : State) (t : List Byte) : (s.putString t).len = BitVec.ofNat 8 t.length := rfl
@[simp] theorem State.putString_flags (s : State) (t : List Byte) : (s.putString t).flags = s.flags := rfl
@[simp] theorem State.putString_ie (s : State) (t : List Byte) : (s.putString t).ie = s.ie := rfl
@[simp] theorem State.putString_status (s : State) (t : List Byte) : (s.putString t).status = s.status := rfl
@[simp] theorem State.putString_cmd (s : State) (t : List Byte) : (s.putString t).cmd = s.cmd := rfl
@[simp] theorem State.putString_cmdcnt (s : State) (t : List Byte) : (s.putString t).cmdcnt = s.cmdcnt := rfl
@[simp] theorem State.putString_nonce (s : State) (t : List Byte) : (s.putString t).nonce = s.nonce := rfl
@[simp] theorem State.putString_entropy (s : State) (t : List Byte) : (s.putString t).entropy = s.entropy := rfl
@[simp] theorem State.putString_agenda (s : State) (t : List Byte) : (s.putString t).agenda = s.agenda := rfl
@[simp] theorem State.putString_lastRead (s : State) (t : List Byte) : (s.putString t).lastRead = s.lastRead := rfl

/-! ### State.setEq -/

@[simp] theorem State.setEq_x (s : State) (v : Bool) : (s.setEq v).x = s.x := rfl
@[simp] theorem State.setEq_f (s : State) (v : Bool) : (s.setEq v).f = s.f := rfl
@[simp] theorem State.setEq_p (s : State) (v : Bool) : (s.setEq v).p = s.p := rfl
@[simp] theorem State.setEq_buf (s : State) (v : Bool) : (s.setEq v).buf = s.buf := rfl
@[simp] theorem State.setEq_len (s : State) (v : Bool) : (s.setEq v).len = s.len := rfl
@[simp] theorem State.setEq_flags (s : State) (v : Bool) : (s.setEq v).flags = { s.flags with eq := v } := rfl
@[simp] theorem State.setEq_ie (s : State) (v : Bool) : (s.setEq v).ie = s.ie := rfl
@[simp] theorem State.setEq_status (s : State) (v : Bool) : (s.setEq v).status = s.status := rfl
@[simp] theorem State.setEq_cmd (s : State) (v : Bool) : (s.setEq v).cmd = s.cmd := rfl
@[simp] theorem State.setEq_cmdcnt (s : State) (v : Bool) : (s.setEq v).cmdcnt = s.cmdcnt := rfl
@[simp] theorem State.setEq_nonce (s : State) (v : Bool) : (s.setEq v).nonce = s.nonce := rfl
@[simp] theorem State.setEq_entropy (s : State) (v : Bool) : (s.setEq v).entropy = s.entropy := rfl
@[simp] theorem State.setEq_agenda (s : State) (v : Bool) : (s.setEq v).agenda = s.agenda := rfl
@[simp] theorem State.setEq_lastRead (s : State) (v : Bool) : (s.setEq v).lastRead = s.lastRead := rfl

/-! ### State.setInf -/

@[simp] theorem State.setInf_x (s : State) (v : Bool) : (s.setInf v).x = s.x := rfl
@[simp] theorem State.setInf_f (s : State) (v : Bool) : (s.setInf v).f = s.f := rfl
@[simp] theorem State.setInf_p (s : State) (v : Bool) : (s.setInf v).p = s.p := rfl
@[simp] theorem State.setInf_buf (s : State) (v : Bool) : (s.setInf v).buf = s.buf := rfl
@[simp] theorem State.setInf_len (s : State) (v : Bool) : (s.setInf v).len = s.len := rfl
@[simp] theorem State.setInf_flags (s : State) (v : Bool) : (s.setInf v).flags = { s.flags with inf := v } := rfl
@[simp] theorem State.setInf_ie (s : State) (v : Bool) : (s.setInf v).ie = s.ie := rfl
@[simp] theorem State.setInf_status (s : State) (v : Bool) : (s.setInf v).status = s.status := rfl
@[simp] theorem State.setInf_cmd (s : State) (v : Bool) : (s.setInf v).cmd = s.cmd := rfl
@[simp] theorem State.setInf_cmdcnt (s : State) (v : Bool) : (s.setInf v).cmdcnt = s.cmdcnt := rfl
@[simp] theorem State.setInf_nonce (s : State) (v : Bool) : (s.setInf v).nonce = s.nonce := rfl
@[simp] theorem State.setInf_entropy (s : State) (v : Bool) : (s.setInf v).entropy = s.entropy := rfl
@[simp] theorem State.setInf_agenda (s : State) (v : Bool) : (s.setInf v).agenda = s.agenda := rfl
@[simp] theorem State.setInf_lastRead (s : State) (v : Bool) : (s.setInf v).lastRead = s.lastRead := rfl

/-! ### State.setVok -/

@[simp] theorem State.setVok_x (s : State) (v : Bool) : (s.setVok v).x = s.x := rfl
@[simp] theorem State.setVok_f (s : State) (v : Bool) : (s.setVok v).f = s.f := rfl
@[simp] theorem State.setVok_p (s : State) (v : Bool) : (s.setVok v).p = s.p := rfl
@[simp] theorem State.setVok_buf (s : State) (v : Bool) : (s.setVok v).buf = s.buf := rfl
@[simp] theorem State.setVok_len (s : State) (v : Bool) : (s.setVok v).len = s.len := rfl
@[simp] theorem State.setVok_flags (s : State) (v : Bool) : (s.setVok v).flags = { s.flags with vok := v } := rfl
@[simp] theorem State.setVok_ie (s : State) (v : Bool) : (s.setVok v).ie = s.ie := rfl
@[simp] theorem State.setVok_status (s : State) (v : Bool) : (s.setVok v).status = s.status := rfl
@[simp] theorem State.setVok_cmd (s : State) (v : Bool) : (s.setVok v).cmd = s.cmd := rfl
@[simp] theorem State.setVok_cmdcnt (s : State) (v : Bool) : (s.setVok v).cmdcnt = s.cmdcnt := rfl
@[simp] theorem State.setVok_nonce (s : State) (v : Bool) : (s.setVok v).nonce = s.nonce := rfl
@[simp] theorem State.setVok_entropy (s : State) (v : Bool) : (s.setVok v).entropy = s.entropy := rfl
@[simp] theorem State.setVok_agenda (s : State) (v : Bool) : (s.setVok v).agenda = s.agenda := rfl
@[simp] theorem State.setVok_lastRead (s : State) (v : Bool) : (s.setVok v).lastRead = s.lastRead := rfl

/-! ### State.setNrt -/

@[simp] theorem State.setNrt_x (s : State) (v : Bool) : (s.setNrt v).x = s.x := rfl
@[simp] theorem State.setNrt_f (s : State) (v : Bool) : (s.setNrt v).f = s.f := rfl
@[simp] theorem State.setNrt_p (s : State) (v : Bool) : (s.setNrt v).p = s.p := rfl
@[simp] theorem State.setNrt_buf (s : State) (v : Bool) : (s.setNrt v).buf = s.buf := rfl
@[simp] theorem State.setNrt_len (s : State) (v : Bool) : (s.setNrt v).len = s.len := rfl
@[simp] theorem State.setNrt_flags (s : State) (v : Bool) : (s.setNrt v).flags = { s.flags with nrt := v } := rfl
@[simp] theorem State.setNrt_ie (s : State) (v : Bool) : (s.setNrt v).ie = s.ie := rfl
@[simp] theorem State.setNrt_status (s : State) (v : Bool) : (s.setNrt v).status = s.status := rfl
@[simp] theorem State.setNrt_cmd (s : State) (v : Bool) : (s.setNrt v).cmd = s.cmd := rfl
@[simp] theorem State.setNrt_cmdcnt (s : State) (v : Bool) : (s.setNrt v).cmdcnt = s.cmdcnt := rfl
@[simp] theorem State.setNrt_nonce (s : State) (v : Bool) : (s.setNrt v).nonce = s.nonce := rfl
@[simp] theorem State.setNrt_entropy (s : State) (v : Bool) : (s.setNrt v).entropy = s.entropy := rfl
@[simp] theorem State.setNrt_agenda (s : State) (v : Bool) : (s.setNrt v).agenda = s.agenda := rfl
@[simp] theorem State.setNrt_lastRead (s : State) (v : Bool) : (s.setNrt v).lastRead = s.lastRead := rfl

/-! ### State.finish -/

@[simp] theorem State.finish_x (s : State) (c : ResultCode) : (s.finish c).x = s.x := rfl
@[simp] theorem State.finish_f (s : State) (c : ResultCode) : (s.finish c).f = s.f := rfl
@[simp] theorem State.finish_p (s : State) (c : ResultCode) : (s.finish c).p = s.p := rfl
@[simp] theorem State.finish_buf (s : State) (c : ResultCode) : (s.finish c).buf = s.buf := rfl
@[simp] theorem State.finish_len (s : State) (c : ResultCode) : (s.finish c).len = s.len := rfl
@[simp] theorem State.finish_flags (s : State) (c : ResultCode) : (s.finish c).flags = s.flags := rfl
@[simp] theorem State.finish_ie (s : State) (c : ResultCode) : (s.finish c).ie = s.ie := rfl
@[simp] theorem State.finish_status (s : State) (c : ResultCode) : (s.finish c).status = ⟨false, true, c.isError, s.status.ign, c⟩ := rfl
@[simp] theorem State.finish_cmd (s : State) (c : ResultCode) : (s.finish c).cmd = s.cmd := rfl
@[simp] theorem State.finish_cmdcnt (s : State) (c : ResultCode) : (s.finish c).cmdcnt = s.cmdcnt + 1 := rfl
@[simp] theorem State.finish_nonce (s : State) (c : ResultCode) : (s.finish c).nonce = none := rfl
@[simp] theorem State.finish_entropy (s : State) (c : ResultCode) : (s.finish c).entropy = s.entropy := rfl
@[simp] theorem State.finish_agenda (s : State) (c : ResultCode) : (s.finish c).agenda = s.agenda := rfl
@[simp] theorem State.finish_lastRead (s : State) (c : ResultCode) : (s.finish c).lastRead = s.lastRead := rfl

/-! ### State.raise -/

@[simp] theorem State.raise_x (s : State) (c : ResultCode) : (s.raise c).x = s.x := rfl
@[simp] theorem State.raise_f (s : State) (c : ResultCode) : (s.raise c).f = s.f := rfl
@[simp] theorem State.raise_p (s : State) (c : ResultCode) : (s.raise c).p = s.p := rfl
@[simp] theorem State.raise_buf (s : State) (c : ResultCode) : (s.raise c).buf = s.buf := rfl
@[simp] theorem State.raise_len (s : State) (c : ResultCode) : (s.raise c).len = s.len := rfl
@[simp] theorem State.raise_flags (s : State) (c : ResultCode) : (s.raise c).flags = s.flags := rfl
@[simp] theorem State.raise_ie (s : State) (c : ResultCode) : (s.raise c).ie = s.ie := rfl
@[simp] theorem State.raise_status (s : State) (c : ResultCode) : (s.raise c).status = ⟨false, true, c.isError, s.status.ign, c⟩ := rfl
@[simp] theorem State.raise_cmd (s : State) (c : ResultCode) : (s.raise c).cmd = s.cmd := rfl
@[simp] theorem State.raise_cmdcnt (s : State) (c : ResultCode) : (s.raise c).cmdcnt = s.cmdcnt + 1 := rfl
@[simp] theorem State.raise_nonce (s : State) (c : ResultCode) : (s.raise c).nonce = none := rfl
@[simp] theorem State.raise_entropy (s : State) (c : ResultCode) : (s.raise c).entropy = s.entropy := rfl
@[simp] theorem State.raise_agenda (s : State) (c : ResultCode) : (s.raise c).agenda = s.agenda := rfl
@[simp] theorem State.raise_lastRead (s : State) (c : ResultCode) : (s.raise c).lastRead = s.lastRead := rfl

/-! ### State.acknowledge -/

@[simp] theorem State.acknowledge_x (s : State) : (s.acknowledge).x = s.x := rfl
@[simp] theorem State.acknowledge_f (s : State) : (s.acknowledge).f = s.f := rfl
@[simp] theorem State.acknowledge_p (s : State) : (s.acknowledge).p = s.p := rfl
@[simp] theorem State.acknowledge_buf (s : State) : (s.acknowledge).buf = s.buf := rfl
@[simp] theorem State.acknowledge_len (s : State) : (s.acknowledge).len = s.len := rfl
@[simp] theorem State.acknowledge_flags (s : State) : (s.acknowledge).flags = s.flags := rfl
@[simp] theorem State.acknowledge_ie (s : State) : (s.acknowledge).ie = s.ie := rfl
@[simp] theorem State.acknowledge_status (s : State) : (s.acknowledge).status = { s.status with done := false } := rfl
@[simp] theorem State.acknowledge_cmd (s : State) : (s.acknowledge).cmd = s.cmd := rfl
@[simp] theorem State.acknowledge_cmdcnt (s : State) : (s.acknowledge).cmdcnt = s.cmdcnt := rfl
@[simp] theorem State.acknowledge_nonce (s : State) : (s.acknowledge).nonce = s.nonce := rfl
@[simp] theorem State.acknowledge_entropy (s : State) : (s.acknowledge).entropy = s.entropy := rfl
@[simp] theorem State.acknowledge_agenda (s : State) : (s.acknowledge).agenda = s.agenda := rfl
@[simp] theorem State.acknowledge_lastRead (s : State) : (s.acknowledge).lastRead = s.lastRead := rfl

/-! ### State.ignored -/

@[simp] theorem State.ignored_x (s : State) : (s.ignored).x = s.x := rfl
@[simp] theorem State.ignored_f (s : State) : (s.ignored).f = s.f := rfl
@[simp] theorem State.ignored_p (s : State) : (s.ignored).p = s.p := rfl
@[simp] theorem State.ignored_buf (s : State) : (s.ignored).buf = s.buf := rfl
@[simp] theorem State.ignored_len (s : State) : (s.ignored).len = s.len := rfl
@[simp] theorem State.ignored_flags (s : State) : (s.ignored).flags = s.flags := rfl
@[simp] theorem State.ignored_ie (s : State) : (s.ignored).ie = s.ie := rfl
@[simp] theorem State.ignored_status (s : State) : (s.ignored).status = { s.status with ign := true } := rfl
@[simp] theorem State.ignored_cmd (s : State) : (s.ignored).cmd = s.cmd := rfl
@[simp] theorem State.ignored_cmdcnt (s : State) : (s.ignored).cmdcnt = s.cmdcnt := rfl
@[simp] theorem State.ignored_nonce (s : State) : (s.ignored).nonce = s.nonce := rfl
@[simp] theorem State.ignored_entropy (s : State) : (s.ignored).entropy = s.entropy := rfl
@[simp] theorem State.ignored_agenda (s : State) : (s.ignored).agenda = s.agenda := rfl
@[simp] theorem State.ignored_lastRead (s : State) : (s.ignored).lastRead = s.lastRead := rfl

/-! ### State.accept -/

@[simp] theorem State.accept_x (s : State) (w : W32) : (s.accept w).x = s.x := rfl
@[simp] theorem State.accept_f (s : State) (w : W32) : (s.accept w).f = s.f := rfl
@[simp] theorem State.accept_p (s : State) (w : W32) : (s.accept w).p = s.p := rfl
@[simp] theorem State.accept_buf (s : State) (w : W32) : (s.accept w).buf = s.buf := rfl
@[simp] theorem State.accept_len (s : State) (w : W32) : (s.accept w).len = s.len := rfl
@[simp] theorem State.accept_flags (s : State) (w : W32) : (s.accept w).flags = s.flags := rfl
@[simp] theorem State.accept_ie (s : State) (w : W32) : (s.accept w).ie = s.ie := rfl
@[simp] theorem State.accept_status (s : State) (w : W32) : (s.accept w).status = { s.status with busy := true, done := false } := rfl
@[simp] theorem State.accept_cmd (s : State) (w : W32) : (s.accept w).cmd = w := rfl
@[simp] theorem State.accept_cmdcnt (s : State) (w : W32) : (s.accept w).cmdcnt = s.cmdcnt := rfl
@[simp] theorem State.accept_nonce (s : State) (w : W32) : (s.accept w).nonce = none := rfl
@[simp] theorem State.accept_entropy (s : State) (w : W32) : (s.accept w).entropy = s.entropy := rfl
@[simp] theorem State.accept_agenda (s : State) (w : W32) : (s.accept w).agenda = s.agenda := rfl
@[simp] theorem State.accept_lastRead (s : State) (w : W32) : (s.accept w).lastRead = s.lastRead := rfl

/-! ### State.resetBlock -/

@[simp] theorem State.resetBlock_x (s : State) : (s.resetBlock).x = State.reset.x := rfl
@[simp] theorem State.resetBlock_f (s : State) : (s.resetBlock).f = State.reset.f := rfl
@[simp] theorem State.resetBlock_p (s : State) : (s.resetBlock).p = State.reset.p := rfl
@[simp] theorem State.resetBlock_buf (s : State) : (s.resetBlock).buf = State.reset.buf := rfl
@[simp] theorem State.resetBlock_len (s : State) : (s.resetBlock).len = State.reset.len := rfl
@[simp] theorem State.resetBlock_flags (s : State) : (s.resetBlock).flags = State.reset.flags := rfl
@[simp] theorem State.resetBlock_ie (s : State) : (s.resetBlock).ie = State.reset.ie := rfl
@[simp] theorem State.resetBlock_status (s : State) : (s.resetBlock).status = State.reset.status := rfl
@[simp] theorem State.resetBlock_cmd (s : State) : (s.resetBlock).cmd = State.reset.cmd := rfl
@[simp] theorem State.resetBlock_cmdcnt (s : State) : (s.resetBlock).cmdcnt = State.reset.cmdcnt := rfl
@[simp] theorem State.resetBlock_nonce (s : State) : (s.resetBlock).nonce = State.reset.nonce := rfl
@[simp] theorem State.resetBlock_entropy (s : State) : (s.resetBlock).entropy = s.entropy := rfl
@[simp] theorem State.resetBlock_agenda (s : State) : (s.resetBlock).agenda = s.agenda := rfl
@[simp] theorem State.resetBlock_lastRead (s : State) : (s.resetBlock).lastRead = s.lastRead := rfl

/-! ### State.zeroized -/

@[simp] theorem State.zeroized_x (s : State) : (s.zeroized).x = State.reset.x := rfl
@[simp] theorem State.zeroized_f (s : State) : (s.zeroized).f = State.reset.f := rfl
@[simp] theorem State.zeroized_p (s : State) : (s.zeroized).p = State.reset.p := rfl
@[simp] theorem State.zeroized_buf (s : State) : (s.zeroized).buf = State.reset.buf := rfl
@[simp] theorem State.zeroized_len (s : State) : (s.zeroized).len = State.reset.len := rfl
@[simp] theorem State.zeroized_flags (s : State) : (s.zeroized).flags = State.reset.flags := rfl
@[simp] theorem State.zeroized_ie (s : State) : (s.zeroized).ie = s.ie := rfl
@[simp] theorem State.zeroized_status (s : State) : (s.zeroized).status = s.status := rfl
@[simp] theorem State.zeroized_cmd (s : State) : (s.zeroized).cmd = s.cmd := rfl
@[simp] theorem State.zeroized_cmdcnt (s : State) : (s.zeroized).cmdcnt = s.cmdcnt := rfl
@[simp] theorem State.zeroized_nonce (s : State) : (s.zeroized).nonce = s.nonce := rfl
@[simp] theorem State.zeroized_entropy (s : State) : (s.zeroized).entropy = s.entropy := rfl
@[simp] theorem State.zeroized_agenda (s : State) : (s.zeroized).agenda = s.agenda := rfl
@[simp] theorem State.zeroized_lastRead (s : State) : (s.zeroized).lastRead = s.lastRead := rfl

end Sys2Proof.Machine
end

