-- ==== Sys2Proof/Laws/Bus.lean ====
section
/-! SUPPORT. The window: what each offset is, the bits of the words read, and what one bus event does (20_memory.md R51 to R64). -/

namespace Sys2Proof.Machine

/-! ### One bus event -/

/-- The agenda has no part in a read. -/
theorem State.busRead_agenda (s : State) (l : List Event) (loc : Loc) :
    ({ s with agenda := l } : State).busRead loc = s.busRead loc := by cases loc <;> rfl

/-- A well-formed read as the next event (R51, R62). -/
theorem step_read (s : State) {off : BitVec 12} (h : off.toNat % 4 = 0) :
    step { s with agenda := .read .w4 off :: s.agenda } =
      .next { s with lastRead := some (s.busRead (locOf off)) } := by
  have hw : wellFormedAccess .w4 off = true := by simp [wellFormedAccess, h]
  simp only [step, nextEvent, applyEvent, hw, if_true]

/-- A well-formed write as the next event (R51). -/
theorem step_write (s : State) {off : BitVec 12} (h : off.toNat % 4 = 0) (v : W32) :
    step { s with agenda := .write .w4 off v :: s.agenda } = .next (s.busWrite v (locOf off)) := by
  have hw : wellFormedAccess .w4 off = true := by simp [wellFormedAccess, h]
  simp only [step, nextEvent, applyEvent, hw, if_true]

/-- A malformed access as the next event (R52). -/
theorem step_malformed (s : State) {width : Width} {off : BitVec 12} (h : width ≠ .w4 ∨ off.toNat % 4 ≠ 0) (v : W32) :
    step { s with agenda := .read width off :: s.agenda } = .fault .busError ∧
      step { s with agenda := .write width off v :: s.agenda } = .fault .busError := by
  have hw : wellFormedAccess width off = false := by
    rw [wellFormedAccess, Bool.and_eq_false_iff]
    rcases h with h | h
    · left; simpa using h
    · right; simpa using h
  simp [step, nextEvent, applyEvent, hw]

/-! ### The window (R53) -/

theorem locOf_x {off : BitVec 12} (i : Reg) (j : Fin 8) (h : off.toNat = 0x100 + 32 * i.val + 4 * j.val) :
    locOf off = .xWord i j := by
  have hi := i.isLt
  have hj := j.isLt
  simp only [locOf]
  rw [if_pos (by omega)]
  simp only [Loc.xWord.injEq, Fin.ext_iff, Fin.ofNat]
  omega

theorem locOf_buf {off : BitVec 12} (k : Fin 32) (h : off.toNat = 0x300 + 4 * k.val) : locOf off = .bufWord k := by
  have hk := k.isLt
  simp only [locOf]
  rw [if_neg (by omega), if_pos (by omega)]
  simp only [Loc.bufWord.injEq, Fin.ext_iff, Fin.ofNat]
  omega

/-- An offset outside the X words and `BUF` is what its number says. -/
theorem locOf_control {off : BitVec 12} (h : off.toNat < 0x100 ∨ 0x380 ≤ off.toNat) :
    locOf off = match off.toNat with
      | 0x000 => .id
      | 0x004 => .version
      | 0x008 => .ctrl
      | 0x00C => .status
      | 0x010 => .cmd
      | 0x014 => .flags
      | 0x018 => .cmdcnt
      | 0x01C => .fvalid
      | 0x020 => .pvalid
      | 0x024 => .len
      | _ => .reserved := by
  simp only [locOf]
  exact (if_neg (by omega)).trans (if_neg (by omega))

theorem locOf_reserved {off : BitVec 12} (h : (0x028 ≤ off.toNat ∧ off.toNat < 0x100) ∨ 0x380 ≤ off.toNat) :
    locOf off = .reserved := by
  rw [locOf_control (by omega)]
  split <;> first | rfl | omega

/-! ### The bits of the words read -/

theorem getLsbD_flagBit (i k : Nat) (c : Bool) (hk : k < 32) : (flagBit i c).getLsbD k = (decide (k = i) && c) := by
  unfold flagBit
  cases c with
  | false => simp
  | true =>
    by_cases h : k = i
    · subst h
      simp [hk]
    · have h1 : ¬ (k = i) := h
      by_cases hlt : k < i
      · simp [hlt, h1]
      · have h2 : k - i ≠ 0 := by omega
        simp [h2, h1, hlt, hk]

/-- FLAGS reads its four bits, the rest 0 (R32). -/
theorem getLsbD_flagsWord (g : Flags) (k : Nat) (hk : k < 32) :
    g.word.getLsbD k = ((decide (k = 0) && g.eq) || (decide (k = 1) && g.inf) || (decide (k = 2) && g.vok)
      || (decide (k = 3) && g.nrt)) := by
  simp only [Flags.word, BitVec.getLsbD_or, getLsbD_flagBit _ _ _ hk]

/-- STATUS reads its four bits and CODE, the rest 0 (R34). -/
theorem getLsbD_statusWord (t : Status) (k : Nat) (hk : k < 32) :
    t.word.getLsbD k = ((decide (k = 0) && t.busy) || (decide (k = 1) && t.done) || (decide (k = 2) && t.err)
      || (decide (k = 3) && t.ign) || (decide (8 ≤ k) && t.code.value.getLsbD (k - 8))) := by
  have h : ((t.code.value.setWidth 32) <<< 8).getLsbD k = (decide (8 ≤ k) && t.code.value.getLsbD (k - 8)) := by
    by_cases h8 : k < 8
    · have h8' : ¬ 8 ≤ k := by omega
      simp [h8, h8']
    · have h8' : 8 ≤ k := by omega
      simp [h8, h8', hk]
  simp only [Status.word, BitVec.getLsbD_or, getLsbD_flagBit _ _ _ hk, h]

theorem getLsbD_foldl_flagBit (bit : Reg → Bool) (l : List Reg) (w : W32) (k : Nat) (hk : k < 32) :
    (l.foldl (fun w i => w ||| flagBit i.val (bit i)) w).getLsbD k =
      (w.getLsbD k || l.any fun i => decide (k = i.val) && bit i) := by
  induction l generalizing w with
  | nil => simp
  | cons i rest ih =>
    rw [List.foldl_cons, ih, BitVec.getLsbD_or, getLsbD_flagBit _ _ _ hk, List.any_cons, Bool.or_assoc]

/-- FVALID and PVALID read the sixteen valid bits, the rest 0 (R36). -/
theorem getLsbD_validWord (bit : Reg → Bool) (k : Nat) (hk : k < 32) :
    (validWord bit).getLsbD k = if h : k < 16 then bit ⟨k, h⟩ else false := by
  have h0 : (0 : W32).getLsbD k = false := by simp
  rw [validWord, getLsbD_foldl_flagBit _ _ _ _ hk, h0, Bool.false_or]
  split
  · rename_i h
    rw [Bool.eq_iff_iff, List.any_eq_true]
    constructor
    · rintro ⟨i, -, hi⟩
      rw [Bool.and_eq_true, decide_eq_true_eq] at hi
      have e : i = ⟨k, h⟩ := Fin.ext hi.1.symm
      rw [← e]
      exact hi.2
    · intro hb
      exact ⟨⟨k, h⟩, List.mem_finRange _, by simp [hb]⟩
  · rename_i h
    rw [List.any_eq_false]
    intro i _ hi
    rw [Bool.and_eq_true, decide_eq_true_eq] at hi
    have := i.isLt
    omega

/-- Byte `i` of a `BUF` word as read (R57). -/
theorem byteOf_packWord (b0 b1 b2 b3 : Byte) :
    byteOf (packWord b0 b1 b2 b3) 0 = b0 ∧ byteOf (packWord b0 b1 b2 b3) 1 = b1 ∧
      byteOf (packWord b0 b1 b2 b3) 2 = b2 ∧ byteOf (packWord b0 b1 b2 b3) 3 = b3 := by
  refine ⟨?_, ?_, ?_, ?_⟩ <;> apply BitVec.eq_of_getLsbD_eq <;> intro i hi <;>
    rw [getLsbD_byteOf _ _ _ hi, getLsbD_packWord _ _ _ _ _ (by omega)]
  · rw [if_pos (by omega)]; congr 1; omega
  · rw [if_neg (by omega), if_pos (by omega)]; congr 1; omega
  · rw [if_neg (by omega), if_neg (by omega), if_pos (by omega)]; congr 1; omega
  · rw [if_neg (by omega), if_neg (by omega), if_neg (by omega)]; congr 1; omega

end Sys2Proof.Machine
end

