-- ==== Sys2Proof/Laws/Operands.lean ====
section
/-! SUPPORT. Reading registers after writing them, and what each operand form can answer. -/

namespace Sys2Proof.Machine

/-! ### X registers -/

@[simp] theorem State.readX_setX (s : State) (i j : Reg) (v : W256) :
    (s.setX i v).readX j = if i = j then v else s.readX j := by
  simp [State.readX, State.setX, Vector.getElem_set, Fin.ext_iff]

@[simp] theorem State.readX_setF (s : State) (i j : Reg) (e : Fe) : (s.setF i e).readX j = s.readX j := rfl
@[simp] theorem State.readX_setP (s : State) (i j : Reg) (q : Pt) : (s.setP i q).readX j = s.readX j := rfl
@[simp] theorem State.readX_putP (s : State) (i j : Reg) (q : Pt) : (s.putP i q).readX j = s.readX j := rfl
@[simp] theorem State.readX_finish (s : State) (c : ResultCode) (j : Reg) : (s.finish c).readX j = s.readX j := rfl

/-! ### F and P registers -/

@[simp] theorem State.setF_get (s : State) (i j : Reg) (e : Fe) :
    (s.setF i e).f[j.val] = if i = j then ⟨true, e⟩ else s.f[j.val] := by
  simp [Vector.getElem_set, Fin.ext_iff]

@[simp] theorem State.setP_get (s : State) (i j : Reg) (q : Pt) :
    (s.setP i q).p[j.val] = if i = j then ⟨true, q⟩ else s.p[j.val] := by
  simp [Vector.getElem_set, Fin.ext_iff]

/-- What `readF` can answer (R24, R120). -/
theorem State.readF_cases (s : State) (i : Reg) :
    (s.f[i.val].valid = true ∧ s.readF i = .ok s.f[i.val].fe) ∨
      (s.f[i.val].valid = false ∧ s.readF i = .error .emptyOperand) := by
  cases h : s.f[i.val].valid <;> simp [State.readF, h]

/-- What `readP` can answer (R27, R150). -/
theorem State.readP_cases (s : State) (i : Reg) :
    (s.p[i.val].valid = true ∧ s.readP i = .ok s.p[i.val].pt) ∨
      (s.p[i.val].valid = false ∧ s.readP i = .error .emptyOperand) := by
  cases h : s.p[i.val].valid <;> simp [State.readP, h]

theorem State.readF_valid {s : State} {i : Reg} (h : s.f[i.val].valid = true) :
    s.readF i = .ok s.f[i.val].fe := by simp [State.readF, h]

theorem State.readF_empty {s : State} {i : Reg} (h : s.f[i.val].valid = false) :
    s.readF i = .error .emptyOperand := by simp [State.readF, h]

theorem State.readP_valid {s : State} {i : Reg} (h : s.p[i.val].valid = true) :
    s.readP i = .ok s.p[i.val].pt := by simp [State.readP, h]

theorem State.readP_empty {s : State} {i : Reg} (h : s.p[i.val].valid = false) :
    s.readP i = .error .emptyOperand := by simp [State.readP, h]

/-! ### Completion -/

@[simp] theorem conclude_ok (s t : State) : conclude s (.ok t) = .next (t.finish .ok) := rfl

@[simp] theorem conclude_error (s : State) (c : ResultCode) : conclude s (.error c) = .next (s.finish c) := rfl

/-- What the completion of a command can answer: always a next state (R101). -/
theorem conclude_cases (s : State) (r : Except ResultCode State) :
    (∃ t, r = .ok t ∧ conclude s r = .next (t.finish .ok)) ∨
      (∃ c, r = .error c ∧ conclude s r = .next (s.finish c)) := by
  cases r with
  | ok t => exact .inl ⟨t, rfl, rfl⟩
  | error c => exact .inr ⟨c, rfl, rfl⟩

/-- A rule's first computation, taken apart: it raised, or it gave a value and the rest ran. -/
theorem except_bind_cases {α β : Type} (x : Except ResultCode α) (g : α → Except ResultCode β) :
    (∃ c, x = .error c ∧ (x >>= g) = .error c) ∨ (∃ a, x = .ok a ∧ (x >>= g) = g a) := by
  cases x with
  | ok a => exact .inr ⟨a, rfl, rfl⟩
  | error c => exact .inl ⟨c, rfl, rfl⟩

/-- The value a bind gave came from a value its first computation gave. -/
theorem except_bind_ok {α β : Type} {x : Except ResultCode α} {g : α → Except ResultCode β} {b : β}
    (h : (x >>= g) = .ok b) : ∃ a, x = .ok a ∧ g a = .ok b := by
  cases x with
  | ok a => exact ⟨a, rfl, h⟩
  | error c => exact absurd h (by simp [bind, Except.bind])

@[simp] theorem except_ok_bind {α β : Type} (a : α) (g : α → Except ResultCode β) :
    ((Except.ok a : Except ResultCode α) >>= g) = g a := rfl

@[simp] theorem except_error_bind {α β : Type} (c : ResultCode) (g : α → Except ResultCode β) :
    ((Except.error c : Except ResultCode α) >>= g) = .error c := rfl

end Sys2Proof.Machine
end

