-- ==== Sys2Proof/Laws/FieldArith.lean ====
section
/-! SUPPORT. What each field helper answers: its value as an exact remainder, and that a result is a legal element (10_state.md R23, 41_field.md R121 to R129). -/

namespace Sys2Proof.Machine

/-! ### Exponentiation (R125, R126) -/

theorem powModLoop_eq (fuel acc base e m : Nat) (hacc : acc % m = acc) (he : e < 2 ^ fuel) :
    powModLoop fuel acc base e m = acc * base ^ e % m := by
  induction fuel generalizing acc base e with
  | zero =>
    have h0 : e = 0 := by omega
    subst h0
    simp [powModLoop, hacc]
  | succ fuel ih =>
    rw [powModLoop]
    split
    · rename_i h0
      subst h0
      simp [hacc]
    · have hdiv : e / 2 < 2 ^ fuel := by omega
      have hsq : ∀ k, (base * base % m) ^ k % m = base ^ (2 * k) % m := fun k => by
        rw [← Nat.pow_mod, ← pow_two, ← pow_mul]
      rw [ih _ _ _ _ hdiv]
      · rcases Nat.mod_two_eq_zero_or_one e with h2 | h2
        · rw [if_neg (by omega), Nat.mul_mod, hsq, ← Nat.mul_mod]
          congr 3
          omega
        · rw [if_pos h2, Nat.mul_mod, hsq, Nat.mod_mod, ← Nat.mul_mod, Nat.mul_assoc, ← pow_succ']
          congr 3
          omega
      · split
        · exact Nat.mod_mod _ _
        · exact hacc

/-- Square-and-multiply computes `a ^ e mod m` (R125, R126). -/
theorem powMod_eq (a m : Nat) {e : Nat} (he : e < 2 ^ 256) : powMod a e m = a ^ e % m := by
  rw [powMod, powModLoop_eq _ _ _ _ _ (Nat.mod_mod _ _) he, Nat.mul_mod, Nat.mod_mod, ← Nat.pow_mod,
    ← Nat.mul_mod, one_mul]

theorem normExponent_lt {m : W256} (hm : 2 ≤ m.toNat) (e : Int) : normExponent m e < m.toNat - 1 := by
  have h1 := Int.emod_lt_of_pos e (show (0 : Int) < (m.toNat : Int) - 1 by omega)
  have h2 := Int.emod_nonneg e (show ((m.toNat : Int) - 1) ≠ 0 by omega)
  unfold normExponent
  omega

/-- The value of `fpow` (R125). -/
theorem fpow_eq {a : Fe} (hm : 2 ≤ a.m.toNat) (e : Int) :
    fpow a e = ⟨BitVec.ofNat 256 (a.v.toNat ^ normExponent a.m e % a.m.toNat), a.m⟩ := by
  rw [fpow, powMod_eq]
  have := normExponent_lt hm e
  have := a.m.isLt
  omega

/-- Raising to `m - 2` needs no normalization (R127, R128). -/
theorem normExponent_inv {m : W256} (hm : 2 ≤ m.toNat) :
    normExponent m ((m.toNat : Int) - 2) = m.toNat - 2 := by
  unfold normExponent
  rw [Int.emod_eq_of_lt (by omega) (by omega)]
  omega

theorem fpow_inv_eq {a : Fe} (hm : 2 ≤ a.m.toNat) :
    fpow a ((a.m.toNat : Int) - 2) = ⟨BitVec.ofNat 256 (a.v.toNat ^ (a.m.toNat - 2) % a.m.toNat), a.m⟩ := by
  rw [fpow_eq hm, normExponent_inv hm]

/-! ### Remainders fit -/

/-- A remainder by a modulus fits in 256 bits. -/
theorem toNat_mod (m : W256) (hm : 2 ≤ m.toNat) (k : Nat) :
    (BitVec.ofNat 256 (k % m.toNat)).toNat = k % m.toNat := by
  have h1 := Nat.mod_lt k (show m.toNat > 0 by omega)
  have h2 := m.isLt
  rw [BitVec.toNat_ofNat, Nat.mod_eq_of_lt (by omega)]

/-- A Euclidean remainder by a modulus fits in 256 bits. -/
theorem toNat_emod (m : W256) (hm : 2 ≤ m.toNat) (k : Int) :
    ((BitVec.ofNat 256 (k % m.toNat).toNat).toNat : Int) = k % m.toNat := by
  have h1 := Int.emod_lt_of_pos k (show (0 : Int) < m.toNat by omega)
  have h2 := Int.emod_nonneg k (show (m.toNat : Int) ≠ 0 by omega)
  have h3 := m.isLt
  rw [BitVec.toNat_ofNat, Nat.mod_eq_of_lt (by omega)]
  omega

theorem wf_mod {m : W256} (hm : 2 ≤ m.toNat) (k : Nat) : Fe.wf ⟨BitVec.ofNat 256 (k % m.toNat), m⟩ := by
  refine ⟨hm, ?_⟩
  show (BitVec.ofNat 256 (k % m.toNat)).toNat < m.toNat
  rw [toNat_mod m hm]
  exact Nat.mod_lt _ (by omega)

theorem wf_emod {m : W256} (hm : 2 ≤ m.toNat) (k : Int) :
    Fe.wf ⟨BitVec.ofNat 256 (k % m.toNat).toNat, m⟩ := by
  refine ⟨hm, ?_⟩
  have h1 := toNat_emod m hm k
  have h2 := Int.emod_lt_of_pos k (show (0 : Int) < m.toNat by omega)
  show (BitVec.ofNat 256 (k % m.toNat).toNat).toNat < m.toNat
  omega

theorem wf_fpow {a : Fe} (hm : 2 ≤ a.m.toNat) (e : Int) : (fpow a e).wf := by
  rw [fpow_eq hm]
  exact wf_mod hm _

theorem wf_fconst {m : W256} (hm : 2 ≤ m.toNat) (k : Nat) : (fconst k m).wf := wf_mod hm k

/-! ### The helpers on elements of one field -/

theorem fadd_same {a b : Fe} (h : a.m = b.m) :
    fadd a b = .ok ⟨BitVec.ofNat 256 ((a.v.toNat + b.v.toNat) % a.m.toNat), a.m⟩ := by
  simp [fadd, fcheck, h]

theorem fsub_same {a b : Fe} (h : a.m = b.m) :
    fsub a b = .ok ⟨BitVec.ofNat 256 (((a.v.toNat : Int) - b.v.toNat) % a.m.toNat).toNat, a.m⟩ := by
  simp [fsub, fcheck, h]

theorem fmul_same {a b : Fe} (h : a.m = b.m) :
    fmul a b = .ok ⟨BitVec.ofNat 256 (a.v.toNat * b.v.toNat % a.m.toNat), a.m⟩ := by
  simp [fmul, fcheck, h]

theorem fdiv_same {a b : Fe} (h : a.m = b.m) (hb : b.v ≠ 0) :
    fdiv a b = fmul a (fpow b ((b.m.toNat : Int) - 2)) := by
  have h' : ¬ a.m ≠ b.m := not_not.2 h
  rw [fdiv, fcheck, if_neg h', except_ok_bind, if_neg hb]

theorem fdiv_zero {a b : Fe} (h : a.m = b.m) (hb : b.v = 0) : fdiv a b = .error .divisionByZero := by
  simp [fdiv, fcheck, h, hb]

/-! ### The helpers on elements of two fields (R121) -/

theorem fadd_mismatch {a b : Fe} (h : a.m ≠ b.m) : fadd a b = .error .fieldMismatch := by
  simp [fadd, fcheck, h]

theorem fsub_mismatch {a b : Fe} (h : a.m ≠ b.m) : fsub a b = .error .fieldMismatch := by
  simp [fsub, fcheck, h]

theorem fmul_mismatch {a b : Fe} (h : a.m ≠ b.m) : fmul a b = .error .fieldMismatch := by
  simp [fmul, fcheck, h]

theorem fdiv_mismatch {a b : Fe} (h : a.m ≠ b.m) : fdiv a b = .error .fieldMismatch := by
  simp [fdiv, fcheck, h]

/-! ### What each helper can answer: a legal element of the same field, or the code R121 and R128 name -/

theorem fadd_cases {a b : Fe} (ha : 2 ≤ a.m.toNat) :
    (∃ r, fadd a b = .ok r ∧ r.wf ∧ r.m = a.m ∧ a.m = b.m) ∨ (fadd a b = .error .fieldMismatch ∧ a.m ≠ b.m) := by
  by_cases h : a.m = b.m
  · exact .inl ⟨_, fadd_same h, wf_mod ha _, rfl, h⟩
  · exact .inr ⟨fadd_mismatch h, h⟩

theorem fsub_cases {a b : Fe} (ha : 2 ≤ a.m.toNat) :
    (∃ r, fsub a b = .ok r ∧ r.wf ∧ r.m = a.m ∧ a.m = b.m) ∨ (fsub a b = .error .fieldMismatch ∧ a.m ≠ b.m) := by
  by_cases h : a.m = b.m
  · exact .inl ⟨_, fsub_same h, wf_emod ha _, rfl, h⟩
  · exact .inr ⟨fsub_mismatch h, h⟩

theorem fmul_cases {a b : Fe} (ha : 2 ≤ a.m.toNat) :
    (∃ r, fmul a b = .ok r ∧ r.wf ∧ r.m = a.m ∧ a.m = b.m) ∨ (fmul a b = .error .fieldMismatch ∧ a.m ≠ b.m) := by
  by_cases h : a.m = b.m
  · exact .inl ⟨_, fmul_same h, wf_mod ha _, rfl, h⟩
  · exact .inr ⟨fmul_mismatch h, h⟩

theorem fdiv_cases {a b : Fe} (ha : 2 ≤ a.m.toNat) :
    (∃ r, fdiv a b = .ok r ∧ r.wf ∧ r.m = a.m ∧ a.m = b.m ∧ b.v ≠ 0) ∨
      (fdiv a b = .error .fieldMismatch ∧ a.m ≠ b.m) ∨
      (fdiv a b = .error .divisionByZero ∧ a.m = b.m ∧ b.v = 0) := by
  by_cases h : a.m = b.m
  · by_cases hb : b.v = 0
    · exact .inr (.inr ⟨fdiv_zero h hb, h, hb⟩)
    · rw [fdiv_same h hb]
      rcases fmul_cases (b := fpow b ((b.m.toNat : Int) - 2)) ha with ⟨r, hr, hw, hm, -⟩ | ⟨-, hne⟩
      · exact .inl ⟨r, hr, hw, hm, h, hb⟩
      · exact absurd h hne
  · exact .inr (.inl ⟨fdiv_mismatch h, h⟩)

theorem finv_cases {a : Fe} (ha : 2 ≤ a.m.toNat) :
    (∃ r, finv a = .ok r ∧ r.wf ∧ r.m = a.m ∧ a.v ≠ 0) ∨ (finv a = .error .divisionByZero ∧ a.v = 0) := by
  unfold finv
  split
  · rename_i h
    exact .inr ⟨rfl, h⟩
  · rename_i h
    exact .inl ⟨_, rfl, wf_fpow ha _, rfl, h⟩

end Sys2Proof.Machine
end

