-- ==== Sys2Proof/Laws/Modular.lean ====
section
/-! SUPPORT. Field elements read in Mathlib's ring `ZMod m`: each helper is the ring operation, so ring and field laws can be used (41_field.md R122 to R128). -/

namespace Sys2Proof.Machine

/-- A legal element of the field of modulus `m`. -/
structure Fe.In (m : Nat) (e : Fe) : Prop where
  modulus : e.m.toNat = m
  legal : e.wf

theorem Fe.In.two_le {m : Nat} {e : Fe} (h : e.In m) : 2 ≤ e.m.toNat := h.legal.1

theorem Fe.In.same {m : Nat} {a b : Fe} (ha : a.In m) (hb : b.In m) : a.m = b.m :=
  BitVec.eq_of_toNat_eq (ha.modulus.trans hb.modulus.symm)

/-- Legal elements of one field are equal when their values are. -/
theorem Fe.In.ext {m : Nat} {a b : Fe} (ha : a.In m) (hb : b.In m) (h : a.toZ m = b.toZ m) : a = b := by
  have hm := ha.same hb
  have hv : a.v.toNat ≡ b.v.toNat [MOD m] := (ZMod.natCast_eq_natCast_iff _ _ _).1 h
  have ha' : a.v.toNat < m := by have := ha.legal.2; rw [ha.modulus] at this; exact this
  have hb' : b.v.toNat < m := by have := hb.legal.2; rw [hb.modulus] at this; exact this
  have hv' : a.v = b.v := BitVec.eq_of_toNat_eq (Nat.ModEq.eq_of_lt_of_lt hv ha' hb')
  cases a; cases b; simp_all

theorem Fe.In.ext_iff {m : Nat} {a b : Fe} (ha : a.In m) (hb : b.In m) : a = b ↔ a.toZ m = b.toZ m :=
  ⟨fun h => h ▸ rfl, ha.ext hb⟩

theorem Fe.In.eq_zero_iff {m : Nat} {a : Fe} (ha : a.In m) : a.v = 0 ↔ a.toZ m = 0 := by
  have ha' : a.v.toNat < m := by have := ha.legal.2; rw [ha.modulus] at this; exact this
  rw [Fe.toZ, ZMod.natCast_eq_zero_iff]
  constructor
  · intro h; simp [h]
  · intro h
    have := Nat.eq_zero_of_dvd_of_lt h ha'
    exact BitVec.eq_of_toNat_eq (by simpa using this)

/-! ### Building elements -/

theorem Fe.In.ofMod {m : Nat} {w : W256} (hw : w.toNat = m) (hm : 2 ≤ m) (k : Nat) :
    Fe.In m ⟨BitVec.ofNat 256 (k % w.toNat), w⟩ := ⟨hw, wf_mod (by omega) k⟩

theorem Fe.toZ_ofMod {m : Nat} {w : W256} (hw : w.toNat = m) (hm : 2 ≤ m) (k : Nat) :
    Fe.toZ m ⟨BitVec.ofNat 256 (k % w.toNat), w⟩ = (k : ZMod m) := by
  show ((BitVec.ofNat 256 (k % w.toNat)).toNat : ZMod m) = _
  rw [toNat_mod w (by omega), hw, ZMod.natCast_mod]

theorem Fe.toZ_ofEmod {m : Nat} {w : W256} (hw : w.toNat = m) (hm : 2 ≤ m) (k : Int) :
    Fe.toZ m ⟨BitVec.ofNat 256 (k % w.toNat).toNat, w⟩ = (k : ZMod m) := by
  have h := toNat_emod w (by omega) k
  have h' : (((BitVec.ofNat 256 (k % w.toNat).toNat).toNat : Int) : ZMod m) = ((k % w.toNat : Int) : ZMod m) := by
    rw [h]
  rw [Int.cast_natCast, hw, ZMod.intCast_mod] at h'
  rw [← h', hw]
  rfl

/-! ### The helpers (R122 to R128) -/

theorem fadd_in {m : Nat} {a b : Fe} (ha : a.In m) (hb : b.In m) :
    ∃ r, fadd a b = .ok r ∧ r.In m ∧ r.toZ m = a.toZ m + b.toZ m := by
  have h2 : 2 ≤ m := ha.modulus ▸ ha.two_le
  refine ⟨_, fadd_same (ha.same hb), .ofMod ha.modulus h2 _, ?_⟩
  rw [Fe.toZ_ofMod ha.modulus h2]
  push_cast
  rfl

theorem fsub_in {m : Nat} {a b : Fe} (ha : a.In m) (hb : b.In m) :
    ∃ r, fsub a b = .ok r ∧ r.In m ∧ r.toZ m = a.toZ m - b.toZ m := by
  have h2 : 2 ≤ m := ha.modulus ▸ ha.two_le
  refine ⟨_, fsub_same (ha.same hb), ⟨ha.modulus, wf_emod ha.two_le _⟩, ?_⟩
  rw [Fe.toZ_ofEmod ha.modulus h2]
  push_cast
  rfl

theorem fmul_in {m : Nat} {a b : Fe} (ha : a.In m) (hb : b.In m) :
    ∃ r, fmul a b = .ok r ∧ r.In m ∧ r.toZ m = a.toZ m * b.toZ m := by
  have h2 : 2 ≤ m := ha.modulus ▸ ha.two_le
  refine ⟨_, fmul_same (ha.same hb), .ofMod ha.modulus h2 _, ?_⟩
  rw [Fe.toZ_ofMod ha.modulus h2]
  push_cast
  rfl

theorem fpow_inv_in {m : Nat} {a : Fe} (ha : a.In m) :
    (fpow a ((a.m.toNat : Int) - 2)).In m ∧ (fpow a ((a.m.toNat : Int) - 2)).toZ m = a.toZ m ^ (m - 2) := by
  have h2 : 2 ≤ m := ha.modulus ▸ ha.two_le
  rw [fpow_inv_eq ha.two_le]
  refine ⟨.ofMod ha.modulus h2 _, ?_⟩
  rw [Fe.toZ_ofMod ha.modulus h2, ha.modulus]
  push_cast
  rfl

/-- Fermat: in a prime field the power `m - 2` is the inverse (R127). -/
theorem pow_sub_two_eq_inv {m : Nat} [Fact m.Prime] (hm : 3 ≤ m) (z : ZMod m) : z ^ (m - 2) = z⁻¹ := by
  by_cases hz : z = 0
  · rw [hz, inv_zero, zero_pow (by omega)]
  · have h := ZMod.pow_card_sub_one_eq_one hz
    have e : m - 1 = (m - 2) + 1 := by omega
    rw [e, pow_succ] at h
    exact eq_inv_of_mul_eq_one_left h

/-- The same for every prime, away from zero. -/
theorem pow_sub_two_eq_inv' {m : Nat} [hp : Fact m.Prime] {z : ZMod m} (hz : z ≠ 0) : z ^ (m - 2) = z⁻¹ := by
  have h := ZMod.pow_card_sub_one_eq_one hz
  have e : m - 1 = (m - 2) + 1 := by have := hp.out.two_le; omega
  rw [e, pow_succ] at h
  exact eq_inv_of_mul_eq_one_left h

theorem fdiv_in {m : Nat} {a b : Fe} (ha : a.In m) (hb : b.In m) (h0 : b.v ≠ 0) :
    ∃ r, fdiv a b = .ok r ∧ r.In m ∧ r.toZ m = a.toZ m * b.toZ m ^ (m - 2) := by
  obtain ⟨h1, h2⟩ := fpow_inv_in hb
  obtain ⟨r, hr, hin, hz⟩ := fmul_in ha h1
  exact ⟨r, by rw [fdiv_same (ha.same hb) h0, hr], hin, by rw [hz, h2]⟩

theorem fdiv_in_prime {m : Nat} [Fact m.Prime] {a b : Fe} (ha : a.In m) (hb : b.In m) (h0 : b.toZ m ≠ 0) :
    ∃ r, fdiv a b = .ok r ∧ r.In m ∧ r.toZ m = a.toZ m / b.toZ m := by
  obtain ⟨r, hr, hin, hz⟩ := fdiv_in ha hb (fun h => h0 (hb.eq_zero_iff.1 h))
  exact ⟨r, hr, hin, by rw [hz, pow_sub_two_eq_inv' h0, div_eq_mul_inv]⟩

theorem fconst_in {m : Nat} {w : W256} (hw : w.toNat = m) (hm : 2 ≤ m) (k : Nat) :
    (fconst k w).In m ∧ (fconst k w).toZ m = (k : ZMod m) :=
  ⟨.ofMod hw hm k, Fe.toZ_ofMod hw hm k⟩

end Sys2Proof.Machine
end

