-- ==== Sys2Proof/Laws/PointLaw.lean ====
section
/-! SUPPORT. What the group law answers, case by case, in Mathlib's ring `ZMod m` (42_point.md R151 to R159). -/

namespace Sys2Proof.Machine

/-! ### Points over one modulus -/

/-- A legal point over the modulus `m` (R26). -/
structure Pt.In (m : Nat) (q : Pt) : Prop where
  x : q.x.In m
  y : q.y.In m
  a : q.a.In m
  b : q.b.In m
  identity : q.inf = true → q.x.v = 0 ∧ q.y.v = 0

theorem Pt.wf.in {q : Pt} (h : q.wf) : q.In q.a.m.toNat :=
  ⟨⟨by rw [h.1.1], h.2.1.1⟩, ⟨by rw [h.1.2.1], h.2.1.2.1⟩, ⟨rfl, h.2.1.2.2.1⟩, ⟨by rw [h.1.2.2], h.2.1.2.2.2⟩, h.2.2⟩

theorem Pt.In.wf {m : Nat} {q : Pt} (h : q.In m) : q.wf :=
  ⟨⟨h.x.same h.a, h.y.same h.a, h.b.same h.a⟩, ⟨h.x.legal, h.y.legal, h.a.legal, h.b.legal⟩, h.identity⟩

theorem Pt.In.two_le {m : Nat} {q : Pt} (h : q.In m) : 2 ≤ m := h.a.modulus ▸ h.a.two_le

theorem Pt.wf_of_curve {m : Nat} {q r : Pt} (hq : q.In m) (hr : r.wf) (ha : r.a = q.a) : r.In m := by
  have h := hr.in
  rwa [ha, hq.a.modulus] at h

/-- The identity of curve `(a, b)` (R150, R154). -/
def Pt.identity (a b : Fe) : Pt := ⟨true, ⟨0, a.m⟩, ⟨0, a.m⟩, a, b⟩

theorem Pt.identity_in {m : Nat} {a b : Fe} (ha : a.In m) (hb : b.In m) : (Pt.identity a b).In m := by
  have h2 := ha.two_le
  have h0 : Fe.In m ⟨0, a.m⟩ := ⟨ha.modulus, h2, by show (0 : W256).toNat < a.m.toNat; simp; omega⟩
  exact ⟨h0, h0, ha, hb, fun _ => ⟨rfl, rfl⟩⟩

/-- A legal identity is the identity of its curve: its coordinates are stored as zeros (R150). -/
theorem Pt.In.eq_identity {m : Nat} {q : Pt} (h : q.In m) (hi : q.inf = true) : q = Pt.identity q.a q.b := by
  obtain ⟨hx, hy⟩ := h.identity hi
  have hxm := h.x.same h.a
  have hym := h.y.same h.a
  obtain ⟨inf, ⟨xv, xm⟩, ⟨yv, ym⟩, a, b⟩ := q
  simp_all [Pt.identity]

theorem mkinf_same {a b : Fe} (h : a.m = b.m) : mkinf a b = .ok (Pt.identity a b) := by
  simp [mkinf, h, Pt.identity]

theorem mkinf_mismatch {a b : Fe} (h : a.m ≠ b.m) : mkinf a b = .error .fieldMismatch := by
  simp [mkinf, h]

/-! ### The curve equation (R151) -/

theorem oncurve_iff {m : Nat} {q : Pt} (h : q.In m) :
    oncurve q.x q.y q.a q.b = true ↔
      q.y.toZ m ^ 2 = q.x.toZ m ^ 3 + q.a.toZ m * q.x.toZ m + q.b.toZ m := by
  rw [oncurve, beq_iff_eq, h.x.modulus, ← Nat.ModEq, ← ZMod.natCast_eq_natCast_iff]
  push_cast
  simp only [Fe.toZ]
  constructor <;> intro he <;> linear_combination he

/-! ### The chord and the tangent (R156 cases 3 and 4) -/

theorem chord_in {m : Nat} {q : Pt} {x2 s : Fe} (hq : q.In m) (hx : x2.In m) (hs : s.In m) :
    ∃ t, chord q x2 s = .ok t ∧ t.In m ∧ t.inf = false ∧ t.a = q.a ∧ t.b = q.b ∧
      t.x.toZ m = s.toZ m ^ 2 - q.x.toZ m - x2.toZ m ∧
      t.y.toZ m = s.toZ m * (q.x.toZ m - t.x.toZ m) - q.y.toZ m := by
  obtain ⟨u1, e1, i1, z1⟩ := fmul_in hs hs
  obtain ⟨u2, e2, i2, z2⟩ := fsub_in i1 hq.x
  obtain ⟨u3, e3, i3, z3⟩ := fsub_in i2 hx
  obtain ⟨u4, e4, i4, z4⟩ := fsub_in hq.x i3
  obtain ⟨u5, e5, i5, z5⟩ := fmul_in hs i4
  obtain ⟨u6, e6, i6, z6⟩ := fsub_in i5 hq.y
  refine ⟨⟨false, u3, u6, q.a, q.b⟩, by simp [chord, e1, e2, e3, e4, e5, e6],
    ⟨i3, i6, hq.a, hq.b, by simp⟩, rfl, rfl, rfl, ?_, ?_⟩
  · show u3.toZ m = _
    rw [z3, z2, z1]
    ring
  · show u6.toZ m = s.toZ m * (q.x.toZ m - u3.toZ m) - q.y.toZ m
    rw [z6, z5, z4]

theorem tangent_in {m : Nat} {q : Pt} {s : Fe} (hq : q.In m) (hs : s.In m) :
    ∃ t, tangent q s = .ok t ∧ t.In m ∧ t.inf = false ∧ t.a = q.a ∧ t.b = q.b ∧
      t.x.toZ m = s.toZ m ^ 2 - 2 * q.x.toZ m ∧
      t.y.toZ m = s.toZ m * (q.x.toZ m - t.x.toZ m) - q.y.toZ m := by
  obtain ⟨c2, w2⟩ := fconst_in hq.a.modulus hq.two_le 2
  obtain ⟨u1, e1, i1, z1⟩ := fmul_in hs hs
  obtain ⟨u2, e2, i2, z2⟩ := fmul_in c2 hq.x
  obtain ⟨u3, e3, i3, z3⟩ := fsub_in i1 i2
  obtain ⟨u4, e4, i4, z4⟩ := fsub_in hq.x i3
  obtain ⟨u5, e5, i5, z5⟩ := fmul_in hs i4
  obtain ⟨u6, e6, i6, z6⟩ := fsub_in i5 hq.y
  refine ⟨⟨false, u3, u6, q.a, q.b⟩, by simp [tangent, e1, e2, e3, e4, e5, e6],
    ⟨i3, i6, hq.a, hq.b, by simp⟩, rfl, rfl, rfl, ?_, ?_⟩
  · show u3.toZ m = _
    rw [z3, z2, z1, w2]
    push_cast
    ring
  · show u6.toZ m = s.toZ m * (q.x.toZ m - u3.toZ m) - q.y.toZ m
    rw [z6, z5, z4]

/-! ### Addition (R156) -/

theorem ccheck_same {q r : Pt} (ha : q.a = r.a) (hb : q.b = r.b) : ccheck q r = .ok () := by
  simp [ccheck, ha, hb]

theorem padd_mismatch {q r : Pt} (h : q.a ≠ r.a ∨ q.b ≠ r.b) : padd q r = .error .curveMismatch := by
  rw [padd, ccheck, if_pos h, except_error_bind]

theorem padd_inf_left {q r : Pt} (ha : q.a = r.a) (hb : q.b = r.b) (hi : q.inf = true) : padd q r = .ok r := by
  simp [padd, ccheck_same ha hb, hi]

theorem padd_inf_right {q r : Pt} (ha : q.a = r.a) (hb : q.b = r.b) (hq : q.inf = false) (hi : r.inf = true) :
    padd q r = .ok q := by
  simp [padd, ccheck_same ha hb, hi, hq]

/-- A legal point plus the identity of its curve, on the right. -/
theorem padd_identity_right {m : Nat} {q : Pt} (hq : q.In m) : padd q (Pt.identity q.a q.b) = .ok q := by
  cases hi : q.inf with
  | false => exact padd_inf_right (r := Pt.identity q.a q.b) rfl rfl hi rfl
  | true =>
    have h := padd_inf_left (q := q) (r := Pt.identity q.a q.b) rfl rfl hi
    rwa [← hq.eq_identity hi] at h ⊢

theorem padd_vertical {m : Nat} {q r : Pt} (hin : q.In m) (ha : q.a = r.a) (hb : q.b = r.b)
    (hq : q.inf = false) (hr : r.inf = false) (hx : q.x = r.x) (hy : q.y ≠ r.y) :
    padd q r = .ok (Pt.identity q.a q.b) := by
  rw [padd, ccheck_same ha hb, except_ok_bind, hq, hr, if_neg (by simp), if_neg (by simp), if_pos ⟨hx, hy⟩,
    mkinf_same (hin.a.same hin.b)]

theorem padd_chord {m : Nat} {q r : Pt} (hqi : q.In m) (hri : r.In m) (ha : q.a = r.a) (hb : q.b = r.b)
    (hq : q.inf = false) (hr : r.inf = false) (hx : q.x ≠ r.x) :
    ∃ t s, padd q r = .ok t ∧ t.In m ∧ t.inf = false ∧ t.a = q.a ∧ t.b = q.b ∧
      s = (r.y.toZ m - q.y.toZ m) * (r.x.toZ m - q.x.toZ m) ^ (m - 2) ∧
      t.x.toZ m = s ^ 2 - q.x.toZ m - r.x.toZ m ∧
      t.y.toZ m = s * (q.x.toZ m - t.x.toZ m) - q.y.toZ m := by
  obtain ⟨dy, e1, i1, z1⟩ := fsub_in hri.y hqi.y
  obtain ⟨dx, e2, i2, z2⟩ := fsub_in hri.x hqi.x
  have h0 : dx.v ≠ 0 := fun h => hx (hqi.x.ext hri.x (by
    have := i2.eq_zero_iff.1 h
    rw [z2, sub_eq_zero] at this
    exact this.symm))
  obtain ⟨s, e3, i3, z3⟩ := fdiv_in i1 i2 h0
  obtain ⟨t, e4, i4, t1, t2, t3, t4, t5⟩ := chord_in hqi hri.x i3
  refine ⟨t, s.toZ m, ?_, i4, t1, t2, t3, by rw [z3, z1, z2], t4, t5⟩
  rw [padd, ccheck_same ha hb, except_ok_bind, hq, hr, if_neg (by simp), if_neg (by simp),
    if_neg (by simp [hx]), if_pos hx, e1, except_ok_bind, e2, except_ok_bind, e3, except_ok_bind, e4]

theorem padd_vertical_tangent {m : Nat} {q : Pt} (hin : q.In m) (hq : q.inf = false) (hy : q.y.v = 0) :
    padd q q = .ok (Pt.identity q.a q.b) := by
  rw [padd, ccheck_same rfl rfl, except_ok_bind, hq, if_neg (by simp), if_neg (by simp),
    if_neg (by simp), if_neg (by simp), if_pos hy, mkinf_same (hin.a.same hin.b)]

theorem padd_tangent {m : Nat} {q : Pt} (hin : q.In m) (hq : q.inf = false) (hy : q.y.v ≠ 0) :
    (2 * q.y.toZ m = 0 ∧ padd q q = .error .divisionByZero) ∨
    (2 * q.y.toZ m ≠ 0 ∧ ∃ t s, padd q q = .ok t ∧ t.In m ∧ t.inf = false ∧ t.a = q.a ∧ t.b = q.b ∧
      s = (3 * q.x.toZ m ^ 2 + q.a.toZ m) * (2 * q.y.toZ m) ^ (m - 2) ∧
      t.x.toZ m = s ^ 2 - 2 * q.x.toZ m ∧
      t.y.toZ m = s * (q.x.toZ m - t.x.toZ m) - q.y.toZ m) := by
  obtain ⟨c2, w2⟩ := fconst_in hin.a.modulus hin.two_le 2
  obtain ⟨c3, w3⟩ := fconst_in hin.a.modulus hin.two_le 3
  obtain ⟨u1, e1, i1, z1⟩ := fmul_in hin.x hin.x
  obtain ⟨u2, e2, i2, z2⟩ := fmul_in c3 i1
  obtain ⟨u3, e3, i3, z3⟩ := fadd_in i2 hin.a
  obtain ⟨u4, e4, i4, z4⟩ := fmul_in c2 hin.y
  have hz4 : u4.toZ m = 2 * q.y.toZ m := by rw [z4, w2]; push_cast; rfl
  have hpadd : padd q q = (fdiv u3 u4 >>= fun s => tangent q s) := by
    rw [padd, ccheck_same rfl rfl, except_ok_bind, hq, if_neg (by simp), if_neg (by simp),
      if_neg (by simp), if_neg (by simp), if_neg hy, e1, except_ok_bind, e2, except_ok_bind, e3,
      except_ok_bind, e4, except_ok_bind]
  by_cases h0 : 2 * q.y.toZ m = 0
  · refine .inl ⟨h0, ?_⟩
    rw [hpadd, fdiv_zero (i3.same i4) (i4.eq_zero_iff.2 (by rw [hz4, h0])), except_error_bind]
  · refine .inr ⟨h0, ?_⟩
    obtain ⟨s, e5, i5, z5⟩ := fdiv_in i3 i4 (fun h => h0 (by rw [← hz4]; exact i4.eq_zero_iff.1 h))
    obtain ⟨t, e6, i6, t1, t2, t3, t4, t5⟩ := tangent_in hin i5
    refine ⟨t, s.toZ m, by rw [hpadd, e5, except_ok_bind, e6], i6, t1, t2, t3, ?_, t4, t5⟩
    rw [z5, hz4, z3, z2, z1, w3]
    push_cast
    ring

/-- What addition can answer on legal points (R156): a legal point of the same curve, `CURVE_MISMATCH` on
two curves, or `DIVISION_BY_ZERO` where a doubling meets `2 * y = 0` with `y` not zero. -/
theorem padd_cases {q r : Pt} (hq : q.wf) (hr : r.wf) :
    (∃ t, padd q r = .ok t ∧ t.wf ∧ t.a = q.a ∧ t.b = q.b ∧ q.a = r.a ∧ q.b = r.b) ∨
    (padd q r = .error .curveMismatch ∧ (q.a ≠ r.a ∨ q.b ≠ r.b)) ∨
    (padd q r = .error .divisionByZero ∧ q.a = r.a ∧ q.b = r.b ∧ q.inf = false ∧ q.y.v ≠ 0 ∧
      2 * q.y.toZ q.a.m.toNat = 0) := by
  by_cases hc : q.a ≠ r.a ∨ q.b ≠ r.b
  · exact .inr (.inl ⟨padd_mismatch hc, hc⟩)
  obtain ⟨ha, hb⟩ : q.a = r.a ∧ q.b = r.b := by simpa using hc
  have hqi := hq.in
  have hri := Pt.wf_of_curve hqi hr ha.symm
  cases hqinf : q.inf with
  | true => exact .inl ⟨r, padd_inf_left ha hb hqinf, hr, ha.symm, hb.symm, ha, hb⟩
  | false =>
    cases hrinf : r.inf with
    | true => exact .inl ⟨q, padd_inf_right ha hb hqinf hrinf, hq, rfl, rfl, ha, hb⟩
    | false =>
      by_cases hx : q.x = r.x
      · by_cases hy : q.y = r.y
        · have hqr : q = r := by
            obtain ⟨i, x, y, a, b⟩ := q
            obtain ⟨i', x', y', a', b'⟩ := r
            simp_all
          subst hqr
          by_cases h0 : q.y.v = 0
          · exact .inl ⟨_, padd_vertical_tangent hqi hqinf h0, (Pt.identity_in hqi.a hqi.b).wf, rfl, rfl, rfl, rfl⟩
          · rcases padd_tangent hqi hqinf h0 with ⟨hz, he⟩ | ⟨-, t, -, he, hin, -, h1, h2, -⟩
            · exact .inr (.inr ⟨he, rfl, rfl, rfl, h0, hz⟩)
            · exact .inl ⟨t, he, hin.wf, h1, h2, rfl, rfl⟩
        · exact .inl ⟨_, padd_vertical hqi ha hb hqinf hrinf hx hy, (Pt.identity_in hqi.a hqi.b).wf, rfl, rfl, ha, hb⟩
      · obtain ⟨t, -, he, hin, -, h1, h2, -⟩ := padd_chord hqi hri ha hb hqinf hrinf hx
        exact .inl ⟨t, he, hin.wf, h1, h2, ha, hb⟩

/-- Over an odd modulus a doubling never divides by zero (R156). -/
theorem two_mul_ne_zero {m : Nat} {e : Fe} (he : e.In m) (hodd : m % 2 = 1) (h0 : e.v ≠ 0) :
    2 * e.toZ m ≠ 0 := by
  intro h
  apply h0
  rw [he.eq_zero_iff]
  have hu : IsUnit ((2 : Nat) : ZMod m) := by
    rw [ZMod.isUnit_iff_coprime]
    exact (Nat.coprime_two_left.2 (Nat.odd_iff.2 hodd))
  exact (hu.mul_right_eq_zero).1 (by push_cast; exact h)

end Sys2Proof.Machine
end

