-- ==== Sys2Proof/Laws/Group.lean ====
section
/-! SUPPORT. The group law of the machine is Mathlib's on every curve over an odd prime field (42_point.md R156, R158, R159, R171). -/

namespace Sys2Proof.Machine

open WeierstrassCurve.Affine

section
variable {m : Nat} {A B : ZMod m}

/-! ### Standing for a point -/

theorem Pt.Represents.in {q : Pt} {g : (shortCurve m A B).Point} (h : q.Represents g) : q.In m := by
  have := h.1.in
  rwa [h.2.1] at this

theorem shortCurve_equation_iff (x y : ZMod m) :
    (shortCurve m A B).Equation x y ↔ y ^ 2 = x ^ 3 + A * x + B := by
  rw [WeierstrassCurve.Affine.equation_iff]
  simp [shortCurve]

theorem shortCurve_negY (x y : ZMod m) : (shortCurve m A B).negY x y = -y := by
  simp [shortCurve, WeierstrassCurve.Affine.negY]

/-- Two values that stand for points of one curve name the same curve. -/
theorem Pt.Represents.curve {q r : Pt} {g h : (shortCurve m A B).Point} (hq : q.Represents g)
    (hr : r.Represents h) : q.a = r.a ∧ q.b = r.b :=
  ⟨hq.in.a.ext hr.in.a (hq.2.2.1.trans hr.2.2.1.symm), hq.in.b.ext hr.in.b (hq.2.2.2.1.trans hr.2.2.2.1.symm)⟩

/-- A value stands for one point only. -/
theorem Pt.Represents.unique {q : Pt} {g h : (shortCurve m A B).Point} (hg : q.Represents g)
    (hh : q.Represents h) : g = h := by
  obtain ⟨-, -, -, -, hg⟩ := hg
  obtain ⟨-, -, -, -, hh⟩ := hh
  cases g <;> cases h <;> simp_all

/-- A point has one value only. -/
theorem Pt.Represents.inj {q r : Pt} {g : (shortCurve m A B).Point} (hq : q.Represents g)
    (hr : r.Represents g) : q = r := by
  obtain ⟨ha, hb⟩ := hq.curve hr
  have hqi := hq.in
  have hri := hr.in
  have h1 := hq.2.2.2.2
  have h2 := hr.2.2.2.2
  cases g with
  | zero =>
    rw [hqi.eq_identity h1, hri.eq_identity h2, ha, hb]
  | some x y hxy =>
    obtain ⟨i1, x1, y1⟩ := h1
    obtain ⟨i2, x2, y2⟩ := h2
    have hx := hqi.x.ext hri.x (x1.trans x2.symm)
    have hy := hqi.y.ext hri.y (y1.trans y2.symm)
    obtain ⟨i, x, y, a, b⟩ := q
    obtain ⟨i', x', y', a', b'⟩ := r
    simp_all

theorem Pt.Represents.identity {q : Pt} {g : (shortCurve m A B).Point} (hq : q.Represents g) :
    (Pt.identity q.a q.b).Represents (0 : (shortCurve m A B).Point) := by
  obtain ⟨-, h2, h3, h4, -⟩ := id hq
  exact ⟨(Pt.identity_in hq.in.a hq.in.b).wf, h2, h3, h4, rfl⟩

theorem Pt.Represents.inf_iff {q : Pt} {g : (shortCurve m A B).Point} (hq : q.Represents g) :
    q.inf = true ↔ g = 0 := by
  obtain ⟨-, -, -, -, h⟩ := hq
  cases g with
  | zero => simp [h, Point.zero_def]
  | some x y hxy => simp [h.1]

/-! ### Addition (R156) -/

theorem padd_represents [Fact m.Prime] (hodd : m % 2 = 1) {q r : Pt} {g h : (shortCurve m A B).Point}
    (hq : q.Represents g) (hr : r.Represents h) : ∃ t, padd q r = .ok t ∧ t.Represents (g + h) := by
  obtain ⟨hca, hcb⟩ := hq.curve hr
  have hqi := hq.in
  have hri := hr.in
  cases g with
  | zero =>
    refine ⟨r, padd_inf_left hca hcb hq.2.2.2.2, ?_⟩
    rwa [← Point.zero_def, zero_add]
  | some x1 y1 n1 =>
    obtain ⟨qi, qx, qy⟩ := hq.2.2.2.2
    cases h with
    | zero =>
      refine ⟨q, padd_inf_right hca hcb qi hr.2.2.2.2, ?_⟩
      rwa [← Point.zero_def, add_zero]
    | some x2 y2 n2 =>
      obtain ⟨ri, rx, ry⟩ := hr.2.2.2.2
      by_cases hx : q.x = r.x
      · have hx12 : x1 = x2 := by rw [← qx, ← rx, hx]
        by_cases hy : q.y = r.y
        · have hqr : q = r := by
            obtain ⟨i, x, y, a, b⟩ := q
            obtain ⟨i', x', y', a', b'⟩ := r
            simp_all
          subst hqr
          have hy12 : y1 = y2 := by rw [← qy, ← ry]
          subst hx12 hy12
          by_cases h0 : q.y.v = 0
          · refine ⟨_, padd_vertical_tangent hqi qi h0, ?_⟩
            have hy0 : y1 = 0 := by rw [← qy]; exact hqi.y.eq_zero_iff.1 h0
            rw [Point.add_self_of_Y_eq (by rw [shortCurve_negY, hy0, neg_zero])]
            exact hq.identity
          · have h2 := two_mul_ne_zero hqi.y hodd h0
            rw [qy] at h2
            rcases padd_tangent hqi qi h0 with ⟨hz, -⟩ | ⟨-, t, s, he, hin, ti, ta, tb, hs, hX, hY⟩
            · exact absurd hz (by rwa [qy])
            have hne : y1 ≠ (shortCurve m A B).negY x1 y1 := by
              rw [shortCurve_negY]
              intro h
              exact h2 (by linear_combination h)
            refine ⟨t, he, hin.wf, by rw [ta]; exact hq.2.1, by rw [ta]; exact hq.2.2.1,
              by rw [tb]; exact hq.2.2.2.1, ?_⟩
            rw [Point.add_self_of_Y_ne hne]
            have hslope : (shortCurve m A B).slope x1 x1 y1 y1 = s := by
              rw [WeierstrassCurve.Affine.slope_of_Y_ne rfl hne, hs, qx, qy, hq.2.2.1,
                pow_sub_two_eq_inv' h2, shortCurve_negY, div_eq_mul_inv]
              simp only [shortCurve]
              congr 1 <;> ring
            refine ⟨ti, ?_, ?_⟩
            · rw [hX, WeierstrassCurve.Affine.addX, hslope, qx]
              simp only [shortCurve]
              ring
            · rw [hY, hX, WeierstrassCurve.Affine.addY, shortCurve_negY, WeierstrassCurve.Affine.negAddY,
                WeierstrassCurve.Affine.addX, hslope, qx, qy]
              simp only [shortCurve]
              ring
        · refine ⟨_, padd_vertical hqi hca hcb qi ri hx hy, ?_⟩
          have hy12 : y1 ≠ y2 := by
            rw [← qy, ← ry]
            exact fun h => hy (hqi.y.ext hri.y h)
          have hneg := (WeierstrassCurve.Affine.Y_eq_of_X_eq n1.1 n2.1 hx12).resolve_left hy12
          rw [Point.add_of_Y_eq hx12 hneg]
          exact hq.identity
      · have hx12 : x1 ≠ x2 := by
          rw [← qx, ← rx]
          exact fun h => hx (hqi.x.ext hri.x h)
        obtain ⟨t, s, he, hin, ti, ta, tb, hs, hX, hY⟩ := padd_chord hqi hri hca hcb qi ri hx
        refine ⟨t, he, hin.wf, by rw [ta]; exact hq.2.1, by rw [ta]; exact hq.2.2.1,
          by rw [tb]; exact hq.2.2.2.1, ?_⟩
        rw [Point.add_of_X_ne hx12]
        have hslope : (shortCurve m A B).slope x1 x2 y1 y2 = s := by
          rw [WeierstrassCurve.Affine.slope_of_X_ne hx12, hs, qx, qy, rx, ry,
            pow_sub_two_eq_inv' (sub_ne_zero.2 (Ne.symm hx12)), ← div_eq_mul_inv, ← neg_sub y1 y2,
            ← neg_sub x1 x2, neg_div_neg_eq]
        refine ⟨ti, ?_, ?_⟩
        · rw [hX, WeierstrassCurve.Affine.addX, hslope, qx, rx]
          simp only [shortCurve]
          ring
        · rw [hY, hX, WeierstrassCurve.Affine.addY, shortCurve_negY, WeierstrassCurve.Affine.negAddY,
            WeierstrassCurve.Affine.addX, hslope, qx, qy, rx]
          simp only [shortCurve]
          ring

/-! ### Negation (R158) -/

theorem pneg_represents {q : Pt} {g : (shortCurve m A B).Point} (hq : q.Represents g) :
    (pneg q).Represents (-g) := by
  have hqi := hq.in
  cases g with
  | zero =>
    have hi : q.inf = true := hq.2.2.2.2
    rw [pneg, if_pos hi]
    exact hq
  | some x y n =>
    obtain ⟨qi, qx, qy⟩ := hq.2.2.2.2
    obtain ⟨hw, hm, ha, hb, -⟩ := id hq
    have h2 := hqi.two_le
    rw [pneg, if_neg (by simp [qi]), Point.neg_some]
    refine ⟨?_, hm, ha, hb, qi, qx, ?_⟩
    · have hy : Fe.In m ⟨BitVec.ofNat 256 ((0 - (q.y.v.toNat : Int)) % q.a.m.toNat).toNat, q.a.m⟩ :=
        ⟨hm, wf_emod hqi.a.two_le _⟩
      have hin : Pt.In m { q with y := ⟨_, q.a.m⟩ } := ⟨hqi.x, hy, hqi.a, hqi.b, fun h => by simp [qi] at h⟩
      exact hin.wf
    · show Fe.toZ m ⟨_, _⟩ = _
      rw [Fe.toZ_ofEmod hm h2, shortCurve_negY, ← qy]
      push_cast
      rw [zero_sub]
      rfl

/-! ### Scalar multiplication (R159) -/

theorem pmulLoop_represents [Fact m.Prime] (hodd : m % 2 = 1) (fuel : Nat) {result current : Pt} {coef : Nat}
    {g h : (shortCurve m A B).Point} (hr : result.Represents g) (hc : current.Represents h)
    (hk : coef < 2 ^ fuel) : ∃ t, pmulLoop fuel result current coef = .ok t ∧ t.Represents (g + coef • h) := by
  induction fuel generalizing result current coef g h with
  | zero =>
    have h0 : coef = 0 := by omega
    subst h0
    exact ⟨result, rfl, by rwa [zero_nsmul, add_zero]⟩
  | succ fuel ih =>
    rw [pmulLoop]
    split
    · rename_i h0
      subst h0
      exact ⟨result, rfl, by rwa [zero_nsmul, add_zero]⟩
    · obtain ⟨u, hu, hur⟩ := padd_represents hodd hc hc
      obtain ⟨v, hv, hvr⟩ : ∃ v, (if coef % 2 = 1 then padd result current else .ok result) = .ok v ∧
          v.Represents (g + (coef % 2) • h) := by
        rcases Nat.mod_two_eq_zero_or_one coef with h2 | h2
        · exact ⟨result, by rw [if_neg (by omega)], by rwa [h2, zero_nsmul, add_zero]⟩
        · obtain ⟨v, hv, hvr⟩ := padd_represents hodd hr hc
          exact ⟨v, by rw [if_pos h2, hv], by rwa [h2, one_nsmul]⟩
      obtain ⟨t, ht, htr⟩ := ih (coef := coef / 2) hvr hur (by omega)
      refine ⟨t, by rw [hv, except_ok_bind, hu, except_ok_bind, ht], ?_⟩
      have hsum : g + coef • h = g + (coef % 2) • h + (coef / 2) • (h + h) := by
        rw [← two_nsmul, ← mul_nsmul, add_assoc, ← add_nsmul, Nat.mod_add_div]
      rw [hsum]
      exact htr

theorem pmul_represents [Fact m.Prime] (hodd : m % 2 = 1) {q : Pt} {k : Nat} {g : (shortCurve m A B).Point}
    (hq : q.Represents g) (hk : k < 2 ^ 256) : ∃ t, pmul q k = .ok t ∧ t.Represents (k • g) := by
  have hqi := hq.in
  obtain ⟨t, ht, htr⟩ := pmulLoop_represents hodd 256 hq.identity hq hk
  refine ⟨t, by rw [pmul, mkinf_same (hqi.a.same hqi.b), except_ok_bind, ht], ?_⟩
  rwa [zero_add] at htr

end

end Sys2Proof.Machine
end

