-- ==== Sys2Proof/Laws/Order.lean ====
section
/-! SUPPORT. The generator's order, evaluated without a division: a ladder in Jacobian coordinates `x = X / Z^2`, `y = Y / Z^3` over the points of Mathlib's curve (43_secp256k1.md R182). -/

namespace Sys2Proof.Machine

open WeierstrassCurve.Affine

/-- A point in Jacobian coordinates. -/
structure Jac where
  x : Int
  y : Int
  z : Int

/-- The coordinates stand for the affine point `(u, v)`. -/
def Jac.Is (j : Jac) (u v : ZMod secpP) : Prop :=
  (j.z : ZMod secpP) ≠ 0 ∧ (j.x : ZMod secpP) = u * (j.z : ZMod secpP) ^ 2 ∧
    (j.y : ZMod secpP) = v * (j.z : ZMod secpP) ^ 3

/-- Doubling on a curve with `a = 0`; none where the tangent is vertical. -/
def Jac.double (j : Jac) : Option Jac :=
  if j.y % secpP = 0 then none
  else
    let yy := j.y * j.y % secpP
    let s := 4 * j.x * yy % secpP
    let m := 3 * j.x * j.x % secpP
    let x3 := (m * m - 2 * s) % secpP
    some ⟨x3, (m * (s - x3) - 8 * yy * yy) % secpP, 2 * j.y * j.z % secpP⟩

/-- Adding the affine point `(u, v)`; none where the two have one x-coordinate. -/
def Jac.addAffine (j : Jac) (u v : Int) : Option Jac :=
  let zz := j.z * j.z % secpP
  let h := (u * zz - j.x) % secpP
  let r := (v * (zz * j.z % secpP) - j.y) % secpP
  if h = 0 then none
  else
    let hh := h * h % secpP
    let hhh := h * hh % secpP
    let w := j.x * hh % secpP
    let x3 := (r * r - hhh - 2 * w) % secpP
    some ⟨x3, (r * (w - x3) - j.y * hhh) % secpP, j.z * h % secpP⟩

/-- Double-and-add, most significant bit first, from a point already started. -/
def Jac.ladder (u v : Int) : List Bool → Jac → Option Jac
  | [], j => some j
  | bit :: rest, j =>
    match j.double with
    | none => none
    | some d =>
      match (if bit then d.addAffine u v else some d) with
      | none => none
      | some e => Jac.ladder u v rest e

section
variable [Fact secpP.Prime]

theorem two_ne_zero_secp : (2 : ZMod secpP) ≠ 0 := by
  have h : ((2 : Nat) : ZMod secpP) ≠ 0 := by
    rw [Ne, ZMod.natCast_eq_zero_iff]
    decide +kernel
  exact_mod_cast h

theorem intCast_mod_secp (k : Int) : ((k % (secpP : Int) : Int) : ZMod secpP) = (k : ZMod secpP) :=
  ZMod.intCast_mod k secpP

theorem Jac.double_is {j d : Jac} {x y : ZMod secpP} {n : (shortCurve secpP 0 7).Nonsingular x y}
    (hj : j.Is x y) (hd : j.double = some d) :
    ∃ x' y', ∃ n', Point.some x y n + Point.some x y n = (Point.some x' y' n' : (shortCurve secpP 0 7).Point) ∧
      d.Is x' y' := by
  obtain ⟨hz, hx, hy⟩ := hj
  unfold Jac.double at hd
  split at hd
  · cases hd
  rename_i hy0
  have hy1 : (j.y : ZMod secpP) ≠ 0 := fun h => hy0 (Int.emod_eq_zero_of_dvd ((ZMod.intCast_zmod_eq_zero_iff_dvd _ _).1 h))
  have hv : y ≠ 0 := fun h => hy1 (by rw [hy, h, zero_mul])
  have h2y : 2 * y ≠ 0 := mul_ne_zero two_ne_zero_secp hv
  have hne : y ≠ (shortCurve secpP 0 7).negY x y := by
    rw [shortCurve_negY]
    intro h
    exact h2y (by linear_combination h)
  refine ⟨_, _, _, Point.add_self_of_Y_ne hne, ?_⟩
  have hslope : (shortCurve secpP 0 7).slope x x y y = 3 * x ^ 2 / (2 * y) := by
    rw [WeierstrassCurve.Affine.slope_of_Y_ne rfl hne, shortCurve_negY]
    simp only [shortCurve]
    congr 1 <;> ring
  simp only [Option.some.injEq] at hd
  subst hd
  simp only [Jac.Is, intCast_mod_secp, WeierstrassCurve.Affine.addY, shortCurve_negY,
    WeierstrassCurve.Affine.negAddY, WeierstrassCurve.Affine.addX, hslope]
  push_cast [intCast_mod_secp]
  simp only [hx, hy, shortCurve]
  have h2 := two_ne_zero_secp
  refine ⟨by simp [h2, hv, hz], ?_, ?_⟩
  · field_simp
    ring
  · field_simp
    ring

theorem Jac.addAffine_is {j d : Jac} {x y u v : ZMod secpP} {a b : Int}
    {n : (shortCurve secpP 0 7).Nonsingular x y} {n' : (shortCurve secpP 0 7).Nonsingular u v}
    (ha : (a : ZMod secpP) = u) (hb : (b : ZMod secpP) = v) (hj : j.Is x y) (hd : j.addAffine a b = some d) :
    ∃ x' y', ∃ n'', Point.some x y n + Point.some u v n' = (Point.some x' y' n'' : (shortCurve secpP 0 7).Point) ∧
      d.Is x' y' := by
  obtain ⟨hz, hx, hy⟩ := hj
  simp only [Jac.addAffine] at hd
  split at hd
  · cases hd
  rename_i hh
  have h0 : ((a * (j.z * j.z % secpP) - j.x : Int) : ZMod secpP) ≠ 0 := fun h =>
    hh (Int.emod_eq_zero_of_dvd ((ZMod.intCast_zmod_eq_zero_iff_dvd _ _).1 h))
  push_cast [intCast_mod_secp] at h0
  rw [hx, ha] at h0
  have hxu : x ≠ u := fun h => h0 (by rw [h]; ring)
  have hxu' : x - u ≠ 0 := sub_ne_zero.2 hxu
  have hux' : u - x ≠ 0 := sub_ne_zero.2 hxu.symm
  refine ⟨_, _, _, Point.add_of_X_ne hxu, ?_⟩
  simp only [Option.some.injEq] at hd
  subst hd
  simp only [Jac.Is, intCast_mod_secp, WeierstrassCurve.Affine.addY, shortCurve_negY,
    WeierstrassCurve.Affine.negAddY, WeierstrassCurve.Affine.addX, WeierstrassCurve.Affine.slope_of_X_ne hxu]
  push_cast [intCast_mod_secp]
  simp only [hx, hy, ha, hb, shortCurve]
  have e : u * ((j.z : ZMod secpP) * j.z) - x * (j.z : ZMod secpP) ^ 2 = (u - x) * (j.z : ZMod secpP) ^ 2 := by ring
  have es : (y - v) / (x - u) = (v - y) / (u - x) := by rw [← neg_sub v y, ← neg_sub u x, neg_div_neg_eq]
  rw [e, es]
  refine ⟨by simp [hux', hz], ?_, ?_⟩
  · field_simp
    ring
  · field_simp
    ring

/-- What the ladder reaches, in the group: `2^len * k + the bits` times the point added. -/
theorem Jac.ladder_is {a b : Int} {u v : ZMod secpP} {n' : (shortCurve secpP 0 7).Nonsingular u v}
    (ha : (a : ZMod secpP) = u) (hb : (b : ZMod secpP) = v) (bits : List Bool) {j e : Jac}
    {x y : ZMod secpP} {n : (shortCurve secpP 0 7).Nonsingular x y} {k : Nat}
    (hk : Point.some x y n = k • (Point.some u v n' : (shortCurve secpP 0 7).Point)) (hj : j.Is x y)
    (he : Jac.ladder a b bits j = some e) :
    ∃ x' y', ∃ n'', (Point.some x' y' n'' : (shortCurve secpP 0 7).Point) =
      (bits.foldl (fun acc bit => 2 * acc + bit.toNat) k) • Point.some u v n' ∧ e.Is x' y' := by
  induction bits generalizing j x y k with
  | nil =>
    simp only [Jac.ladder, Option.some.injEq] at he
    exact ⟨x, y, n, hk, he ▸ hj⟩
  | cons bit rest ih =>
    rw [Jac.ladder] at he
    split at he
    · cases he
    rename_i d hd
    obtain ⟨x2, y2, n2, hsum, hd2⟩ := Jac.double_is (n := n) hj hd
    have h2 : Point.some x2 y2 n2 = (2 * k) • (Point.some u v n' : (shortCurve secpP 0 7).Point) := by
      rw [← hsum, hk, ← add_nsmul, two_mul]
    cases bit with
    | false =>
      simp only [Bool.false_eq_true, if_false] at he
      exact ih h2 hd2 he
    | true =>
      simp only [if_true] at he
      split at he
      · cases he
      rename_i f hf
      obtain ⟨x3, y3, n3, hsum3, hf3⟩ := Jac.addAffine_is (n := n2) (n' := n') ha hb hd2 hf
      have h3 : Point.some x3 y3 n3 = (2 * k + 1) • (Point.some u v n' : (shortCurve secpP 0 7).Point) := by
        rw [← hsum3, h2, add_nsmul, one_nsmul]
      exact ih h3 hf3 he

end

/-- The bits of `n - 1` below its most significant one. -/
def orderBits : List Bool := ((List.range 255).map fun i => (secpN - 1).testBit (254 - i))

/-- The ladder's end for `n - 1`: the generator negated. -/
theorem orderLadder : ∃ e, Jac.ladder secpGx secpGy orderBits ⟨secpGx, secpGy, 1⟩ = some e ∧
    (e.z % secpP ≠ 0 ∧ (e.x - secpGx * e.z ^ 2) % secpP = 0 ∧ (e.y + secpGy * e.z ^ 3) % secpP = 0) := by
  have h : (match Jac.ladder secpGx secpGy orderBits ⟨secpGx, secpGy, 1⟩ with
    | none => false
    | some e => e.z % secpP != 0 && (e.x - secpGx * e.z ^ 2) % secpP == 0
        && (e.y + secpGy * e.z ^ 3) % secpP == 0) = true := by decide +kernel
  split at h
  · cases h
  · rename_i e he
    exact ⟨e, he, by simpa [and_assoc] using h⟩

theorem orderBits_value : orderBits.foldl (fun acc bit => 2 * acc + bit.toNat) 1 = secpN - 1 := by decide +kernel

/-- `n` times the generator is the identity (R182). -/
theorem secpN_smul_generator [Fact secpP.Prime]
    {n : (shortCurve secpP 0 7).Nonsingular (secpGx : ZMod secpP) (secpGy : ZMod secpP)} :
    secpN • (Point.some _ _ n : (shortCurve secpP 0 7).Point) = 0 := by
  obtain ⟨e, he, hz, hx, hy⟩ := orderLadder
  have hstart : Jac.Is ⟨secpGx, secpGy, 1⟩ (secpGx : ZMod secpP) (secpGy : ZMod secpP) := by
    refine ⟨?_, ?_, ?_⟩ <;> simp
  obtain ⟨x', y', n', hsum, hz', hx', hy'⟩ := Jac.ladder_is (u := (secpGx : ZMod secpP)) (v := (secpGy : ZMod secpP))
    (n' := n) (n := n) (k := 1) (by simp) (by simp) orderBits (by rw [one_nsmul]) hstart he
  rw [orderBits_value] at hsum
  have ex : ((e.x - secpGx * e.z ^ 2 : Int) : ZMod secpP) = 0 := by
    rw [ZMod.intCast_zmod_eq_zero_iff_dvd]
    exact Int.dvd_of_emod_eq_zero hx
  have ey : ((e.y + secpGy * e.z ^ 3 : Int) : ZMod secpP) = 0 := by
    rw [ZMod.intCast_zmod_eq_zero_iff_dvd]
    exact Int.dvd_of_emod_eq_zero hy
  push_cast at ex ey
  rw [hx', ← sub_mul] at ex
  rw [hy', ← add_mul] at ey
  have gx : x' = secpGx := sub_eq_zero.1 ((mul_eq_zero.1 ex).resolve_right (pow_ne_zero _ hz'))
  have gy : y' = -secpGy := eq_neg_of_add_eq_zero_left ((mul_eq_zero.1 ey).resolve_right (pow_ne_zero _ hz'))
  have hneg : Point.some x' y' n' = -(Point.some _ _ n : (shortCurve secpP 0 7).Point) := by
    rw [Point.neg_some, Point.some.injEq]
    exact ⟨gx, by rw [shortCurve_negY, gy]⟩
  have hn : secpN = (secpN - 1) + 1 := by decide +kernel
  rw [hn, add_nsmul, one_nsmul, ← hsum, hneg, neg_add_cancel]

end Sys2Proof.Machine
end

