-- ==== Sys2Proof/Laws/Secp.lean ====
section
/-! SUPPORT. secp256k1: its points are Mathlib's, the generator has order `n`, and the scalar multiplication is the group's (43_secp256k1.md R180 to R188). -/

namespace Sys2Proof.Machine

open WeierstrassCurve.Affine

set_option Elab.async false

/-! ### The field (R180) -/

theorem toNat_secpP : (BitVec.ofNat 256 secpP).toNat = secpP := by decide +kernel

theorem secpFe_in {v : Nat} (h : v < secpP) : (secpFe v).In secpP := by
  refine ⟨toNat_secpP, ?_, ?_⟩
  · show 2 ≤ (BitVec.ofNat 256 secpP).toNat
    rw [toNat_secpP]
    decide +kernel
  · show (BitVec.ofNat 256 v).toNat < (BitVec.ofNat 256 secpP).toNat
    rw [toNat_secpP, BitVec.toNat_ofNat]
    exact lt_of_le_of_lt (Nat.mod_le _ _) h

theorem toNat_secpFe {v : Nat} (h : v < secpP) : (secpFe v).v.toNat = v := by
  show (BitVec.ofNat 256 v).toNat = v
  have : secpP < 2 ^ 256 := by decide +kernel
  rw [BitVec.toNat_ofNat, Nat.mod_eq_of_lt (by omega)]

theorem toZ_secpFe {v : Nat} (h : v < secpP) : (secpFe v).toZ secpP = (v : ZMod secpP) := by
  rw [Fe.toZ, toNat_secpFe h]

theorem issecp_iff {q : Pt} : issecp q = true ↔ q.a = secpFe 0 ∧ q.b = secpFe 7 := by
  simp [issecp]

theorem zero_lt_secpP : 0 < secpP := by decide +kernel

theorem seven_lt_secpP : 7 < secpP := by decide +kernel

theorem secpP_odd : secpP % 2 = 1 := by decide +kernel

/-! ### The curve (R181) -/

/-- secp256k1 has no singular point. -/
theorem secp_nonsingular [Fact secpP.Prime] {x y : ZMod secpP} (h : y ^ 2 = x ^ 3 + 7) :
    (shortCurve secpP 0 7).Nonsingular x y := by
  have hΔ : (shortCurve secpP 0 7).Δ ≠ 0 := by
    have e : (shortCurve secpP 0 7).Δ = -((21168 : Nat) : ZMod secpP) := by
      simp only [shortCurve, WeierstrassCurve.Δ, WeierstrassCurve.b₂, WeierstrassCurve.b₄,
        WeierstrassCurve.b₆, WeierstrassCurve.b₈]
      push_cast
      ring
    rw [e, neg_ne_zero, Ne, ZMod.natCast_eq_zero_iff]
    decide +kernel
  rw [← WeierstrassCurve.Affine.equation_iff_nonsingular_of_Δ_ne_zero hΔ, shortCurve_equation_iff, h]
  ring

/-- A legal secp256k1 point that satisfies the curve equation stands for a point of the curve. -/
theorem secp_represents [Fact secpP.Prime] {q : Pt} (hw : q.wf) (hs : issecp q = true)
    (hc : q.onCurve) : ∃ g : (shortCurve secpP 0 7).Point, q.Represents g := by
  obtain ⟨ha, hb⟩ := issecp_iff.1 hs
  have hin : q.In secpP := by
    have h := hw.in
    rwa [ha, show (secpFe 0).m.toNat = secpP from toNat_secpP] at h
  have h0 : q.a.toZ secpP = 0 := by rw [ha, toZ_secpFe zero_lt_secpP, Nat.cast_zero]
  have h7 : q.b.toZ secpP = 7 := by rw [hb, toZ_secpFe seven_lt_secpP]; rfl
  cases hi : q.inf with
  | true => exact ⟨0, hw, hin.a.modulus, h0, h7, hi⟩
  | false =>
    have he := (oncurve_iff hin).1 (hc hi)
    rw [h0, h7, zero_mul, add_zero] at he
    exact ⟨.some _ _ (secp_nonsingular he), hw, hin.a.modulus, h0, h7, hi, rfl, rfl⟩

theorem Pt.Represents.issecp {q : Pt} {g : (shortCurve secpP 0 7).Point} (h : q.Represents g) :
    issecp q = true := by
  rw [issecp_iff]
  constructor
  · exact h.in.a.ext (secpFe_in zero_lt_secpP) (by rw [h.2.2.1, toZ_secpFe zero_lt_secpP, Nat.cast_zero])
  · exact h.in.b.ext (secpFe_in seven_lt_secpP) (by rw [h.2.2.2.1, toZ_secpFe seven_lt_secpP]; rfl)

/-! ### Scalar multiplication (R185) -/

theorem secpN_lt : secpN < 2 ^ 256 := by decide +kernel

theorem smul_represents [Fact secpP.Prime] {q : Pt} {g : (shortCurve secpP 0 7).Point} (hq : q.Represents g)
    (k : Nat) : ∃ t, smul q k = .ok t ∧ t.Represents ((k % secpN) • g) := by
  have hk : k % secpN < 2 ^ 256 := lt_trans (Nat.mod_lt _ (by decide +kernel)) secpN_lt
  obtain ⟨t, ht, htr⟩ := pmul_represents secpP_odd hq hk
  exact ⟨t, by rw [smul, hq.issecp, if_neg (by simp), ht], htr⟩

/-! ### The generator (R182, R183) -/

theorem secpG_wf : secpG.wf := by
  have h0 := secpFe_in zero_lt_secpP
  have hx : (secpFe secpGx).In secpP := secpFe_in (by decide +kernel)
  have hy : (secpFe secpGy).In secpP := secpFe_in (by decide +kernel)
  have hin : secpG.In secpP := ⟨hx, hy, h0, secpFe_in seven_lt_secpP, fun h => by cases h⟩
  exact hin.wf

theorem secpG_onCurve : secpG.onCurve := fun _ => by decide +kernel

/-- The generator stands for a point of order `n`. -/
theorem secpG_represents [Fact secpP.Prime] :
    ∃ g : (shortCurve secpP 0 7).Point, secpG.Represents g ∧ addOrderOf g = secpN := by
  obtain ⟨g, hg⟩ := secp_represents secpG_wf (by decide +kernel) secpG_onCurve
  have hfact : Fact secpN.Prime := ⟨secpN_prime⟩
  refine ⟨g, hg, addOrderOf_eq_prime ?_ fun h0 => absurd (hg.inf_iff.2 h0) (by decide +kernel)⟩
  cases g with
  | zero => exact absurd (hg.inf_iff.2 rfl) (by decide +kernel)
  | some x y n =>
    obtain ⟨-, hx, hy⟩ := hg.2.2.2.2
    have hx' : x = (secpGx : ZMod secpP) := by rw [← hx]; exact toZ_secpFe (by decide +kernel)
    have hy' : y = (secpGy : ZMod secpP) := by rw [← hy]; exact toZ_secpFe (by decide +kernel)
    subst hx' hy'
    exact secpN_smul_generator

end Sys2Proof.Machine
end

