-- ==== Sys2Proof/Laws/Ecdsa.lean ====
section
/-! SUPPORT. The ECDSA helpers: a secret's key is never the identity, a candidate's signature is in range and low, and it verifies (44_ecdsa.md R205 to R207, R214). -/

namespace Sys2Proof.Machine

open WeierstrassCurve.Affine

set_option Elab.async false

theorem inScalarRange_iff {k : Nat} : inScalarRange k = true ↔ 1 ≤ k ∧ k < secpN := by
  have : 1 ≤ secpN := by decide +kernel
  simp [inScalarRange]
  omega

theorem inScalarRange_false_iff {k : Nat} : inScalarRange k = false ↔ k = 0 ∨ secpN ≤ k := by
  rw [← Bool.not_eq_true, inScalarRange_iff]
  omega

theorem one_lt_secpN : 1 < secpN := by decide +kernel

theorem secpN_odd : secpN % 2 = 1 := by decide +kernel

theorem secpN_lt_secpP : secpN < secpP := by decide +kernel

theorem Pt.Represents.onCurve {m : Nat} {A B : ZMod m} {q : Pt} {g : (shortCurve m A B).Point}
    (h : q.Represents g) : q.onCurve := by
  intro hi
  rw [oncurve_iff h.in]
  have h5 := h.2.2.2.2
  cases g with
  | zero => simp [h5] at hi
  | some x y n =>
    obtain ⟨-, hx, hy⟩ := h5
    rw [hx, hy, h.2.2.1, h.2.2.2.1]
    exact (shortCurve_equation_iff x y).1 n.1

/-! ### Public keys (R187, R205, R210, R211) -/

/-- A multiple of the generator is a point of secp256k1, and the identity exactly when `n` divides the scalar. -/
theorem smul_secpG (k : Nat) : ∃ t, smul secpG k = .ok t ∧ t.wf ∧ issecp t = true ∧ t.onCurve ∧
    (t.inf = true ↔ secpN ∣ k) := by
  have hfact : Fact secpP.Prime := ⟨secpP_prime⟩
  obtain ⟨g, hg, hord⟩ := secpG_represents
  obtain ⟨t, ht, htr⟩ := smul_represents hg k
  refine ⟨t, ht, htr.1, htr.issecp, htr.onCurve, ?_⟩
  rw [htr.inf_iff, ← addOrderOf_dvd_iff_nsmul_eq_zero, hord, ← Nat.dvd_mod_iff dvd_rfl (k := secpN) (m := k)]

theorem smul_secpG_of_range {k : Nat} (h : inScalarRange k = true) :
    ∃ t, smul secpG k = .ok t ∧ t.wf ∧ issecp t = true ∧ t.onCurve ∧ t.inf = false := by
  obtain ⟨h1, h2⟩ := inScalarRange_iff.1 h
  obtain ⟨t, ht, hw, hs, hc, hi⟩ := smul_secpG k
  refine ⟨t, ht, hw, hs, hc, ?_⟩
  rw [← Bool.not_eq_true, hi]
  exact fun hd => absurd (Nat.le_of_dvd (by omega) hd) (by omega)

/-! ### Low s (R206) -/

theorem lows_range {s : Nat} (h0 : s ≠ 0) (hs : s < secpN) : 1 ≤ lows s ∧ lows s ≤ (secpN - 1) / 2 := by
  have := secpN_odd
  unfold lows
  split <;> omega

/-- `s` and `n - s` are one value up to sign. -/
theorem lows_cast {s : Nat} (hs : s < secpN) :
    (lows s : ZMod secpN) = (s : ZMod secpN) ∨ (lows s : ZMod secpN) = -(s : ZMod secpN) := by
  unfold lows
  split
  · right
    rw [Nat.cast_sub hs.le, ZMod.natCast_self, zero_sub]
  · left
    rfl

/-! ### One candidate (R205) -/

/-- What a candidate in range gives: nothing when `r` or `s` is 0, else a pair in range with a low `s`. -/
theorem signCandidate_cases (x z : Nat) {k : Nat} (hk : inScalarRange k = true) :
    ∃ R, smul secpG k = .ok R ∧ R.inf = false ∧
      ((signCandidate x z k = .ok none ∧ (R.x.v.toNat % secpN = 0 ∨
          (z + R.x.v.toNat % secpN * x) * powMod k (secpN - 2) secpN % secpN = 0)) ∨
        ∃ r s, signCandidate x z k = .ok (some (r, lows s)) ∧ r = R.x.v.toNat % secpN ∧
          s = (z + r * x) * powMod k (secpN - 2) secpN % secpN ∧ 1 ≤ r ∧ r < secpN ∧ s ≠ 0 ∧ s < secpN) := by
  obtain ⟨R, hR, -, -, -, hi⟩ := smul_secpG_of_range hk
  refine ⟨R, hR, hi, ?_⟩
  have hn := one_lt_secpN
  rw [signCandidate, hR, except_ok_bind]
  by_cases h1 : R.x.v.toNat % secpN = 0
  · exact .inl ⟨by rw [if_pos h1], .inl h1⟩
  · rw [if_neg h1]
    by_cases h2 : (z + R.x.v.toNat % secpN * x) * powMod k (secpN - 2) secpN % secpN = 0
    · exact .inl ⟨by rw [if_pos h2], .inr h2⟩
    · rw [if_neg h2]
      exact .inr ⟨_, _, rfl, rfl, rfl, Nat.pos_of_ne_zero h1, Nat.mod_lt _ (by omega), h2, Nat.mod_lt _ (by omega)⟩

/-! ### The round trip (R214) -/

theorem cast_inv_secpN [Fact secpN.Prime] (a : Nat) (h : (a : ZMod secpN) ≠ 0) :
    (powMod a (secpN - 2) secpN : ZMod secpN) = (a : ZMod secpN)⁻¹ := by
  rw [powMod_eq a secpN (by have := secpN_lt; omega), ZMod.natCast_mod, Nat.cast_pow, pow_sub_two_eq_inv' h]

theorem cast_ne_zero_secpN {a : Nat} (h1 : 1 ≤ a) (h2 : a < secpN) : (a : ZMod secpN) ≠ 0 := by
  rw [Ne, ZMod.natCast_eq_zero_iff]
  exact fun hd => absurd (Nat.le_of_dvd (by omega) hd) (by omega)

/-- Verifying what signing made comes to the candidate or its negative: `u + v * x = ± k` modulo `n`. -/
theorem verify_scalar [Fact secpN.Prime] {x z k r s0 : Nat} (hk : 1 ≤ k ∧ k < secpN) (h0 : s0 ≠ 0)
    (hs : s0 = (z + r * x) * powMod k (secpN - 2) secpN % secpN) :
    (((z * powMod (lows s0) (secpN - 2) secpN % secpN + r * powMod (lows s0) (secpN - 2) secpN % secpN * x : Nat))
        : ZMod secpN) = k ∨
    (((z * powMod (lows s0) (secpN - 2) secpN % secpN + r * powMod (lows s0) (secpN - 2) secpN % secpN * x : Nat))
        : ZMod secpN) = -k := by
  have hn := one_lt_secpN
  have hlt : s0 < secpN := hs ▸ Nat.mod_lt _ (by omega)
  have hs0 := cast_ne_zero_secpN (Nat.pos_of_ne_zero h0) hlt
  have hk0 := cast_ne_zero_secpN hk.1 hk.2
  have hcast : (s0 : ZMod secpN) = ((z : ZMod secpN) + r * x) * (k : ZMod secpN)⁻¹ := by
    rw [hs, ZMod.natCast_mod]
    push_cast
    rw [cast_inv_secpN k hk0]
  have hlow0 : (lows s0 : ZMod secpN) ≠ 0 := by
    obtain ⟨l1, l2⟩ := lows_range h0 hlt
    exact cast_ne_zero_secpN l1 (by omega)
  have hw : ((z * powMod (lows s0) (secpN - 2) secpN % secpN +
      r * powMod (lows s0) (secpN - 2) secpN % secpN * x : Nat) : ZMod secpN) =
      ((z : ZMod secpN) + r * x) * (lows s0 : ZMod secpN)⁻¹ := by
    push_cast [ZMod.natCast_mod]
    rw [cast_inv_secpN _ hlow0]
    ring
  have hnum : ((z : ZMod secpN) + r * x) = s0 * k := by
    rw [hcast, mul_assoc, inv_mul_cancel₀ hk0, mul_one]
  rw [hw, hnum]
  rcases lows_cast hlt with h | h
  · left
    rw [h]
    field_simp
  · right
    rw [h]
    field_simp

/-- A candidate's signature verifies against its secret's key (R214). -/
theorem verifycore_signCandidate {x z k r s : Nat} (hx : inScalarRange x = true) (hk : inScalarRange k = true)
    (h : signCandidate x z k = .ok (some (r, s))) :
    ∃ q, smul secpG x = .ok q ∧ verifycore q z r s = .ok (.ok, true) := by
  have hfp : Fact secpP.Prime := ⟨secpP_prime⟩
  have hfn : Fact secpN.Prime := ⟨secpN_prime⟩
  have hn := one_lt_secpN
  obtain ⟨g, hg, hord⟩ := secpG_represents
  have hmod : ∀ j, (j % secpN) • g = j • g := fun j => by rw [← hord, mod_addOrderOf_nsmul]
  obtain ⟨q, hq, hqr⟩ := smul_represents hg x
  rw [hmod] at hqr
  obtain ⟨R, hR, hRi, ⟨hnone, -⟩ | ⟨r', s0, hsome, hr, hs0, hr1, hr2, h0, hlt⟩⟩ := signCandidate_cases x z hk
  · rw [hnone] at h; cases h
  rw [hsome] at h
  simp only [Except.ok.injEq, Option.some.injEq, Prod.mk.injEq] at h
  obtain ⟨rfl, rfl⟩ := h
  obtain ⟨R2, hR2, hRr⟩ := smul_represents hg k
  rw [hR] at hR2
  cases hR2
  rw [hmod] at hRr
  obtain ⟨l1, l2⟩ := lows_range h0 hlt
  have hqinf : q.inf = false := by
    obtain ⟨q', hq', -, -, -, hi⟩ := smul_secpG_of_range hx
    rw [hq] at hq'
    cases hq'
    exact hi
  have hrr : inScalarRange r' = true := inScalarRange_iff.2 ⟨hr1, hr2⟩
  have hss : inScalarRange (lows s0) = true := inScalarRange_iff.2 ⟨l1, by omega⟩
  obtain ⟨a1, ha1, ha1r⟩ := smul_represents hg (z * powMod (lows s0) (secpN - 2) secpN % secpN)
  obtain ⟨a2, ha2, ha2r⟩ := smul_represents hqr (r' * powMod (lows s0) (secpN - 2) secpN % secpN)
  rw [Nat.mod_mod, hmod] at ha1r
  rw [Nat.mod_mod] at ha2r
  obtain ⟨t, ht, htr⟩ := padd_represents secpP_odd ha1r ha2r
  have hsum : (z * powMod (lows s0) (secpN - 2) secpN) • g +
      (r' * powMod (lows s0) (secpN - 2) secpN % secpN) • x • g =
      (z * powMod (lows s0) (secpN - 2) secpN % secpN +
        r' * powMod (lows s0) (secpN - 2) secpN % secpN * x) • g := by
    rw [add_nsmul, hmod, ← mul_nsmul']
  rw [hsum] at htr
  have htx : t.inf = false ∧ t.x = R.x := by
    rcases verify_scalar (x := x) (z := z) (inScalarRange_iff.1 hk) h0 hs0 with he | he
    · have e : (z * powMod (lows s0) (secpN - 2) secpN % secpN +
          r' * powMod (lows s0) (secpN - 2) secpN % secpN * x) • g = k • g := by
        rw [nsmul_eq_nsmul_iff_modEq, hord, ← ZMod.natCast_eq_natCast_iff]
        exact he
      rw [e] at htr
      rw [htr.inj hRr]
      exact ⟨hRi, rfl⟩
    · have e : (z * powMod (lows s0) (secpN - 2) secpN % secpN +
          r' * powMod (lows s0) (secpN - 2) secpN % secpN * x) • g = -(k • g) := by
        rw [eq_neg_iff_add_eq_zero, ← add_nsmul, ← addOrderOf_dvd_iff_nsmul_eq_zero, hord,
          ← ZMod.natCast_eq_zero_iff, Nat.cast_add, he, neg_add_cancel]
      rw [e] at htr
      rw [htr.inj (pneg_represents hRr), pneg, if_neg (by simp [hRi])]
      exact ⟨hRi, rfl⟩
  refine ⟨q, hq, ?_⟩
  rw [verifycore, hqr.issecp, hqinf, hrr, hss, if_neg (by simp), if_neg (by simp), if_neg (by simp), ha1,
    except_ok_bind, ha2, except_ok_bind, ht, except_ok_bind, htx.1, if_neg (by simp), htx.2, hr, beq_self_eq_true]

end Sys2Proof.Machine
end

