-- ==== Sys2Proof/Laws/Exec.lean ====
section
/-! SUPPORT. What each shape of command can do, said once: the state of its scheduled writes completed with `OK`, or the state before it completed with the code it raised (40_control.md R101, 60_exceptions.md R262). -/

namespace Sys2Proof.Machine

/-! ### Completion -/

@[simp] theorem State.raise_eq (s : State) (c : ResultCode) : s.raise c = s.finish c := rfl

/-- A rule that starts by reading an F register. -/
theorem conclude_readF (s : State) (a : Reg) (k : Fe → Except ResultCode State) :
    (s.f[a.val].valid = true ∧ conclude s (s.readF a >>= k) = conclude s (k s.f[a.val].fe)) ∨
      (s.f[a.val].valid = false ∧ conclude s (s.readF a >>= k) = .next (s.finish .emptyOperand)) := by
  rcases s.readF_cases a with ⟨hv, h⟩ | ⟨hv, h⟩
  · exact .inl ⟨hv, by rw [h, except_ok_bind]⟩
  · exact .inr ⟨hv, by rw [h]; rfl⟩

/-- A rule that starts by reading a P register. -/
theorem conclude_readP (s : State) (a : Reg) (k : Pt → Except ResultCode State) :
    (s.p[a.val].valid = true ∧ conclude s (s.readP a >>= k) = conclude s (k s.p[a.val].pt)) ∨
      (s.p[a.val].valid = false ∧ conclude s (s.readP a >>= k) = .next (s.finish .emptyOperand)) := by
  rcases s.readP_cases a with ⟨hv, h⟩ | ⟨hv, h⟩
  · exact .inl ⟨hv, by rw [h, except_ok_bind]⟩
  · exact .inr ⟨hv, by rw [h]; rfl⟩

/-- A rule that computes a value and ends by writing it. -/
theorem conclude_write {α : Type} (s : State) (x : Except ResultCode α) (w : α → State) :
    (∃ r, x = .ok r ∧ conclude s (x >>= fun r => .ok (w r)) = .next ((w r).finish .ok)) ∨
      (∃ c, x = .error c ∧ conclude s (x >>= fun r => .ok (w r)) = .next (s.finish c)) := by
  cases x with
  | ok r => exact .inl ⟨r, rfl, rfl⟩
  | error c => exact .inr ⟨c, rfl, rfl⟩

/-! ### Field shapes -/

/-- FADD, FSUB, FMUL, FDIV (R133 to R136). -/
theorem fieldBinary_cases (op : Fe → Fe → Except ResultCode Fe) (d a b : Reg) (s : State) :
    (s.f[a.val].valid = true ∧ s.f[b.val].valid = true ∧ ∃ r, op s.f[a.val].fe s.f[b.val].fe = .ok r ∧
      fieldBinary op d a b s = .next ((s.setF d r).finish .ok)) ∨
    (s.f[a.val].valid = true ∧ s.f[b.val].valid = true ∧ ∃ c, op s.f[a.val].fe s.f[b.val].fe = .error c ∧
      fieldBinary op d a b s = .next (s.finish c)) ∨
    ((s.f[a.val].valid = false ∨ s.f[b.val].valid = false) ∧
      fieldBinary op d a b s = .next (s.finish .emptyOperand)) := by
  unfold fieldBinary
  rcases conclude_readF s a _ with ⟨ha, e⟩ | ⟨ha, e⟩ <;> rw [e]
  · rcases conclude_readF s b _ with ⟨hb, e⟩ | ⟨hb, e⟩ <;> rw [e]
    · rcases conclude_write s (op s.f[a.val].fe s.f[b.val].fe) _ with ⟨r, hr, e⟩ | ⟨c, hc, e⟩ <;> rw [e]
      · exact .inl ⟨ha, hb, r, hr, rfl⟩
      · exact .inr (.inl ⟨ha, hb, c, hc, rfl⟩)
    · exact .inr (.inr ⟨.inr hb, rfl⟩)
  · exact .inr (.inr ⟨.inl ha, rfl⟩)

/-- FINV, FPOW, FMOV (R137, R138, R140). -/
theorem fieldUnary_cases (op : Fe → Except ResultCode Fe) (d a : Reg) (s : State) :
    (s.f[a.val].valid = true ∧ ∃ r, op s.f[a.val].fe = .ok r ∧
      fieldUnary op d a s = .next ((s.setF d r).finish .ok)) ∨
    (s.f[a.val].valid = true ∧ ∃ c, op s.f[a.val].fe = .error c ∧ fieldUnary op d a s = .next (s.finish c)) ∨
    (s.f[a.val].valid = false ∧ fieldUnary op d a s = .next (s.finish .emptyOperand)) := by
  unfold fieldUnary
  rcases conclude_readF s a _ with ⟨ha, e⟩ | ⟨ha, e⟩ <;> rw [e]
  · rcases conclude_write s (op s.f[a.val].fe) _ with ⟨r, hr, e⟩ | ⟨c, hc, e⟩ <;> rw [e]
    · exact .inl ⟨ha, r, hr, rfl⟩
    · exact .inr (.inl ⟨ha, c, hc, rfl⟩)
  · exact .inr (.inr ⟨ha, rfl⟩)

/-- FGET, FMOD (R131, R132). -/
theorem fieldGet_cases (get : Fe → W256) (d a : Reg) (s : State) :
    (s.f[a.val].valid = true ∧ fieldGet get d a s = .next ((s.setX d (get s.f[a.val].fe)).finish .ok)) ∨
    (s.f[a.val].valid = false ∧ fieldGet get d a s = .next (s.finish .emptyOperand)) := by
  unfold fieldGet
  rcases conclude_readF s a _ with ⟨ha, e⟩ | ⟨ha, e⟩ <;> rw [e]
  · exact .inl ⟨ha, rfl⟩
  · exact .inr ⟨ha, rfl⟩

/-- FSET (R130). -/
theorem execFset_cases (d a b : Reg) (s : State) :
    (2 ≤ s.readNat b ∧ s.readNat a < s.readNat b ∧
      execFset d a b s = .next ((s.setF d ⟨s.readX a, s.readX b⟩).finish .ok)) ∨
    ((s.readNat b < 2 ∨ s.readNat b ≤ s.readNat a) ∧ execFset d a b s = .next (s.finish .outOfRange)) := by
  unfold execFset
  split
  · exact .inr ⟨.inl ‹_›, rfl⟩
  · split
    · exact .inr ⟨.inr ‹_›, rfl⟩
    · exact .inl ⟨by omega, by omega, rfl⟩

/-- FEQ (R139). -/
theorem execFeq_cases (a b : Reg) (s : State) :
    (s.f[a.val].valid = true ∧ s.f[b.val].valid = true ∧
      execFeq a b s = .next ((s.setEq (s.f[a.val].fe == s.f[b.val].fe)).finish .ok)) ∨
    ((s.f[a.val].valid = false ∨ s.f[b.val].valid = false) ∧
      execFeq a b s = .next (s.finish .emptyOperand)) := by
  unfold execFeq
  rcases conclude_readF s a _ with ⟨ha, e⟩ | ⟨ha, e⟩ <;> rw [e]
  · rcases conclude_readF s b _ with ⟨hb, e⟩ | ⟨hb, e⟩ <;> rw [e]
    · exact .inl ⟨ha, hb, rfl⟩
    · exact .inr ⟨.inr hb, rfl⟩
  · exact .inr ⟨.inl ha, rfl⟩

/-! ### Point shapes -/

/-- PDBL, PNEG, PMUL, PMOV, SMUL (R165 to R167, R169, R191). -/
theorem pointUnary_cases (op : Pt → Except ResultCode Pt) (d a : Reg) (s : State) :
    (s.p[a.val].valid = true ∧ ∃ r, op s.p[a.val].pt = .ok r ∧
      pointUnary op d a s = .next ((s.putP d r).finish .ok)) ∨
    (s.p[a.val].valid = true ∧ ∃ c, op s.p[a.val].pt = .error c ∧ pointUnary op d a s = .next (s.finish c)) ∨
    (s.p[a.val].valid = false ∧ pointUnary op d a s = .next (s.finish .emptyOperand)) := by
  unfold pointUnary
  rcases conclude_readP s a _ with ⟨ha, e⟩ | ⟨ha, e⟩ <;> rw [e]
  · rcases conclude_write s (op s.p[a.val].pt) _ with ⟨r, hr, e⟩ | ⟨c, hc, e⟩ <;> rw [e]
    · exact .inl ⟨ha, r, hr, rfl⟩
    · exact .inr (.inl ⟨ha, c, hc, rfl⟩)
  · exact .inr (.inr ⟨ha, rfl⟩)

/-- PGETX, PGETY (R162, R163). -/
theorem pointGet_cases (get : Pt → Fe) (d a : Reg) (s : State) :
    (s.p[a.val].valid = true ∧ s.p[a.val].pt.inf = false ∧
      pointGet get d a s = .next ((s.setF d (get s.p[a.val].pt)).finish .ok)) ∨
    (s.p[a.val].valid = true ∧ s.p[a.val].pt.inf = true ∧ pointGet get d a s = .next (s.finish .identityPoint)) ∨
    (s.p[a.val].valid = false ∧ pointGet get d a s = .next (s.finish .emptyOperand)) := by
  unfold pointGet
  rcases conclude_readP s a _ with ⟨ha, e⟩ | ⟨ha, e⟩ <;> rw [e]
  · cases hi : s.p[a.val].pt.inf
    · exact .inl ⟨ha, rfl, by simp [coordinate, hi]⟩
    · exact .inr (.inl ⟨ha, rfl, by simp [coordinate, hi]⟩)
  · exact .inr (.inr ⟨ha, rfl⟩)

/-- PSET (R160). -/
theorem execPset_cases (d a b c e : Reg) (s : State) :
    (s.f[a.val].valid = true ∧ s.f[b.val].valid = true ∧ s.f[c.val].valid = true ∧ s.f[e.val].valid = true ∧
      ∃ r, mkpoint s.f[a.val].fe s.f[b.val].fe s.f[c.val].fe s.f[e.val].fe = .ok r ∧
        execPset d a b c e s = .next ((s.putP d r).finish .ok)) ∨
    (s.f[a.val].valid = true ∧ s.f[b.val].valid = true ∧ s.f[c.val].valid = true ∧ s.f[e.val].valid = true ∧
      ∃ g, mkpoint s.f[a.val].fe s.f[b.val].fe s.f[c.val].fe s.f[e.val].fe = .error g ∧
        execPset d a b c e s = .next (s.finish g)) ∨
    ((s.f[a.val].valid = false ∨ s.f[b.val].valid = false ∨ s.f[c.val].valid = false ∨ s.f[e.val].valid = false) ∧
      execPset d a b c e s = .next (s.finish .emptyOperand)) := by
  unfold execPset
  rcases conclude_readF s a _ with ⟨ha, h⟩ | ⟨ha, h⟩ <;> rw [h]
  · rcases conclude_readF s b _ with ⟨hb, h⟩ | ⟨hb, h⟩ <;> rw [h]
    · rcases conclude_readF s c _ with ⟨hc, h⟩ | ⟨hc, h⟩ <;> rw [h]
      · rcases conclude_readF s e _ with ⟨he, h⟩ | ⟨he, h⟩ <;> rw [h]
        · rcases conclude_write s (mkpoint s.f[a.val].fe s.f[b.val].fe s.f[c.val].fe s.f[e.val].fe) _ with
            ⟨r, hr, h⟩ | ⟨g, hg, h⟩ <;> rw [h]
          · exact .inl ⟨ha, hb, hc, he, r, hr, rfl⟩
          · exact .inr (.inl ⟨ha, hb, hc, he, g, hg, rfl⟩)
        · exact .inr (.inr ⟨.inr (.inr (.inr he)), rfl⟩)
      · exact .inr (.inr ⟨.inr (.inr (.inl hc)), rfl⟩)
    · exact .inr (.inr ⟨.inr (.inl hb), rfl⟩)
  · exact .inr (.inr ⟨.inl ha, rfl⟩)

/-- PINF (R161). -/
theorem execPinf_cases (d a b : Reg) (s : State) :
    (s.f[a.val].valid = true ∧ s.f[b.val].valid = true ∧ ∃ r, mkinf s.f[a.val].fe s.f[b.val].fe = .ok r ∧
      execPinf d a b s = .next ((s.putP d r).finish .ok)) ∨
    (s.f[a.val].valid = true ∧ s.f[b.val].valid = true ∧ ∃ c, mkinf s.f[a.val].fe s.f[b.val].fe = .error c ∧
      execPinf d a b s = .next (s.finish c)) ∨
    ((s.f[a.val].valid = false ∨ s.f[b.val].valid = false) ∧
      execPinf d a b s = .next (s.finish .emptyOperand)) := by
  unfold execPinf
  rcases conclude_readF s a _ with ⟨ha, e⟩ | ⟨ha, e⟩ <;> rw [e]
  · rcases conclude_readF s b _ with ⟨hb, e⟩ | ⟨hb, e⟩ <;> rw [e]
    · rcases conclude_write s (mkinf s.f[a.val].fe s.f[b.val].fe) _ with ⟨r, hr, e⟩ | ⟨c, hc, e⟩ <;> rw [e]
      · exact .inl ⟨ha, hb, r, hr, rfl⟩
      · exact .inr (.inl ⟨ha, hb, c, hc, rfl⟩)
    · exact .inr (.inr ⟨.inr hb, rfl⟩)
  · exact .inr (.inr ⟨.inl ha, rfl⟩)

/-- PADD (R164). -/
theorem execPadd_cases (d a b : Reg) (s : State) :
    (s.p[a.val].valid = true ∧ s.p[b.val].valid = true ∧ ∃ r, padd s.p[a.val].pt s.p[b.val].pt = .ok r ∧
      execPadd d a b s = .next ((s.putP d r).finish .ok)) ∨
    (s.p[a.val].valid = true ∧ s.p[b.val].valid = true ∧ ∃ c, padd s.p[a.val].pt s.p[b.val].pt = .error c ∧
      execPadd d a b s = .next (s.finish c)) ∨
    ((s.p[a.val].valid = false ∨ s.p[b.val].valid = false) ∧
      execPadd d a b s = .next (s.finish .emptyOperand)) := by
  unfold execPadd
  rcases conclude_readP s a _ with ⟨ha, e⟩ | ⟨ha, e⟩ <;> rw [e]
  · rcases conclude_readP s b _ with ⟨hb, e⟩ | ⟨hb, e⟩ <;> rw [e]
    · rcases conclude_write s (padd s.p[a.val].pt s.p[b.val].pt) _ with ⟨r, hr, e⟩ | ⟨c, hc, e⟩ <;> rw [e]
      · exact .inl ⟨ha, hb, r, hr, rfl⟩
      · exact .inr (.inl ⟨ha, hb, c, hc, rfl⟩)
    · exact .inr (.inr ⟨.inr hb, rfl⟩)
  · exact .inr (.inr ⟨.inl ha, rfl⟩)

/-- PEQ (R168). -/
theorem execPeq_cases (a b : Reg) (s : State) :
    (s.p[a.val].valid = true ∧ s.p[b.val].valid = true ∧
      execPeq a b s = .next ((s.setEq (peq s.p[a.val].pt s.p[b.val].pt)).finish .ok)) ∨
    ((s.p[a.val].valid = false ∨ s.p[b.val].valid = false) ∧
      execPeq a b s = .next (s.finish .emptyOperand)) := by
  unfold execPeq
  rcases conclude_readP s a _ with ⟨ha, e⟩ | ⟨ha, e⟩ <;> rw [e]
  · rcases conclude_readP s b _ with ⟨hb, e⟩ | ⟨hb, e⟩ <;> rw [e]
    · exact .inl ⟨ha, hb, rfl⟩
    · exact .inr ⟨.inr hb, rfl⟩
  · exact .inr ⟨.inl ha, rfl⟩

/-- PTST (R170). -/
theorem execPtst_cases (a : Reg) (s : State) :
    (s.p[a.val].valid = true ∧ execPtst a s = .next ((s.setInf s.p[a.val].pt.inf).finish .ok)) ∨
    (s.p[a.val].valid = false ∧ execPtst a s = .next (s.finish .emptyOperand)) := by
  unfold execPtst
  rcases conclude_readP s a _ with ⟨ha, e⟩ | ⟨ha, e⟩ <;> rw [e]
  · exact .inl ⟨ha, rfl⟩
  · exact .inr ⟨ha, rfl⟩

/-! ### secp256k1, ECDSA and encoding -/

/-- XLDC (R108). -/
theorem execXldc_cases (d a : Reg) (s : State) :
    (∃ v, rom a = some v ∧ execXldc d a s = .next ((s.setX d v).finish .ok)) ∨
    (rom a = none ∧ execXldc d a s = .next (s.finish .illegalCommand)) := by
  unfold execXldc
  cases h : rom a with
  | none => exact .inr ⟨rfl, rfl⟩
  | some v => exact .inl ⟨v, rfl, rfl⟩

/-- LIFTX (R192). -/
theorem execLiftx_cases (d a : Reg) (odd : Bool) (s : State) :
    (∃ r, liftx (s.readNat a) odd = .ok r ∧ execLiftx d a odd s = .next ((s.putP d r).finish .ok)) ∨
    (∃ c, liftx (s.readNat a) odd = .error c ∧ execLiftx d a odd s = .next (s.finish c)) :=
  conclude_write s (liftx (s.readNat a) odd) fun r => s.putP d r

/-- KEYGEN (R210): an accepted draw and its key, or no draw in range and still in execution. -/
theorem execKeygen_cases (d e : Reg) (s : State) :
    (∃ c rest, takeDraw s.entropy = some (c, rest) ∧ (
      (∃ q, smul secpG c.toNat = .ok q ∧ execKeygen d e s =
        .next (((({ s with entropy := rest }.setX d c).setP e q).setInf false).finish .ok)) ∨
      (∃ g, smul secpG c.toNat = .error g ∧ execKeygen d e s = .next (s.finish g)))) ∨
    (takeDraw s.entropy = none ∧ execKeygen d e s = .next { s with entropy := [] }) := by
  unfold execKeygen
  cases h : takeDraw s.entropy with
  | none => exact .inr ⟨rfl, rfl⟩
  | some cr =>
    obtain ⟨c, rest⟩ := cr
    refine .inl ⟨c, rest, rfl, ?_⟩
    exact conclude_write s (smul secpG c.toNat) fun q => (({ s with entropy := rest }.setX d c).setP e q).setInf false

/-- PUBKEY (R211). -/
theorem execPubkey_cases (d a : Reg) (s : State) :
    (inScalarRange (s.readNat a) = true ∧ ∃ q, smul secpG (s.readNat a) = .ok q ∧
      execPubkey d a s = .next (((s.setP d q).setInf false).finish .ok)) ∨
    (inScalarRange (s.readNat a) = true ∧ ∃ c, smul secpG (s.readNat a) = .error c ∧
      execPubkey d a s = .next (s.finish c)) ∨
    (inScalarRange (s.readNat a) = false ∧ execPubkey d a s = .next (s.finish .outOfRange)) := by
  unfold execPubkey
  cases h : inScalarRange (s.readNat a) with
  | false => exact .inr (.inr ⟨rfl, by simp⟩)
  | true =>
    rw [if_neg (by simp)]
    rcases conclude_write s (smul secpG (s.readNat a)) fun q => (s.setP d q).setInf false with
      ⟨q, hq, e⟩ | ⟨c, hc, e⟩
    · exact .inl ⟨rfl, q, hq, e⟩
    · exact .inr (.inl ⟨rfl, c, hc, e⟩)

/-- SIGN (R212): a signature, a candidate rejected with the command still in execution, or an error. -/
theorem signWith_cases (hmac : Bytes32 → List Byte → Bytes32) (d e a b : Reg) (s : State) :
    (d ≠ e ∧ inScalarRange (s.readNat a) = true ∧ ∃ r t nrt,
      signRound hmac (s.readNat a) (s.readNat b) (s.nonce.getD (nonceSeed hmac (s.readNat a) (s.readNat b))) =
        .ok (.accepted r t nrt) ∧
      signWith hmac d e a b s =
        .next ((((s.setX d (BitVec.ofNat 256 r)).setX e (BitVec.ofNat 256 t)).setNrt nrt).finish .ok)) ∨
    (d ≠ e ∧ inScalarRange (s.readNat a) = true ∧ ∃ g,
      signRound hmac (s.readNat a) (s.readNat b) (s.nonce.getD (nonceSeed hmac (s.readNat a) (s.readNat b))) =
        .ok (.again g) ∧
      signWith hmac d e a b s = .next { s with nonce := some g }) ∨
    (d ≠ e ∧ inScalarRange (s.readNat a) = true ∧ ∃ c,
      signRound hmac (s.readNat a) (s.readNat b) (s.nonce.getD (nonceSeed hmac (s.readNat a) (s.readNat b))) =
        .error c ∧
      signWith hmac d e a b s = .next (s.finish c)) ∨
    (d ≠ e ∧ inScalarRange (s.readNat a) = false ∧ signWith hmac d e a b s = .next (s.finish .outOfRange)) ∨
    (d = e ∧ signWith hmac d e a b s = .next (s.finish .illegalCommand)) := by
  unfold signWith
  by_cases hde : d = e
  · exact .inr (.inr (.inr (.inr ⟨hde, by rw [if_pos hde]; rfl⟩)))
  rw [if_neg hde]
  cases hr : inScalarRange (s.readNat a) with
  | false => exact .inr (.inr (.inr (.inl ⟨hde, rfl, by rw [if_pos rfl]; rfl⟩)))
  | true =>
    rw [if_neg (by simp)]
    split
    · exact .inr (.inr (.inl ⟨hde, rfl, _, by assumption, rfl⟩))
    · exact .inr (.inl ⟨hde, rfl, _, by assumption, rfl⟩)
    · exact .inl ⟨hde, rfl, _, _, _, by assumption, rfl⟩

/-- VERIFY (R213). -/
theorem execVerify_cases (a b c e : Reg) (s : State) :
    (s.p[a.val].valid = true ∧ ∃ code verdict,
      verifycore s.p[a.val].pt (s.readNat b) (s.readNat c) (s.readNat e) = .ok (code, verdict) ∧
      execVerify a b c e s = .next ((s.setVok verdict).finish code)) ∨
    (s.p[a.val].valid = true ∧ ∃ code,
      verifycore s.p[a.val].pt (s.readNat b) (s.readNat c) (s.readNat e) = .error code ∧
      execVerify a b c e s = .next ((s.setVok false).finish code)) ∨
    (s.p[a.val].valid = false ∧ execVerify a b c e s = .next ((s.setVok false).finish .emptyOperand)) := by
  unfold execVerify
  rcases s.readP_cases a with ⟨hv, h⟩ | ⟨hv, h⟩ <;> rw [h]
  · rw [except_ok_bind]
    cases hc : verifycore s.p[a.val].pt (s.readNat b) (s.readNat c) (s.readNat e) with
    | ok cv => exact .inl ⟨hv, cv.1, cv.2, rfl, rfl⟩
    | error g => exact .inr (.inl ⟨hv, g, rfl, rfl⟩)
  · exact .inr (.inr ⟨hv, rfl⟩)

/-- SECENC (R235). -/
theorem execSecenc_cases (a : Reg) (compressed : Bool) (s : State) :
    (s.p[a.val].valid = true ∧ issecp s.p[a.val].pt = true ∧ s.p[a.val].pt.inf = false ∧
      execSecenc a compressed s = .next ((s.putString (if compressed then secC s.p[a.val].pt.x s.p[a.val].pt.y
        else secU s.p[a.val].pt.x s.p[a.val].pt.y)).finish .ok)) ∨
    (s.p[a.val].valid = true ∧ issecp s.p[a.val].pt = false ∧
      execSecenc a compressed s = .next (s.finish .curveMismatch)) ∨
    (s.p[a.val].valid = true ∧ issecp s.p[a.val].pt = true ∧ s.p[a.val].pt.inf = true ∧
      execSecenc a compressed s = .next (s.finish .identityPoint)) ∨
    (s.p[a.val].valid = false ∧ execSecenc a compressed s = .next (s.finish .emptyOperand)) := by
  unfold execSecenc
  rcases conclude_readP s a _ with ⟨ha, e⟩ | ⟨ha, e⟩ <;> rw [e]
  · cases hs : issecp s.p[a.val].pt
    · exact .inr (.inl ⟨ha, rfl, by simp [secString, hs]⟩)
    · cases hi : s.p[a.val].pt.inf
      · exact .inl ⟨ha, rfl, rfl, by simp [secString, hs, hi]⟩
      · exact .inr (.inr (.inl ⟨ha, rfl, rfl, by simp [secString, hs, hi]⟩))
  · exact .inr (.inr (.inr ⟨ha, rfl⟩))

/-- SECDEC (R236). -/
theorem execSecdec_cases (d : Reg) (s : State) :
    (s.len ≠ 0 ∧ s.len.toNat ≤ Memory.size ∧ ∃ q, secParse s.readString = .ok q ∧
      execSecdec d s = .next (((s.setP d q).setInf false).finish .ok)) ∨
    (s.len ≠ 0 ∧ s.len.toNat ≤ Memory.size ∧ ∃ c, secParse s.readString = .error c ∧
      execSecdec d s = .next (s.finish c)) ∨
    ((s.len = 0 ∨ Memory.size < s.len.toNat) ∧ execSecdec d s = .next (s.finish .malformedSec)) := by
  unfold execSecdec
  by_cases h : s.len = 0 ∨ Memory.size < s.len.toNat
  · exact .inr (.inr ⟨h, by rw [if_pos h]; rfl⟩)
  · rw [if_neg h]
    rw [not_or] at h
    rcases conclude_write s (secParse s.readString) fun q => (s.setP d q).setInf false with ⟨q, hq, e⟩ | ⟨c, hc, e⟩
    · exact .inl ⟨h.1, by omega, q, hq, e⟩
    · exact .inr (.inl ⟨h.1, by omega, c, hc, e⟩)

/-- DERENC (R237). -/
theorem execDerenc_cases (a b : Reg) (s : State) :
    (inScalarRange (s.readNat a) = true ∧ inScalarRange (s.readNat b) = true ∧
      execDerenc a b s = .next ((s.putString (der (s.readNat a) (s.readNat b))).finish .ok)) ∨
    ((inScalarRange (s.readNat a) = false ∨ inScalarRange (s.readNat b) = false) ∧
      execDerenc a b s = .next (s.finish .outOfRange)) := by
  unfold execDerenc
  by_cases h : inScalarRange (s.readNat a) = false ∨ inScalarRange (s.readNat b) = false
  · exact .inr ⟨h, by rw [if_pos h]; rfl⟩
  · rw [if_neg h]
    exact .inl ⟨by simp_all, by simp_all, rfl⟩

/-- DERDEC (R238). -/
theorem execDerdec_cases (d e : Reg) (s : State) :
    (d ≠ e ∧ s.len.toNat ≤ Memory.size ∧ ∃ r t, derparse s.readString = .ok (r, t) ∧
      execDerdec d e s = .next (((s.setX d (BitVec.ofNat 256 r)).setX e (BitVec.ofNat 256 t)).finish .ok)) ∨
    (d ≠ e ∧ s.len.toNat ≤ Memory.size ∧ ∃ c, derparse s.readString = .error c ∧
      execDerdec d e s = .next (s.finish c)) ∨
    (d ≠ e ∧ Memory.size < s.len.toNat ∧ execDerdec d e s = .next (s.finish .malformedDer)) ∨
    (d = e ∧ execDerdec d e s = .next (s.finish .illegalCommand)) := by
  unfold execDerdec
  by_cases hde : d = e
  · exact .inr (.inr (.inr ⟨hde, by rw [if_pos hde]; rfl⟩))
  rw [if_neg hde]
  by_cases h : Memory.size < s.len.toNat
  · exact .inr (.inr (.inl ⟨hde, h, by rw [if_pos h]; rfl⟩))
  · rw [if_neg h]
    cases hp : derparse s.readString with
    | ok rt => exact .inl ⟨hde, by omega, rt.1, rt.2, rfl, rfl⟩
    | error c => exact .inr (.inl ⟨hde, by omega, c, rfl, rfl⟩)

end Sys2Proof.Machine
end

