-- ==== Sys2Proof/Laws/SecDer.lean ====
section
/-! SUPPORT. Decompression, and that each serialized form parses back to what was written (43_secp256k1.md R186, 45_encoding.md R231 to R233, R239). -/

namespace Sys2Proof.Machine

open Sys2Proof.Claims (secpEquation)

set_option Elab.async false

/-! ### Square roots modulo `p` (R186) -/

theorem secpP_lt : secpP < 2 ^ 256 := by decide +kernel

/-- `-7` is no cube modulo `p`: no point of secp256k1 has order 2 (R186). -/
theorem secp_no_two_torsion [Fact secpP.Prime] (x : ZMod secpP) : x ^ 3 + 7 ≠ 0 := by
  intro h
  have hx : x ≠ 0 := by
    rintro rfl
    have h7 : ((7 : Nat) : ZMod secpP) = 0 := by
      push_cast
      linear_combination h
    exact absurd ((ZMod.natCast_eq_zero_iff _ _).1 h7) (by decide +kernel)
  have h3 : x ^ 3 = ((secpP - 7 : Nat) : ZMod secpP) := by
    rw [Nat.cast_sub seven_lt_secpP.le, ZMod.natCast_self]
    push_cast
    linear_combination h
  have hone : (x ^ 3) ^ ((secpP - 1) / 3) = 1 := by
    rw [← pow_mul, show 3 * ((secpP - 1) / 3) = secpP - 1 by decide +kernel]
    exact ZMod.pow_card_sub_one_eq_one hx
  have hpow : powMod (secpP - 7) ((secpP - 1) / 3) secpP ≠ 1 := by decide +kernel
  have hlt : (secpP - 1) / 3 < 2 ^ 256 := by decide +kernel
  generalize (secpP - 1) / 3 = e at hone hpow hlt
  generalize secpP - 7 = c at h3 hpow
  have hcast : ((c ^ e : Nat) : ZMod secpP) = ((1 : Nat) : ZMod secpP) := by
    push_cast
    rw [← h3, hone]
  rw [ZMod.natCast_eq_natCast_iff, Nat.ModEq, ← powMod_eq _ _ hlt,
    Nat.mod_eq_of_lt (show 1 < secpP by decide +kernel)] at hcast
  exact hpow hcast

/-- Where a root exists, `beta` is it or its negative. -/
theorem sqrtP_root [Fact secpP.Prime] {alpha : Nat} {y : ZMod secpP} (hy : y ≠ 0)
    (h : y ^ 2 = (alpha : ZMod secpP)) : (sqrtP alpha : ZMod secpP) = y ∨ (sqrtP alpha : ZMod secpP) = -y := by
  have hlt : (secpP + 1) / 4 < 2 ^ 256 := by decide +kernel
  have hsq : (sqrtP alpha : ZMod secpP) ^ 2 = y ^ 2 := by
    rw [sqrtP, powMod_eq _ _ hlt, ZMod.natCast_mod, Nat.cast_pow, ← h, ← pow_mul, ← pow_mul,
      show 2 * ((secpP + 1) / 4 * 2) = (secpP - 1) + 2 by decide +kernel, pow_add,
      ZMod.pow_card_sub_one_eq_one hy, one_mul]
  exact sq_eq_sq_iff_eq_or_eq_neg.1 hsq

theorem sqrtP_lt (alpha : Nat) : sqrtP alpha < secpP := by
  rw [sqrtP, powMod_eq _ _ (by decide +kernel)]
  exact Nat.mod_lt _ zero_lt_secpP

theorem secpEquation_iff (x y : Nat) :
    secpEquation x y ↔ ((y : ZMod secpP)) ^ 2 = (x : ZMod secpP) ^ 3 + 7 := by
  rw [secpEquation, ← Nat.ModEq, ← ZMod.natCast_eq_natCast_iff]
  push_cast
  rfl

theorem secpEquation_y_ne_zero {x y : Nat} (h : secpEquation x y) : (y : ZMod secpP) ≠ 0 := by
  have hfp : Fact secpP.Prime := ⟨secpP_prime⟩
  intro h0
  rw [secpEquation_iff, h0] at h
  exact secp_no_two_torsion (x : ZMod secpP) (by rw [← h]; ring)

/-- The affine point `(x, y)` of secp256k1. -/
def secpAffine (x y : Nat) : Pt := ⟨false, secpFe x, secpFe y, secpFe 0, secpFe 7⟩

/-- What decompression answers (R186): `OUT_OF_RANGE`, `NOT_ON_CURVE` when no `y` satisfies the equation,
or the point of the `y` that has the parity asked for. -/
theorem liftx_cases (x : Nat) (odd : Bool) :
    (secpP ≤ x ∧ liftx x odd = .error .outOfRange) ∨
    (x < secpP ∧ (∀ y, ¬ secpEquation x y) ∧ liftx x odd = .error .notOnCurve) ∨
    (x < secpP ∧ ∃ y, y < secpP ∧ secpEquation x y ∧ (y % 2 == 1) = odd ∧ liftx x odd = .ok (secpAffine x y)) := by
  have hfp : Fact secpP.Prime := ⟨secpP_prime⟩
  rw [liftx]
  by_cases hx : secpP ≤ x
  · exact .inl ⟨hx, by simp [hx]⟩
  refine .inr ?_
  have hb : sqrtP ((x ^ 3 + 7) % secpP) < secpP := sqrtP_lt _
  generalize hbeta : sqrtP ((x ^ 3 + 7) % secpP) = beta at hb
  by_cases hsq : beta * beta % secpP ≠ (x ^ 3 + 7) % secpP
  · refine .inl ⟨by omega, fun y hy => hsq ?_, by simp [hx, hsq]⟩
    have hy0 := secpEquation_y_ne_zero hy
    rw [secpEquation_iff] at hy
    have hr := sqrtP_root (alpha := (x ^ 3 + 7) % secpP) hy0 (by rw [hy, ZMod.natCast_mod]; push_cast; rfl)
    rw [hbeta] at hr
    rw [← Nat.ModEq, ← ZMod.natCast_eq_natCast_iff]
    push_cast
    rw [← hy]
    rcases hr with h | h <;> rw [h] <;> ring
  · have hsq' : beta * beta % secpP = (x ^ 3 + 7) % secpP := not_not.1 hsq
    have hodd := secpP_odd
    have heq : secpEquation x beta := by rw [secpEquation, pow_two, hsq']
    have hb0 : beta ≠ 0 := fun h => secpEquation_y_ne_zero heq (by rw [h, Nat.cast_zero])
    refine .inr ⟨by omega, if (beta % 2 == 1) = odd then beta else secpP - beta, ?_, ?_, ?_, ?_⟩
    · split <;> omega
    · split
      · exact heq
      · rw [secpEquation_iff] at heq ⊢
        rw [Nat.cast_sub hb.le, ZMod.natCast_self, ← heq]
        ring
    · split
      · assumption
      · rename_i h
        have hp : (secpP - beta) % 2 = 1 - beta % 2 := by omega
        rcases Nat.mod_two_eq_zero_or_one beta with h2 | h2 <;> cases odd <;> simp_all
    · rw [if_neg (by omega), if_neg (by simp [hsq'])]
      rfl

theorem secpAffine_of_issecp {q : Pt} (hw : q.wf) (hs : issecp q = true) (hi : q.inf = false) :
    q.x.v.toNat < secpP ∧ q.y.v.toNat < secpP ∧ q = secpAffine q.x.v.toNat q.y.v.toNat := by
  obtain ⟨ha, hb⟩ := issecp_iff.1 hs
  have hin := hw.in
  have hm : q.a.m.toNat = secpP := by rw [ha]; exact toNat_secpP
  rw [hm] at hin
  have hx := hin.x.legal.2
  have hy := hin.y.legal.2
  rw [hin.x.modulus] at hx
  rw [hin.y.modulus] at hy
  refine ⟨hx, hy, ?_⟩
  have ex : q.x = secpFe q.x.v.toNat := hin.x.ext (secpFe_in hx) (by rw [toZ_secpFe hx]; rfl)
  have ey : q.y = secpFe q.y.v.toNat := hin.y.ext (secpFe_in hy) (by rw [toZ_secpFe hy]; rfl)
  obtain ⟨i, x, y, a, b⟩ := q
  simp only at ha hb hi ex ey
  rw [secpAffine, ← ex, ← ey, ← ha, ← hb, ← hi]

theorem secpEquation_of_onCurve {q : Pt} (hw : q.wf) (hs : issecp q = true) (hi : q.inf = false) (hc : q.onCurve) :
    secpEquation q.x.v.toNat q.y.v.toNat := by
  obtain ⟨ha, hb⟩ := issecp_iff.1 hs
  have hin := hw.in
  have hm : q.a.m.toNat = secpP := by rw [ha]; exact toNat_secpP
  rw [hm] at hin
  have h := (oncurve_iff hin).1 (hc hi)
  rw [ha, hb, toZ_secpFe zero_lt_secpP, toZ_secpFe seven_lt_secpP] at h
  rw [secpEquation_iff]
  simp only [Fe.toZ] at h
  rw [h]
  push_cast
  ring

theorem secpAffine_onCurve {x y : Nat} (hx : x < secpP) (hy : y < secpP) (h : secpEquation x y) :
    (secpAffine x y).wf ∧ (secpAffine x y).onCurve := by
  have hin : (secpAffine x y).In secpP :=
    ⟨secpFe_in hx, secpFe_in hy, secpFe_in zero_lt_secpP, secpFe_in seven_lt_secpP, fun h => by cases h⟩
  refine ⟨hin.wf, fun _ => (oncurve_iff hin).2 ?_⟩
  rw [secpEquation_iff] at h
  simp only [secpAffine, toZ_secpFe hx, toZ_secpFe hy, toZ_secpFe zero_lt_secpP, toZ_secpFe seven_lt_secpP, h]
  push_cast
  ring

/-! ### SEC (R231, R236, R239) -/

@[simp] theorem length_secU (x y : Fe) : (secU x y).length = 65 := by simp [secU]

@[simp] theorem length_secC (x y : Fe) : (secC x y).length = 33 := by simp [secC]

theorem secParse_secU {q : Pt} (hw : q.wf) (hs : issecp q = true) (hi : q.inf = false) (hc : q.onCurve) :
    secParse (secU q.x q.y) = .ok q := by
  obtain ⟨hx, hy, hq⟩ := secpAffine_of_issecp hw hs hi
  have bx : be (((be32 q.x.v.toNat ++ be32 q.y.v.toNat)).take 32) = q.x.v.toNat := by
    rw [List.take_left' (length_be32 _), be_be32 (q.x.v.isLt)]
  have by' : be (((be32 q.x.v.toNat ++ be32 q.y.v.toNat)).drop 32) = q.y.v.toNat := by
    rw [List.drop_left' (length_be32 _), be_be32 (q.y.v.isLt)]
  have hlen : (secU q.x q.y).length = 65 := length_secU _ _
  unfold secU at hlen ⊢
  simp only [secParse, if_true, bx, by']
  rw [if_neg (by rw [hlen]; simp), if_neg (by omega), mkpoint]
  have hon := hc hi
  obtain ⟨inf, x, y, a, b⟩ := q
  simp only [secpAffine, Pt.mk.injEq] at hq
  obtain ⟨h1, h2, h3, h4, h5⟩ := hq
  simp only at hon hx hy ⊢
  rw [h4, h5, h2, h3] at hon
  rw [if_neg (by simp [secpFe]), if_neg (by simp [hon]), ← h2, ← h3, h1, h4, h5]

theorem secParse_secC {q : Pt} (hw : q.wf) (hs : issecp q = true) (hi : q.inf = false) (hc : q.onCurve) :
    secParse (secC q.x q.y) = .ok q := by
  have hfp : Fact secpP.Prime := ⟨secpP_prime⟩
  obtain ⟨hx, hy, hq⟩ := secpAffine_of_issecp hw hs hi
  have heq := secpEquation_of_onCurve hw hs hi hc
  have hlen : (secC q.x q.y).length = 33 := length_secC _ _
  have hlift : liftx q.x.v.toNat (q.y.v.toNat % 2 == 1) = .ok q := by
    rcases liftx_cases q.x.v.toNat (q.y.v.toNat % 2 == 1) with ⟨h, -⟩ | ⟨-, h, -⟩ | ⟨-, y, hy', he, hpar, hl⟩
    · omega
    · exact absurd heq (h _)
    · rw [hl]
      have hyy : y = q.y.v.toNat := by
        rw [secpEquation_iff] at he heq
        have hsq : (y : ZMod secpP) ^ 2 = (q.y.v.toNat : ZMod secpP) ^ 2 := he.trans heq.symm
        have hp2 : y % 2 = q.y.v.toNat % 2 := by
          rcases Nat.mod_two_eq_zero_or_one y with h1 | h1 <;>
            rcases Nat.mod_two_eq_zero_or_one q.y.v.toNat with h2 | h2 <;> simp [h1, h2] at hpar ⊢
        rcases sq_eq_sq_iff_eq_or_eq_neg.1 hsq with h | h
        · exact Nat.ModEq.eq_of_lt_of_lt ((ZMod.natCast_eq_natCast_iff _ _ _).1 h) hy' hy
        · exfalso
          have hsum : ((y + q.y.v.toNat : Nat) : ZMod secpP) = 0 := by push_cast; rw [h]; ring
          have hdvd := (ZMod.natCast_eq_zero_iff _ _).1 hsum
          have hy0 : q.y.v.toNat ≠ 0 := fun h0 =>
            secpEquation_y_ne_zero ((secpEquation_iff _ _).2 heq) (by rw [h0, Nat.cast_zero])
          obtain ⟨c, hc'⟩ := hdvd
          have hodd := secpP_odd
          have hc1 : c = 1 := by
            have h1 : c ≠ 0 := by rintro rfl; omega
            have h2 : c < 2 := by
              by_contra hge
              have : secpP * 2 ≤ secpP * c := Nat.mul_le_mul_left _ (by omega)
              omega
            omega
          rw [hc1] at hc'
          omega
      rw [hyy, ← hq]
  rcases Nat.mod_two_eq_zero_or_one q.y.v.toNat with h2 | h2
  · rw [h2] at hlift
    unfold secC at hlen ⊢
    rw [if_pos h2] at hlen ⊢
    simp only [secParse]
    rw [if_neg (by decide), if_pos (by decide), if_neg (by rw [hlen]; simp), be_be32 q.x.v.isLt]
    exact hlift
  · rw [h2] at hlift
    unfold secC at hlen ⊢
    rw [if_neg (by omega)] at hlen ⊢
    simp only [secParse]
    rw [if_neg (by decide), if_pos (by decide), if_neg (by rw [hlen]; simp), be_be32 q.x.v.isLt]
    exact hlift

/-- What SECDEC's parse can answer: one of its three codes, or a legal affine secp256k1 point that satisfies the curve equation. -/
theorem secParse_cases (t : List Byte) :
    secParse t = .error .malformedSec ∨ secParse t = .error .outOfRange ∨ secParse t = .error .notOnCurve ∨
      ∃ x y, x < secpP ∧ y < secpP ∧ secpEquation x y ∧ secParse t = .ok (secpAffine x y) := by
  have hlift : ∀ x odd, liftx x odd = .error .outOfRange ∨ liftx x odd = .error .notOnCurve ∨
      ∃ x' y, x' < secpP ∧ y < secpP ∧ secpEquation x' y ∧ liftx x odd = .ok (secpAffine x' y) := fun x odd => by
    rcases liftx_cases x odd with ⟨-, h⟩ | ⟨-, -, h⟩ | ⟨hx, y, hy, he, -, h⟩
    · exact .inl h
    · exact .inr (.inl h)
    · exact .inr (.inr ⟨x, y, hx, hy, he, h⟩)
  cases t with
  | nil => exact .inl rfl
  | cons c body =>
    simp only [secParse]
    split
    · split
      · exact .inl rfl
      · split
        · exact .inr (.inl rfl)
        · rename_i hr
          rw [not_or] at hr
          rw [mkpoint, if_neg (by simp [secpFe])]
          split
          · exact .inr (.inr (.inl rfl))
          · rename_i hon
            refine .inr (.inr (.inr ⟨_, _, by omega, by omega, ?_, rfl⟩))
            have hx : be (body.take 32) < secpP := by omega
            have hy : be (body.drop 32) < secpP := by omega
            have hin : (secpAffine (be (body.take 32)) (be (body.drop 32))).In secpP :=
              ⟨secpFe_in hx, secpFe_in hy, secpFe_in zero_lt_secpP, secpFe_in seven_lt_secpP, fun h => by cases h⟩
            have h := secpEquation_of_onCurve hin.wf (by simp [issecp, secpAffine]) rfl
              (fun _ => (Bool.not_eq_false _).mp hon)
            simpa only [secpAffine, toNat_secpFe hx, toNat_secpFe hy] using h
    · split
      · split
        · exact .inl rfl
        · rcases hlift (be body) (c = 0x03) with h | h | ⟨x, y, h⟩
          · exact .inr (.inl h)
          · exact .inr (.inr (.inl h))
          · exact .inr (.inr (.inr ⟨x, y, h⟩))
      · exact .inl rfl

end Sys2Proof.Machine
end

