-- ==== Sys2Proof/Laws/Claims.lean ====
section
/-! SUPPORT. The statements' vocabulary is the machine's: completions, register writes and field values said both ways agree. -/

namespace Sys2Proof.Claims

open Sys2Proof.Machine

/-! ### Completions and writes -/

theorem completed_eq (t : State) (c : ResultCode) : completed t c = t.finish c := by
  cases c <;> rfl

theorem withX_eq (s : State) (i : Reg) (v : W256) : withX s i v = s.setX i v := rfl
theorem withF_eq (s : State) (i : Reg) (e : Fe) : withF s i e = s.setF i e := rfl
theorem withP_eq (s : State) (i : Reg) (q : Pt) : withP s i q = s.putP i q := rfl
theorem withEq_eq (s : State) (v : Bool) : withEq s v = s.setEq v := rfl
theorem withVok_eq (s : State) (v : Bool) : withVok s v = s.setVok v := rfl

/-- A P write whose point is affine is a P write with INF cleared. -/
theorem withP_affine (s : State) (i : Reg) {q : Pt} (h : q.inf = false) :
    withP s i q = (s.setP i q).setInf false := by rw [withP_eq, State.putP, h]

/-- What a completion finally is, said with the machine's functions. -/
theorem pointEnd_ok (s : State) (d : Reg) (q : Pt) : pointEnd s d (.ok q) = (s.putP d q).finish .ok := by
  rw [pointEnd, completed_eq, withP_eq]

theorem pointEnd_error (s : State) (d : Reg) (c : ResultCode) : pointEnd s d (.error c) = s.finish c := by
  rw [pointEnd, completed_eq]

/-! ### Field values -/

theorem identity_eq (a b : Fe) : identity a b = Pt.identity a b := rfl

theorem ofInt_emod {m : W256} (hm : 2 ≤ m.toNat) (z : Int) :
    BitVec.ofInt 256 (z % (m.toNat : Int)) = BitVec.ofNat 256 (z % (m.toNat : Int)).toNat := by
  have h := Int.emod_nonneg z (show (m.toNat : Int) ≠ 0 by omega)
  obtain ⟨k, hk⟩ := Int.eq_ofNat_of_zero_le h
  rw [hk]
  rfl

theorem fe_eq {m : W256} (hm : 2 ≤ m.toNat) (z : Int) :
    fe z m = ⟨BitVec.ofNat 256 (z % (m.toNat : Int)).toNat, m⟩ := by rw [fe, ofInt_emod hm]

theorem fe_natCast {m : W256} (hm : 2 ≤ m.toNat) (k : Nat) : fe (k : Int) m = ⟨BitVec.ofNat 256 (k % m.toNat), m⟩ := by
  rw [fe_eq hm]
  rfl

/-- `fe z m` is the legal element of value `z`. -/
theorem fe_in {m : Nat} {w : W256} (hw : w.toNat = m) (hm : 2 ≤ m) (z : Int) :
    (fe z w).In m ∧ (fe z w).toZ m = (z : ZMod m) := by
  rw [fe_eq (by omega)]
  exact ⟨⟨hw, wf_emod (by omega) z⟩, Fe.toZ_ofEmod hw hm z⟩

/-- An element is `fe z m` when it is legal and its value is `z`. -/
theorem eq_fe {m : Nat} {r : Fe} {w : W256} {z : Int} (hr : r.In m) (hw : w.toNat = m) (h : r.toZ m = (z : ZMod m)) :
    r = fe z w := by
  have hm : 2 ≤ m := hr.modulus ▸ hr.two_le
  obtain ⟨h1, h2⟩ := fe_in hw hm z
  exact hr.ext h1 (h.trans h2.symm)

theorem intCast_int (m : Nat) (e : Fe) : ((int e : Int) : ZMod m) = e.toZ m := by
  rw [int, Fe.toZ, Int.cast_natCast]

theorem fp_eq {v : Nat} (hv : v < secpP) : fp v = secpFe v := by
  have hp : (BitVec.ofNat 256 secpP).toNat = secpP := by decide +kernel
  rw [fp, fe_natCast (by rw [hp]; decide +kernel), hp, Nat.mod_eq_of_lt hv]
  rfl

/-- The affine secp256k1 point the statements name is the machine's. -/
theorem secpPoint_eq {x y : Nat} (hx : x < secpP) (hy : y < secpP) : secpPoint x y = secpAffine x y := by
  rw [secpPoint, secpAffine, fp_eq hx, fp_eq hy, fp_eq zero_lt_secpP, fp_eq seven_lt_secpP]

theorem secpPoint_generator : secpPoint secpGx secpGy = secpG :=
  secpPoint_eq (by decide +kernel) (by decide +kernel)

theorem onSecp_iff (q : Pt) : onSecp q ↔ issecp q = true := by
  rw [issecp_iff, onSecp, fp_eq zero_lt_secpP, fp_eq seven_lt_secpP]

theorem inRange_iff (k : Nat) : inRange k ↔ inScalarRange k = true := by
  rw [inScalarRange_iff]
  have := one_lt_secpN
  unfold inRange
  omega

/-! ### The group law (R156) -/

theorem third_eq {m : Nat} {q t : Pt} {x2 s : Int} (hq : q.In m) (ht : t.In m) (hi : t.inf = false) (ha : t.a = q.a)
    (hb : t.b = q.b) (hx : t.x.toZ m = (s : ZMod m) ^ 2 - q.x.toZ m - (x2 : ZMod m))
    (hy : t.y.toZ m = (s : ZMod m) * (q.x.toZ m - t.x.toZ m) - q.y.toZ m) : t = third q x2 s := by
  have ex : t.x = fe (s ^ 2 - int q.x - x2) q.a.m := eq_fe ht.x hq.a.modulus (by
    rw [hx]
    push_cast [intCast_int]
    ring)
  have ey : t.y = fe (s * (int q.x - (s ^ 2 - int q.x - x2)) - int q.y) q.a.m := eq_fe ht.y hq.a.modulus (by
    rw [hy, hx]
    push_cast [intCast_int]
    ring)
  obtain ⟨i, x, y, a, b⟩ := t
  simp_all [third]

/-- Addition is the statements' sum, on legal points. -/
theorem padd_eq_sum {q r : Pt} (hq : q.wf) (hr : r.wf) : padd q r = sum q r := by
  by_cases hc : q.a ≠ r.a ∨ q.b ≠ r.b
  · rw [padd_mismatch hc, sum, if_pos hc]
  obtain ⟨ha, hb⟩ : q.a = r.a ∧ q.b = r.b := by simpa using hc
  have hqi := hq.in
  have hri := Pt.wf_of_curve hqi hr ha.symm
  rw [sum, if_neg hc]
  cases hqinf : q.inf with
  | true => rw [padd_inf_left ha hb hqinf]; rfl
  | false =>
    rw [if_neg (by simp)]
    cases hrinf : r.inf with
    | true => rw [padd_inf_right ha hb hqinf hrinf]; rfl
    | false =>
      rw [if_neg (by simp)]
      by_cases hx : q.x = r.x
      · by_cases hy : q.y = r.y
        · have hqr : q = r := by
            obtain ⟨i, x, y, a, b⟩ := q
            obtain ⟨i', x', y', a', b'⟩ := r
            simp_all
          subst hqr
          rw [if_neg (by simp), if_neg (by simp)]
          have hzero : (2 * int q.y % (q.a.m.toNat : Int) = 0) ↔ 2 * q.y.toZ q.a.m.toNat = 0 := by
            rw [← intCast_int]
            have h2 : (2 : ZMod q.a.m.toNat) * ((int q.y : Int) : ZMod q.a.m.toNat) =
                ((2 * int q.y : Int) : ZMod q.a.m.toNat) := by push_cast; rfl
            rw [h2, ZMod.intCast_zmod_eq_zero_iff_dvd]
            exact ⟨Int.dvd_of_emod_eq_zero, Int.emod_eq_zero_of_dvd⟩
          by_cases h0 : q.y.v = 0
          · rw [padd_vertical_tangent hqi hqinf h0, if_pos h0]; rfl
          · rw [if_neg h0]
            rcases padd_tangent hqi hqinf h0 with ⟨hz, he⟩ | ⟨hz, t, s, he, hin, ti, ta, tb, hs, hX, hY⟩
            · rw [he, if_pos (hzero.2 hz)]
            · rw [he, if_neg (fun h => hz (hzero.1 h))]
              congr 1
              refine third_eq hqi hin ti ta tb ?_ ?_
              · rw [hX, hs]
                push_cast [intCast_int]
                ring
              · rw [hY, hs]
                push_cast [intCast_int]
                rfl
        · rw [padd_vertical hqi ha hb hqinf hrinf hx hy, if_pos ⟨hx, hy⟩]; rfl
      · rw [if_neg (fun h => hx h.1), if_pos hx]
        obtain ⟨t, s, he, hin, ti, ta, tb, hs, hX, hY⟩ := padd_chord hqi hri ha hb hqinf hrinf hx
        rw [he]
        congr 1
        refine third_eq hqi hin ti ta tb ?_ ?_
        · rw [hX, hs]
          push_cast [intCast_int]
          rfl
        · rw [hY, hs]
          push_cast [intCast_int]
          rfl

end Sys2Proof.Claims
end

