-- ==== Sys2Proof/Laws/Decode.lean ====
section
/-! SUPPORT. The command word and its fields determine each other (30_encoding.md R80, R86). -/

namespace Sys2Proof

theorem toNat_assemble {opc : Nat} (h : opc < 256) (f : Fields) : (assemble opc f).toNat =
    opc + f.d.val * 2 ^ 8 + f.a.val * 2 ^ 12 + f.b.val * 2 ^ 16 + f.c.val * 2 ^ 20 + f.e.val * 2 ^ 24
      + f.m.toNat * 2 ^ 28 + f.rsv.val * 2 ^ 29 := by
  have hm := Bool.toNat_le f.m
  rw [assemble, BitVec.toNat_ofNat, Nat.mod_eq_of_lt]
  omega

theorem opcodeOf_assemble {opc : Nat} (h : opc < 256) (f : Fields) : opcodeOf (assemble opc f) = opc := by
  rw [opcodeOf, toNat_assemble h]
  omega

theorem ofWord_assemble {opc : Nat} (h : opc < 256) (f : Fields) : Fields.ofWord (assemble opc f) = f := by
  have hm := Bool.toNat_le f.m
  have hb : ∀ c : Bool, (c.toNat == 1) = c := by decide
  rw [Fields.ofWord, toNat_assemble h]
  obtain ⟨d, a, b, c, e, m, rsv⟩ := f
  simp only [Fields.mk.injEq, Fin.ext_iff, Fin.ofNat]
  simp only at hm
  refine ⟨by omega, by omega, by omega, by omega, by omega, ?_, by omega⟩
  refine Eq.trans (congrArg (· == 1) (?_ : _ = m.toNat)) (hb m)
  omega

theorem assemble_ofWord (w : W32) : assemble (opcodeOf w) (Fields.ofWord w) = w := by
  have hw := w.isLt
  have hbit : (w.toNat / 2 ^ 28 % 2 == 1).toNat = w.toNat / 2 ^ 28 % 2 := by
    rcases Nat.mod_two_eq_zero_or_one (w.toNat / 2 ^ 28) with h | h <;> rw [h] <;> rfl
  apply BitVec.eq_of_toNat_eq
  rw [toNat_assemble (by rw [opcodeOf]; omega)]
  simp only [opcodeOf, Fields.ofWord, Fin.ofNat, hbit]
  omega

/-- A command's opcode is below 256 and its reserved field is 0. -/
theorem Instr.parts_opcode (i : Instr) : i.parts.1 < 256 := by cases i <;> simp [Instr.parts]

theorem Instr.parts_rsv (i : Instr) : i.parts.2.rsv = 0 := by cases i <;> rfl

/-- The row a command's opcode has, and that the row builds the command from its fields. -/
theorem Instr.parts_row (i : Instr) :
    ∃ r, opcodeRow i.parts.1 = some r ∧ r.use.admits i.parts.2 = true ∧ r.build i.parts.2 = i := by
  cases i <;> exact ⟨_, rfl, by simp [FieldUse.admits, Instr.parts], rfl⟩

/-- A row builds a command whose opcode is its own, and whose fields are those given when it admits them. -/
theorem opcodeRow_parts {n : Nat} {r : OpcodeRow} (h : opcodeRow n = some r) {f : Fields} (hr : f.rsv = 0)
    (ha : r.use.admits f = true) : (r.build f).parts = (n, f) := by
  obtain ⟨d, a, b, c, e, m, rsv⟩ := f
  simp only at hr
  subst hr
  unfold opcodeRow at h
  split at h <;> first
    | (cases h; done)
    | (cases h
       simp only [FieldUse.admits, Bool.true_or, Bool.false_or, Bool.and_true, Bool.true_and, Bool.and_eq_true,
         beq_iff_eq, Bool.not_eq_true'] at ha
       simp_all [Instr.parts])

/-- What a decoded word says: its opcode and fields are the command's own, and the command is well formed. -/
theorem decode_ok {w : W32} {i : Instr} (h : decode w = .ok i) :
    i.parts = (opcodeOf w, Fields.ofWord w) ∧ i.wellFormed = true := by
  unfold decode at h
  split at h
  · cases h
  · rename_i r hr
    split at h
    · cases h
    split at h
    · cases h
    split at h
    · cases h
    · rename_i h1 h2 h3
      cases h
      exact ⟨opcodeRow_parts hr (not_not.1 h1) (by simpa using h2), by simpa using h3⟩

end Sys2Proof
end

