-- ==== Sys2Proof/Laws/Der.lean ====
section
/-! SUPPORT. DER: the shape of what is written, that it parses back, and what the parse can answer (45_encoding.md R232, R233, R239). -/

namespace Sys2Proof.Machine

/-! ### The content of an INTEGER -/

theorem derContent_pad {v : Nat} {c : Byte} {rest : List Byte} (h : minbe v = c :: rest) (hc : c.msb = true) :
    derContent v = 0x00 :: minbe v := by
  simp [derContent, h, hc]

theorem derContent_plain {v : Nat} {c : Byte} {rest : List Byte} (h : minbe v = c :: rest) (hc : c.msb = false) :
    derContent v = minbe v := by
  simp [derContent, h, hc]

/-- The content is the shortest string, with a zero byte before it exactly when its high bit is set. -/
theorem derContent_cases {v : Nat} (h0 : 1 ≤ v) (h : v < 2 ^ 256) :
    ∃ c rest, minbe v = c :: rest ∧
      ((c.msb = true ∧ derContent v = 0x00 :: minbe v) ∨ (c.msb = false ∧ derContent v = minbe v)) := by
  obtain ⟨c, rest, hm⟩ := List.exists_cons_of_ne_nil (minbe_ne_nil h0 h)
  refine ⟨c, rest, hm, ?_⟩
  cases hc : c.msb
  · exact .inr ⟨rfl, derContent_plain hm hc⟩
  · exact .inl ⟨rfl, derContent_pad hm hc⟩

theorem be_derContent {v : Nat} (h0 : 1 ≤ v) (h : v < 2 ^ 256) : be (derContent v) = v := by
  obtain ⟨c, rest, -, ⟨-, hd⟩ | ⟨-, hd⟩⟩ := derContent_cases h0 h
  · rw [hd, be_cons, be_minbe h]
    simp
  · rw [hd, be_minbe h]

theorem length_derContent {v : Nat} (h0 : 1 ≤ v) (h : v < 2 ^ 256) :
    1 ≤ (derContent v).length ∧ (derContent v).length ≤ 33 := by
  have hle := length_minbe_le v
  obtain ⟨c, rest, hm, ⟨-, hd⟩ | ⟨-, hd⟩⟩ := derContent_cases h0 h
  · rw [hd, List.length_cons]
    omega
  · rw [hd]
    refine ⟨?_, by omega⟩
    rw [hm, List.length_cons]
    omega

/-- The first content byte has its high bit clear: the number is positive (R232). -/
theorem derContent_head {v : Nat} (h0 : 1 ≤ v) (h : v < 2 ^ 256) :
    ∃ c rest, derContent v = c :: rest ∧ c.msb = false := by
  obtain ⟨c, rest, hm, ⟨-, hd⟩ | ⟨hc, hd⟩⟩ := derContent_cases h0 h
  · exact ⟨_, _, hd, by decide⟩
  · exact ⟨c, rest, by rw [hd, hm], hc⟩

theorem length_derint (v : Nat) : (derint v).length = (derContent v).length + 2 := by simp [derint]

/-- The whole string has 8 to 72 bytes (R232). -/
theorem length_der {r s : Nat} (hr0 : 1 ≤ r) (hr : r < 2 ^ 256) (hs0 : 1 ≤ s) (hs : s < 2 ^ 256) :
    8 ≤ (der r s).length ∧ (der r s).length ≤ 72 := by
  have h1 := length_derContent hr0 hr
  have h2 := length_derContent hs0 hs
  simp only [der, List.length_cons, List.length_append, length_derint]
  omega

/-! ### Parsing (R233) -/

theorem byteAt_append_right (s t : List Byte) (i : Nat) : byteAt (s ++ t) (s.length + i) = byteAt t i := by
  rw [byteAt, byteAt, List.getD_eq_getElem?_getD, List.getD_eq_getElem?_getD, List.getElem?_append_right (by omega),
    Nat.add_sub_cancel_left]

theorem byteAt_cons_zero (c : Byte) (t : List Byte) : byteAt (c :: t) 0 = c.toNat := rfl

theorem byteAt_cons_succ (c : Byte) (t : List Byte) (i : Nat) : byteAt (c :: t) (i + 1) = byteAt t i := by
  simp [byteAt]

/-- The parse of any well-framed string: it answers the two integers when they fit. -/
theorem derparse_frame (R S : List Byte) (c lr ls : Byte) (hlr : lr.toNat = R.length) (hls : ls.toNat = S.length)
    (hr0 : R.length ≠ 0) (hs0 : S.length ≠ 0) (hc : c.toNat = R.length + S.length + 4)
    (hr : be R < 2 ^ 256) (hs : be S < 2 ^ 256) :
    derparse (0x30 :: c :: 0x02 :: lr :: (R ++ 0x02 :: ls :: S)) = .ok (be R, be S) := by
  have hlen : (0x30 :: c :: 0x02 :: lr :: (R ++ 0x02 :: ls :: S) : List Byte).length = R.length + S.length + 6 := by
    simp only [List.length_cons, List.length_append]
    omega
  have b3 : byteAt (0x30 :: c :: 0x02 :: lr :: (R ++ 0x02 :: ls :: S)) 3 = R.length := by
    rw [byteAt_cons_succ, byteAt_cons_succ, byteAt_cons_succ, byteAt_cons_zero, hlr]
  have b4 : byteAt (0x30 :: c :: 0x02 :: lr :: (R ++ 0x02 :: ls :: S)) (4 + R.length) = 0x02 := by
    have h := byteAt_append_right (0x30 :: c :: 0x02 :: lr :: R) (0x02 :: ls :: S) 0
    have e : (0x30 :: c :: 0x02 :: lr :: R : List Byte).length + 0 = 4 + R.length := by
      simp only [List.length_cons]
      omega
    rw [e] at h
    simpa [byteAt_cons_zero] using h
  have b5 : byteAt (0x30 :: c :: 0x02 :: lr :: (R ++ 0x02 :: ls :: S)) (5 + R.length) = S.length := by
    have h := byteAt_append_right (0x30 :: c :: 0x02 :: lr :: R) (0x02 :: ls :: S) 1
    rw [byteAt_cons_succ, byteAt_cons_zero, hls] at h
    have e : (0x30 :: c :: 0x02 :: lr :: R : List Byte).length + 1 = 5 + R.length := by
      simp only [List.length_cons]
      omega
    rw [e] at h
    simpa using h
  have hR : ((0x30 :: c :: 0x02 :: lr :: (R ++ 0x02 :: ls :: S)).drop 4).take R.length = R := by
    simp
  have hS : ((0x30 :: c :: 0x02 :: lr :: (R ++ 0x02 :: ls :: S)).drop (6 + R.length)).take S.length = S := by
    have e : (0x30 :: c :: 0x02 :: lr :: (R ++ 0x02 :: ls :: S) : List Byte) =
        (0x30 :: c :: 0x02 :: lr :: (R ++ [0x02, ls])) ++ S := by simp
    rw [e, List.drop_left' (by simp; omega), List.take_length]
  simp only [derparse, hlen, b3, b4, b5, hR, hS]
  rw [if_neg, if_neg, if_neg, if_neg, if_neg, if_neg, if_neg]
  · omega
  · omega
  · omega
  · omega
  · rw [byteAt_cons_succ, byteAt_cons_succ, byteAt_cons_zero]
    have : (0x02 : Byte).toNat = 2 := rfl
    omega
  · rw [byteAt_cons_succ, byteAt_cons_zero]
    omega
  · rw [byteAt_cons_zero]
    have : (0x30 : Byte).toNat = 0x30 := rfl
    omega

theorem toNat_byteLength {t : List Byte} (h : t.length < 256) : (BitVec.ofNat 8 t.length).toNat = t.length := by
  rw [BitVec.toNat_ofNat, Nat.mod_eq_of_lt (by omega)]

/-- What DERENC writes parses back (R239). -/
theorem derparse_der {r s : Nat} (hr0 : 1 ≤ r) (hr : r < 2 ^ 256) (hs0 : 1 ≤ s) (hs : s < 2 ^ 256) :
    derparse (der r s) = .ok (r, s) := by
  have h1 := length_derContent hr0 hr
  have h2 := length_derContent hs0 hs
  have hbody : (derint r ++ derint s).length = (derContent r).length + (derContent s).length + 4 := by
    simp only [List.length_append, length_derint]
    omega
  have h := derparse_frame (derContent r) (derContent s) (BitVec.ofNat 8 (derint r ++ derint s).length)
    (BitVec.ofNat 8 (derContent r).length) (BitVec.ofNat 8 (derContent s).length)
    (toNat_byteLength (by omega)) (toNat_byteLength (by omega)) (by omega) (by omega)
    (by rw [toNat_byteLength (by omega), hbody]) (by rw [be_derContent hr0 hr]; exact hr)
    (by rw [be_derContent hs0 hs]; exact hs)
  rw [be_derContent hr0 hr, be_derContent hs0 hs] at h
  rw [der]
  simpa [derint] using h

/-- What the parse can answer: two integers that fit an X register, or `MALFORMED_DER`. -/
theorem derparse_cases (t : List Byte) :
    derparse t = .error .malformedDer ∨ ∃ r s, derparse t = .ok (r, s) ∧ r < 2 ^ 256 ∧ s < 2 ^ 256 := by
  simp only [derparse]
  by_cases h1 : t.length < 2 ∨ byteAt t 0 ≠ 0x30
  · exact .inl (if_pos h1)
  rw [if_neg h1]
  by_cases h2 : byteAt t 1 + 2 ≠ t.length
  · exact .inl (if_pos h2)
  rw [if_neg h2]
  by_cases h3 : t.length < 4 ∨ byteAt t 2 ≠ 0x02
  · exact .inl (if_pos h3)
  rw [if_neg h3]
  by_cases h4 : byteAt t 3 = 0 ∨ t.length < 4 + byteAt t 3 + 2
  · exact .inl (if_pos h4)
  rw [if_neg h4]
  by_cases h5 : byteAt t (4 + byteAt t 3) ≠ 0x02
  · exact .inl (if_pos h5)
  rw [if_neg h5]
  by_cases h6 : byteAt t (5 + byteAt t 3) = 0 ∨ 6 + byteAt t 3 + byteAt t (5 + byteAt t 3) ≠ t.length
  · exact .inl (if_pos h6)
  rw [if_neg h6]
  split
  · exact .inl rfl
  · exact .inr ⟨_, _, rfl, by omega, by omega⟩

/-- A string that parses is well framed, and the integers are those of its contents (R233). -/
theorem derparse_ok {t : List Byte} {r s : Nat} (h : derparse t = .ok (r, s)) :
    ∃ (R S : List Byte) (c lr ls : Byte), t = 0x30 :: c :: 0x02 :: lr :: (R ++ 0x02 :: ls :: S) ∧
      lr.toNat = R.length ∧ ls.toNat = S.length ∧ c.toNat = R.length + S.length + 4 ∧ R.length ≠ 0 ∧ S.length ≠ 0 ∧
      be R = r ∧ be S = s ∧ r < 2 ^ 256 ∧ s < 2 ^ 256 := by
  simp only [derparse] at h
  by_cases h1 : t.length < 2 ∨ byteAt t 0 ≠ 0x30
  · rw [if_pos h1] at h; cases h
  rw [if_neg h1] at h
  by_cases h2 : byteAt t 1 + 2 ≠ t.length
  · rw [if_pos h2] at h; cases h
  rw [if_neg h2] at h
  by_cases h3 : t.length < 4 ∨ byteAt t 2 ≠ 0x02
  · rw [if_pos h3] at h; cases h
  rw [if_neg h3] at h
  by_cases h4 : byteAt t 3 = 0 ∨ t.length < 4 + byteAt t 3 + 2
  · rw [if_pos h4] at h; cases h
  rw [if_neg h4] at h
  by_cases h5 : byteAt t (4 + byteAt t 3) ≠ 0x02
  · rw [if_pos h5] at h; cases h
  rw [if_neg h5] at h
  by_cases h6 : byteAt t (5 + byteAt t 3) = 0 ∨ 6 + byteAt t 3 + byteAt t (5 + byteAt t 3) ≠ t.length
  · rw [if_pos h6] at h; cases h
  rw [if_neg h6] at h
  split at h
  · cases h
  rename_i h7
  simp only [Except.ok.injEq, Prod.mk.injEq] at h
  obtain ⟨hr, hs⟩ := h
  have hlen : 4 ≤ t.length := by omega
  obtain ⟨a, b, c, d, rest, rfl⟩ : ∃ a b c d rest, t = a :: b :: c :: d :: rest := by
    match t, hlen with
    | a :: b :: c :: d :: rest, _ => exact ⟨a, b, c, d, rest, rfl⟩
  have e0 : byteAt (a :: b :: c :: d :: rest) 0 = a.toNat := rfl
  have e1 : byteAt (a :: b :: c :: d :: rest) 1 = b.toNat := rfl
  have e2 : byteAt (a :: b :: c :: d :: rest) 2 = c.toNat := rfl
  have e3 : byteAt (a :: b :: c :: d :: rest) 3 = d.toNat := rfl
  have up : ∀ i, byteAt (a :: b :: c :: d :: rest) (4 + i) = byteAt rest i := fun i => by
    rw [show 4 + i = i + 1 + 1 + 1 + 1 by omega, byteAt_cons_succ, byteAt_cons_succ, byteAt_cons_succ, byteAt_cons_succ]
  rw [e3] at h4 h5 h6 h7 hr hs
  rw [show 5 + d.toNat = 4 + (d.toNat + 1) by omega, up] at h6 h7 hs
  rw [up] at h5
  rw [e0] at h1
  rw [e1] at h2
  rw [e2] at h3
  simp only [List.length_cons] at h1 h2 h3 h4 h6
  -- the rest is the first content, a tag, a length and the second content
  have htail : 2 ≤ (rest.drop d.toNat).length := by rw [List.length_drop]; omega
  obtain ⟨f, g, S, hS⟩ : ∃ f g S, rest.drop d.toNat = f :: g :: S := by
    match rest.drop d.toNat, htail with
    | f :: g :: S, _ => exact ⟨f, g, S, rfl⟩
  have hrest : rest = rest.take d.toNat ++ f :: g :: S := by rw [← hS, List.take_append_drop]
  have hR : (rest.take d.toNat).length = d.toNat := by rw [List.length_take]; omega
  generalize rest.take d.toNat = R at hrest hR hr
  subst hrest
  rw [← hR] at h4 h5 h6 h7 hs hr
  have b4 := byteAt_append_right R (f :: g :: S) 0
  have b5 := byteAt_append_right R (f :: g :: S) 1
  rw [Nat.add_zero, byteAt_cons_zero] at b4
  rw [byteAt_cons_succ, byteAt_cons_zero] at b5
  rw [b4] at h5
  rw [b5] at h6 h7 hs
  simp only [List.length_append, List.length_cons] at h1 h2 h3 h4 h6
  have hRr : ((a :: b :: c :: d :: (R ++ f :: g :: S)).drop 4).take R.length = R := by simp
  have hSs : ((a :: b :: c :: d :: (R ++ f :: g :: S)).drop (6 + R.length)).take g.toNat = S := by
    have e : (a :: b :: c :: d :: (R ++ f :: g :: S) : List Byte) = (a :: b :: c :: d :: (R ++ [f, g])) ++ S := by simp
    rw [e, List.drop_left' (by simp; omega), List.take_of_length_le (by omega)]
  rw [hRr] at hr h7
  rw [hSs] at hs h7
  have byte : ∀ (x y : Byte), x.toNat = y.toNat → x = y := fun _ _ => BitVec.eq_of_toNat_eq
  have k0 : a = 0x30 := byte _ _ (by rw [not_or, not_not] at h1; exact h1.2)
  have k2 : c = 0x02 := byte _ _ (by rw [not_or, not_not] at h3; exact h3.2)
  have k4 : f = 0x02 := byte _ _ (not_not.1 h5)
  refine ⟨R, S, b, d, g, by rw [k0, k2, k4], by omega, by omega, by omega, by omega, by omega, hr, hs, by omega, by omega⟩

end Sys2Proof.Machine
end

