-- ==== Sys2Proof/Laws/Memory.lean ====
section
/-! SUPPORT. The byte buffer: a read after a write, and that every operation keeps the canonical form. -/

namespace Sys2Proof.Machine

/-- Below every listed index an unlisted byte is read. -/
theorem Memory.read_of_lt {b : Memory} {j : Nat} (h : ∀ c ∈ b, j < c.1) : b.read j = Memory.unlisted := by
  induction b with
  | nil => rfl
  | cons c rest ih =>
    have hc := h c (by simp)
    rw [Memory.read, if_neg (by omega)]
    exact ih fun c' hc' => h c' (by simp [hc'])

/-- An entry of a `put` is the new one or an old one. -/
theorem Memory.mem_put {b : Memory} {j : Nat} {v : Byte} {c : Host.Cell} (h : c ∈ b.put j v) :
    c = (j, v) ∧ v ≠ Memory.unlisted ∨ c ∈ b := by
  induction b with
  | nil => simp only [Memory.put] at h; split at h <;> simp_all
  | cons d rest ih =>
    simp only [Memory.put] at h
    split at h
    · split at h
      · exact .inr h
      · rcases List.mem_cons.1 h with h | h
        · exact .inl ⟨h, by assumption⟩
        · exact .inr h
    · split at h
      · split at h
        · exact .inr (List.mem_cons_of_mem _ h)
        · rcases List.mem_cons.1 h with h | h
          · exact .inl ⟨h, by assumption⟩
          · exact .inr (List.mem_cons_of_mem _ h)
      · rcases List.mem_cons.1 h with h | h
        · simp [h]
        · rcases ih h with h | h <;> simp [h]

theorem Memory.read_put {b : Memory} (hw : b.Pairwise fun c c' => c.1 < c'.1) (j k : Nat) (v : Byte) :
    (b.put j v).read k = if k = j then v else b.read k := by
  induction b with
  | nil =>
    by_cases hv : v = Memory.unlisted
    · simp [Memory.put, Memory.read, hv]
    · simp [Memory.put, Memory.read, hv, eq_comm]
  | cons c rest ih =>
    obtain ⟨hc, hr⟩ := List.pairwise_cons.1 hw
    have hlow : ∀ i, i ≤ c.1 → Memory.read rest i = Memory.unlisted :=
      fun i hi => Memory.read_of_lt fun c' hc' => lt_of_le_of_lt hi (hc c' hc')
    by_cases hk : k = j
    · subst hk
      rw [if_pos rfl]
      rcases Nat.lt_trichotomy k c.1 with hj | hj | hj
      · have hne : c.1 ≠ k := by omega
        by_cases hv : v = Memory.unlisted
        · simp [Memory.put, Memory.read, hv, hj, hne, hlow k hj.le]
        · simp [Memory.put, Memory.read, hv, hj]
      · by_cases hv : v = Memory.unlisted
        · simp [Memory.put, hv, hj, hlow c.1 le_rfl]
        · simp [Memory.put, Memory.read, hv, hj]
      · have h1 : ¬ k < c.1 := by omega
        have h2 : k ≠ c.1 := by omega
        simpa [Memory.put, Memory.read, h1, h2, h2.symm] using ih hr
    · rw [if_neg hk]
      have hk' : j ≠ k := fun h => hk h.symm
      rcases Nat.lt_trichotomy j c.1 with hj | hj | hj
      · by_cases hv : v = Memory.unlisted
        · simp [Memory.put, hv, hj]
        · simp [Memory.put, Memory.read, hv, hj, hk']
      · have hc' : c.1 ≠ k := by omega
        by_cases hv : v = Memory.unlisted
        · simp [Memory.put, Memory.read, hv, hj, hc']
        · simp [Memory.put, Memory.read, hv, hj, hc']
      · have h1 : ¬ j < c.1 := by omega
        have h2 : j ≠ c.1 := by omega
        have := ih hr
        rw [if_neg hk] at this
        simp [Memory.put, Memory.read, h1, h2, this]

theorem Memory.put_sorted {b : Memory} (hw : b.Pairwise fun c c' => c.1 < c'.1) (j : Nat) (v : Byte) :
    (b.put j v).Pairwise fun c c' => c.1 < c'.1 := by
  induction b with
  | nil => simp only [Memory.put]; split <;> simp
  | cons c rest ih =>
    obtain ⟨hc, hr⟩ := List.pairwise_cons.1 hw
    simp only [Memory.put]
    split
    · rename_i hj
      split
      · exact hw
      · refine List.pairwise_cons.2 ⟨fun c' hc' => ?_, hw⟩
        rcases List.mem_cons.1 hc' with rfl | h
        · exact hj
        · exact lt_trans hj (hc c' h)
    · split
      · rename_i hj
        split
        · exact hr
        · exact List.pairwise_cons.2 ⟨fun c' hc' => by simpa [hj] using hc c' hc', hr⟩
      · rename_i h1 h2
        refine List.pairwise_cons.2 ⟨fun c' hc' => ?_, ih hr⟩
        rcases Memory.mem_put hc' with ⟨rfl, -⟩ | h
        · show c.1 < j
          omega
        · exact hc c' h

theorem Memory.wf_nil : Memory.wf [] := by simp [Memory.wf]

theorem Memory.wf_write {b : Memory} (hw : b.wf) (j : Nat) (v : Byte) : (b.write j v).wf := by
  unfold Memory.write
  split
  · rename_i hj
    refine ⟨Memory.put_sorted hw.1 j v, fun c hc => ?_⟩
    rcases Memory.mem_put hc with ⟨rfl, hv⟩ | h
    · exact ⟨hj, hv⟩
    · exact hw.2 c h
  · exact hw

theorem Memory.read_write {b : Memory} (hw : b.wf) (j k : Nat) (v : Byte) :
    (b.write j v).read k = if k = j ∧ j < Memory.size then v else b.read k := by
  unfold Memory.write
  split
  · rename_i hj
    simp [Memory.read_put hw.1, hj]
  · rename_i hj
    simp [hj]

theorem Memory.wf_writeBytes {b : Memory} (hw : b.wf) (j : Nat) (t : List Byte) : (b.writeBytes j t).wf := by
  induction t generalizing b j with
  | nil => exact hw
  | cons v rest ih => exact ih (Memory.wf_write hw j v) (j + 1)

/-- What each byte reads as after a string is stored at `j` (R230). -/
theorem Memory.read_writeBytes {b : Memory} (hw : b.wf) (j k : Nat) (t : List Byte)
    (hfit : j + t.length ≤ Memory.size) :
    (b.writeBytes j t).read k = if h : j ≤ k ∧ k < j + t.length then t[k - j]'(by omega) else b.read k := by
  induction t generalizing b j with
  | nil =>
    have h : ¬(j ≤ k ∧ k < j + ([] : List Byte).length) := by simp
    rw [dif_neg h]
    rfl
  | cons v rest ih =>
    have hlen : (v :: rest).length = rest.length + 1 := rfl
    rw [Memory.writeBytes, ih (Memory.wf_write hw j v) (j + 1) (by omega), Memory.read_write hw]
    rcases Nat.lt_trichotomy k j with hk | rfl | hk
    · rw [dif_neg (by omega), dif_neg (by omega), if_neg (by omega)]
    · rw [dif_neg (by omega), dif_pos (by omega), if_pos (by constructor <;> omega)]
      simp
    · by_cases hin : k < j + 1 + rest.length
      · rw [dif_pos (by omega), dif_pos (by omega)]
        obtain ⟨i, rfl⟩ : ∃ i, k = j + 1 + i := ⟨k - (j + 1), by omega⟩
        have h1 : j + 1 + i - (j + 1) = i := by omega
        have h2 : j + 1 + i - j = i + 1 := by omega
        simp [h1, h2]
      · rw [dif_neg (by omega), dif_neg (by omega), if_neg (by omega)]

/-- Reading back the string just stored. -/
theorem Memory.readBytes_writeBytes {b : Memory} (hw : b.wf) (t : List Byte) (hfit : t.length ≤ Memory.size) :
    (b.writeBytes 0 t).readBytes 0 t.length = t := by
  apply List.ext_getElem
  · simp [Memory.readBytes]
  · intro i h1 h2
    simp [Memory.readBytes, Memory.read_writeBytes hw 0 i t (by omega), h2]

@[simp] theorem Memory.length_readBytes (b : Memory) (j k : Nat) : (b.readBytes j k).length = k := by
  simp [Memory.readBytes]

/-- The length an encoder leaves. -/
theorem State.len_putString {s : State} (t : List Byte) (hfit : t.length ≤ Memory.size) (c : ResultCode) :
    ((s.putString t).finish c).len.toNat = t.length := by
  rw [State.finish_len, State.putString_len, BitVec.toNat_ofNat, Nat.mod_eq_of_lt]
  simp only [Memory.size] at hfit
  omega

/-- The string an encoder leaves is the string a decoder reads (R230). -/
theorem State.readString_putString {s : State} (hw : s.buf.wf) (t : List Byte) (hfit : t.length ≤ Memory.size)
    (c : ResultCode) : ((s.putString t).finish c).readString = t := by
  rw [State.readString, State.len_putString t hfit, State.finish_buf, State.putString_buf, Memory.readBytes_writeBytes hw t hfit]

end Sys2Proof.Machine
end

