-- ==== Sys2Proof/Laws/OnCurve.lean ====
section
/-! SUPPORT. The group law's results: legal values of the operands' curve, on the curve when the modulus is prime; and which errors it can raise (10_state.md R26, 42_point.md R156, R159). -/

namespace Sys2Proof.Machine

/-! ### Addition -/

/-- Over a prime modulus addition keeps to the curve (R156). -/
theorem padd_onCurve {q r t : Pt} (hq : q.wf) (hr : r.wf) (hp : q.a.m.toNat.Prime) (hqc : q.onCurve)
    (hrc : r.onCurve) (h : padd q r = .ok t) : t.onCurve := by
  have hfact : Fact q.a.m.toNat.Prime := ⟨hp⟩
  by_cases hc : q.a ≠ r.a ∨ q.b ≠ r.b
  · rw [padd_mismatch hc] at h
    cases h
  obtain ⟨ha, hb⟩ : q.a = r.a ∧ q.b = r.b := by simpa using hc
  have hqi := hq.in
  have hri := Pt.wf_of_curve hqi hr ha.symm
  have eqn : ∀ {u : Pt}, u.In q.a.m.toNat → u.a = q.a → u.b = q.b → u.inf = false → u.onCurve →
      (shortCurve q.a.m.toNat (q.a.toZ q.a.m.toNat) (q.b.toZ q.a.m.toNat)).Equation (u.x.toZ q.a.m.toNat)
        (u.y.toZ q.a.m.toNat) := fun hu hua hub hui huc => by
    rw [shortCurve_equation_iff, ← hua, ← hub]
    have h' := (oncurve_iff hu).1 (huc hui)
    rwa [hua] at h' ⊢
  have back : ∀ {u : Pt}, u.In q.a.m.toNat → u.a = q.a → u.b = q.b →
      (shortCurve q.a.m.toNat (q.a.toZ q.a.m.toNat) (q.b.toZ q.a.m.toNat)).Equation (u.x.toZ q.a.m.toNat)
        (u.y.toZ q.a.m.toNat) → u.onCurve := fun hu hua hub he _ => by
    rw [oncurve_iff hu, hua, hub]
    exact (shortCurve_equation_iff _ _).1 he
  cases hqinf : q.inf with
  | true =>
    rw [padd_inf_left ha hb hqinf] at h
    cases h
    exact hrc
  | false =>
    cases hrinf : r.inf with
    | true =>
      rw [padd_inf_right ha hb hqinf hrinf] at h
      cases h
      exact hqc
    | false =>
      have e1 := eqn hqi rfl rfl hqinf hqc
      have e2 := eqn hri ha.symm hb.symm hrinf hrc
      by_cases hx : q.x = r.x
      · by_cases hy : q.y = r.y
        · have hqr : q = r := by
            obtain ⟨i, x, y, a, b⟩ := q
            obtain ⟨i', x', y', a', b'⟩ := r
            simp_all
          subst hqr
          by_cases h0 : q.y.v = 0
          · rw [padd_vertical_tangent hqi hqinf h0] at h
            cases h
            exact fun hi => by cases hi
          · rcases padd_tangent hqi hqinf h0 with ⟨-, he⟩ | ⟨h2, u, s, he, hin, ui, ua, ub, hs, hX, hY⟩
            · rw [he] at h
              cases h
            rw [he] at h
            cases h
            refine back hin ua ub ?_
            have hne : q.y.toZ q.a.m.toNat ≠ (shortCurve q.a.m.toNat (q.a.toZ q.a.m.toNat)
                (q.b.toZ q.a.m.toNat)).negY (q.x.toZ q.a.m.toNat) (q.y.toZ q.a.m.toNat) := by
              rw [shortCurve_negY]
              intro hh
              exact h2 (by linear_combination hh)
            have hadd := WeierstrassCurve.Affine.equation_add e1 e1 (fun hh => hne hh.2)
            have hslope : (shortCurve q.a.m.toNat (q.a.toZ q.a.m.toNat) (q.b.toZ q.a.m.toNat)).slope
                (q.x.toZ q.a.m.toNat) (q.x.toZ q.a.m.toNat) (q.y.toZ q.a.m.toNat) (q.y.toZ q.a.m.toNat) = s := by
              rw [WeierstrassCurve.Affine.slope_of_Y_ne rfl hne, hs, pow_sub_two_eq_inv' h2, shortCurve_negY,
                div_eq_mul_inv]
              simp only [shortCurve]
              congr 1 <;> ring
            rw [hslope] at hadd
            rw [WeierstrassCurve.Affine.addY, shortCurve_negY, WeierstrassCurve.Affine.negAddY,
              WeierstrassCurve.Affine.addX] at hadd
            simp only [shortCurve] at hadd ⊢
            rw [hY, hX]
            refine (shortCurve_equation_iff _ _).2 (Eq.trans ?_ (((shortCurve_equation_iff _ _).1 hadd).trans ?_)) <;> ring
        · rw [padd_vertical hqi ha hb hqinf hrinf hx hy] at h
          cases h
          exact fun hi => by cases hi
      · obtain ⟨u, s, he, hin, ui, ua, ub, hs, hX, hY⟩ := padd_chord hqi hri ha hb hqinf hrinf hx
        rw [he] at h
        cases h
        refine back hin ua ub ?_
        have hxz : q.x.toZ q.a.m.toNat ≠ r.x.toZ q.a.m.toNat := fun hh => hx (hqi.x.ext hri.x hh)
        have hadd := WeierstrassCurve.Affine.equation_add e1 e2 (fun hh => hxz hh.1)
        have hslope : (shortCurve q.a.m.toNat (q.a.toZ q.a.m.toNat) (q.b.toZ q.a.m.toNat)).slope
            (q.x.toZ q.a.m.toNat) (r.x.toZ q.a.m.toNat) (q.y.toZ q.a.m.toNat) (r.y.toZ q.a.m.toNat) = s := by
          rw [WeierstrassCurve.Affine.slope_of_X_ne hxz, hs,
            pow_sub_two_eq_inv' (sub_ne_zero.2 (Ne.symm hxz)), ← div_eq_mul_inv,
            ← neg_sub (q.y.toZ q.a.m.toNat), ← neg_sub (q.x.toZ q.a.m.toNat), neg_div_neg_eq]
        rw [hslope] at hadd
        rw [WeierstrassCurve.Affine.addY, shortCurve_negY, WeierstrassCurve.Affine.negAddY,
          WeierstrassCurve.Affine.addX] at hadd
        simp only [shortCurve] at hadd ⊢
        rw [hY, hX]
        refine (shortCurve_equation_iff _ _).2 (Eq.trans ?_ (((shortCurve_equation_iff _ _).1 hadd).trans ?_)) <;> ring

/-! ### Negation (R158) -/

theorem pneg_wf {q : Pt} (h : q.wf) : (pneg q).wf ∧ (pneg q).a = q.a ∧ (pneg q).b = q.b ∧ (pneg q).inf = q.inf := by
  unfold pneg
  split
  · exact ⟨h, rfl, rfl, rfl⟩
  · rename_i hi
    have hin := h.in
    have hin' : Pt.In q.a.m.toNat
        { q with y := ⟨BitVec.ofNat 256 ((0 - (q.y.v.toNat : Int)) % q.a.m.toNat).toNat, q.a.m⟩ } :=
      ⟨hin.x, ⟨rfl, wf_emod hin.a.two_le _⟩, hin.a, hin.b, fun hi' => absurd hi' hi⟩
    exact ⟨hin'.wf, rfl, rfl, rfl⟩

theorem pneg_onCurve {q : Pt} (hw : q.wf) (h : q.onCurve) : (pneg q).onCurve := by
  unfold pneg
  split
  · exact h
  · intro hi
    have hin := hw.in
    have hin' : Pt.In q.a.m.toNat
        { q with y := ⟨BitVec.ofNat 256 ((0 - (q.y.v.toNat : Int)) % q.a.m.toNat).toNat, q.a.m⟩ } :=
      ⟨hin.x, ⟨rfl, wf_emod hin.a.two_le _⟩, hin.a, hin.b, fun hi' => by simp_all⟩
    have he := (oncurve_iff hin).1 (h hi)
    refine (oncurve_iff hin').2 ?_
    simp only [Fe.toZ_ofEmod rfl hin.two_le]
    push_cast
    rw [zero_sub, neg_sq]
    exact he

/-! ### Scalar multiplication (R159) -/

/-- What addition can answer on legal points of one curve: a legal point of it, on it when the modulus is prime, or
`DIVISION_BY_ZERO` over an even modulus. -/
theorem padd_same_cases {q r : Pt} (hq : q.wf) (hr : r.wf) (ha : q.a = r.a) (hb : q.b = r.b) :
    (∃ t, padd q r = .ok t ∧ t.wf ∧ t.a = r.a ∧ t.b = r.b ∧
      (r.a.m.toNat.Prime → q.onCurve → r.onCurve → t.onCurve)) ∨
      (padd q r = .error .divisionByZero ∧ r.a.m.toNat % 2 ≠ 1) := by
  rcases padd_cases hq hr with ⟨t, ht, hw, hta, htb, -⟩ | ⟨-, hne⟩ | ⟨he, -, -, -, h0, h2⟩
  · exact .inl ⟨t, ht, hw, hta.trans ha, htb.trans hb, fun hp h1 h2 => padd_onCurve hq hr (by rwa [ha]) h1 h2 ht⟩
  · exact absurd hne (by simp [ha, hb])
  · refine .inr ⟨he, fun hodd => ?_⟩
    rw [← ha] at hodd
    exact two_mul_ne_zero hq.in.y hodd h0 h2

/-- What the loop can answer: the same. -/
theorem pmulLoop_cases (fuel : Nat) {result current : Pt} {coef : Nat} (hr : result.wf) (hc : current.wf)
    (ha : result.a = current.a) (hb : result.b = current.b) :
    (∃ t, pmulLoop fuel result current coef = .ok t ∧ t.wf ∧ t.a = current.a ∧ t.b = current.b ∧
      (current.a.m.toNat.Prime → result.onCurve → current.onCurve → t.onCurve)) ∨
      (pmulLoop fuel result current coef = .error .divisionByZero ∧ current.a.m.toNat % 2 ≠ 1) := by
  induction fuel generalizing result current coef with
  | zero => exact .inl ⟨result, rfl, hr, ha, hb, fun _ h _ => h⟩
  | succ fuel ih =>
    rw [pmulLoop]
    split
    · exact .inl ⟨result, rfl, hr, ha, hb, fun _ h _ => h⟩
    · have hstep : (∃ u, (if coef % 2 = 1 then padd result current else .ok result : Except ResultCode Pt) = .ok u ∧
          u.wf ∧ u.a = current.a ∧ u.b = current.b ∧
          (current.a.m.toNat.Prime → result.onCurve → current.onCurve → u.onCurve)) ∨
          ((if coef % 2 = 1 then padd result current else .ok result : Except ResultCode Pt) =
            .error .divisionByZero ∧ current.a.m.toNat % 2 ≠ 1) := by
        split
        · exact padd_same_cases hr hc ha hb
        · exact .inl ⟨result, rfl, hr, ha, hb, fun _ h _ => h⟩
      rcases hstep with ⟨u, hu, huw, hua, hub, huc⟩ | ⟨he, hm⟩
      · rw [hu, except_ok_bind]
        rcases padd_same_cases hc hc rfl rfl with ⟨v, hv, hvw, hva, hvb, hvc⟩ | ⟨he, hm⟩
        · rw [hv, except_ok_bind]
          rcases ih (coef := coef / 2) huw hvw (hua.trans hva.symm) (hub.trans hvb.symm) with
            ⟨t, ht, htw, hta, htb, htc⟩ | ⟨he, hm⟩
          · exact .inl ⟨t, ht, htw, hta.trans hva, htb.trans hvb, fun hp h1 h2 =>
              htc (by rwa [hva]) (huc hp h1 h2) (hvc hp h2 h2)⟩
          · exact .inr ⟨he, by rwa [hva] at hm⟩
        · rw [he, except_error_bind]
          exact .inr ⟨rfl, hm⟩
      · rw [he, except_error_bind]
        exact .inr ⟨rfl, hm⟩

theorem pmul_cases {q : Pt} (k : Nat) (hq : q.wf) :
    (∃ t, pmul q k = .ok t ∧ t.wf ∧ t.a = q.a ∧ t.b = q.b ∧ (q.a.m.toNat.Prime → q.onCurve → t.onCurve)) ∨
      (pmul q k = .error .divisionByZero ∧ q.a.m.toNat % 2 ≠ 1) := by
  have hin := hq.in
  rw [pmul, mkinf_same (hin.a.same hin.b), except_ok_bind]
  rcases pmulLoop_cases 256 (coef := k) (Pt.identity_in hin.a hin.b).wf hq rfl rfl with ⟨t, ht, hw, ha, hb, hc⟩ | h
  · exact .inl ⟨t, ht, hw, ha, hb, fun hp h => hc hp (fun hi => by cases hi) h⟩
  · exact .inr h

/-! ### Construction (R153) -/

/-- What PSET's helper can answer on legal elements. -/
theorem mkpoint_cases {x y a b : Fe} (hx : x.wf) (hy : y.wf) (ha : a.wf) (hb : b.wf) :
    (x.m = y.m ∧ x.m = a.m ∧ x.m = b.m ∧ oncurve x y a b = true ∧ mkpoint x y a b = .ok ⟨false, x, y, a, b⟩ ∧
      Pt.wf ⟨false, x, y, a, b⟩) ∨
    ((x.m ≠ y.m ∨ x.m ≠ a.m ∨ x.m ≠ b.m) ∧ mkpoint x y a b = .error .fieldMismatch) ∨
    (x.m = y.m ∧ x.m = a.m ∧ x.m = b.m ∧ oncurve x y a b = false ∧ mkpoint x y a b = .error .notOnCurve) := by
  rw [mkpoint]
  by_cases hm : x.m ≠ y.m ∨ x.m ≠ a.m ∨ x.m ≠ b.m
  · exact .inr (.inl ⟨hm, if_pos hm⟩)
  · rw [if_neg hm]
    obtain ⟨h1, h2, h3⟩ : x.m = y.m ∧ x.m = a.m ∧ x.m = b.m := by simpa using hm
    cases ho : oncurve x y a b
    · exact .inr (.inr ⟨h1, h2, h3, rfl, rfl⟩)
    · refine .inl ⟨h1, h2, h3, rfl, rfl, ⟨h2, h1.symm.trans h2, h3.symm.trans h2⟩, ⟨hx, hy, ha, hb⟩, fun h => by cases h⟩

end Sys2Proof.Machine
end

