-- ==== Sys2Proof/Laws/Effect.lean ====
section
/-! SUPPORT. Everything a command can do to the state, said once for all commands: frames and invariants follow by cases on it (40_control.md R101, 60_exceptions.md R262). -/

namespace Sys2Proof.Claims

open Sys2Proof.Machine

/-- A legal value of `s`'s P registers, on its curve when theirs are. -/
def Lawful (s : State) (q : Pt) : Prop :=
  (s.Inv → q.wf) ∧ (s.Inv → s.curvesOk → q.a.m.toNat.Prime → q.onCurve)

/-- What the completion step of `i` on `s` can leave. -/
inductive Effect (i : Instr) (s : State) : State → Prop where
  /-- A raised code: nothing but the completion. -/
  | raised (c : ResultCode) : (∀ a b d e, i ≠ .verify a b d e) →
      (s.Inv → i.wellFormed = true → c ∈ errorCodes i) → Effect i s (s.finish c)
  /-- NOP. -/
  | nothing : i = .nop → Effect i s (s.finish .ok)
  /-- ZEROIZE. -/
  | wiped : i = .zeroize → Effect i s (s.zeroized.finish .ok)
  /-- One X register. -/
  | wroteX (d : Reg) (v : W256) : xDests i = [d] → Effect i s ((s.setX d v).finish .ok)
  /-- DERDEC's two X registers. -/
  | wroteXX (d e : Reg) (v w : W256) : i = .derdec d e → Effect i s (((s.setX d v).setX e w).finish .ok)
  /-- One F register. -/
  | wroteF (d : Reg) (r : Fe) : fDests i = [d] → (s.Inv → r.wf) → Effect i s ((s.setF d r).finish .ok)
  /-- One P register, and INF. -/
  | wroteP (d : Reg) (q : Pt) : pDests i = [d] → Lawful s q → Effect i s ((s.putP d q).finish .ok)
  /-- FEQ, PEQ. -/
  | compared (v : Bool) : writesEq i = true → Effect i s ((s.setEq v).finish .ok)
  /-- PTST. -/
  | tested (a : Reg) (v : Bool) : i = .ptst a → Effect i s ((s.setInf v).finish .ok)
  /-- VERIFY. -/
  | verified (a b c e : Reg) (code : ResultCode) (v : Bool) : i = .verify a b c e →
      (code = .ok ∨ (v = false ∧ (s.Inv → code ∈ errorCodes i))) →
      Effect i s ((s.setVok v).finish code)
  /-- SECENC, DERENC. -/
  | encoded (t : List Byte) : writesBuf i = true → Effect i s ((s.putString t).finish .ok)
  /-- KEYGEN, a draw accepted. -/
  | generated (d e : Reg) (rest : List W256) (v : W256) (q : Pt) : i = .keygen d e → Lawful s q → q.inf = false →
      Effect i s ((({ s with entropy := rest }.setX d v).putP e q).finish .ok)
  /-- KEYGEN, no draw in range. -/
  | drawing (d e : Reg) : i = .keygen d e → Effect i s { s with entropy := [] }
  /-- SIGN, a candidate accepted. -/
  | signed (d e a b : Reg) (v w : W256) (nrt : Bool) : i = .sign d e a b →
      Effect i s ((((s.setX d v).setX e w).setNrt nrt).finish .ok)
  /-- SIGN, a candidate rejected. -/
  | signing (d e a b : Reg) (g : NonceState) : i = .sign d e a b → Effect i s { s with nonce := some g }

/-! ### The shapes -/

theorem lawful_reg {s : State} {a : Reg} (h : s.p[a.val].valid = true) : Lawful s s.p[a.val].pt :=
  ⟨fun hs => hs.points a h, fun _ hc hp => hc a h hp⟩

theorem effect_binary {i : Instr} {op : Fe → Fe → Except ResultCode Fe} {d a b : Reg} {s : State}
    (hi : ∀ a b d e, i ≠ .verify a b d e) (hd : fDests i = [d]) (h0 : .emptyOperand ∈ errorCodes i)
    (hop : ∀ x y : Fe, x.wf → y.wf →
      (∀ r, op x y = .ok r → r.wf) ∧ ∀ c, op x y = .error c → c ∈ errorCodes i) :
    ∃ t, fieldBinary op d a b s = .next t ∧ Effect i s t := by
  rcases fieldBinary_cases op d a b s with ⟨ha, hb, r, hr, h⟩ | ⟨ha, hb, c, hc, h⟩ | ⟨-, h⟩
  · exact ⟨_, h, .wroteF d r hd fun hs => (hop _ _ (hs.fields a ha) (hs.fields b hb)).1 r hr⟩
  · exact ⟨_, h, .raised c hi fun hs _ => (hop _ _ (hs.fields a ha) (hs.fields b hb)).2 c hc⟩
  · exact ⟨_, h, .raised _ hi fun _ _ => h0⟩

theorem effect_unary {i : Instr} {op : Fe → Except ResultCode Fe} {d a : Reg} {s : State}
    (hi : ∀ a b d e, i ≠ .verify a b d e) (hd : fDests i = [d]) (h0 : .emptyOperand ∈ errorCodes i)
    (hop : ∀ x : Fe, x.wf → (∀ r, op x = .ok r → r.wf) ∧ ∀ c, op x = .error c → c ∈ errorCodes i) :
    ∃ t, fieldUnary op d a s = .next t ∧ Effect i s t := by
  rcases fieldUnary_cases op d a s with ⟨ha, r, hr, h⟩ | ⟨ha, c, hc, h⟩ | ⟨-, h⟩
  · exact ⟨_, h, .wroteF d r hd fun hs => (hop _ (hs.fields a ha)).1 r hr⟩
  · exact ⟨_, h, .raised c hi fun hs _ => (hop _ (hs.fields a ha)).2 c hc⟩
  · exact ⟨_, h, .raised _ hi fun _ _ => h0⟩

theorem effect_pointUnary {i : Instr} {op : Pt → Except ResultCode Pt} {d a : Reg} {s : State}
    (hi : ∀ a b d e, i ≠ .verify a b d e) (hd : pDests i = [d]) (h0 : .emptyOperand ∈ errorCodes i)
    (hop : ∀ q : Pt, q.wf →
      (∀ r, op q = .ok r → r.wf ∧ r.a = q.a ∧ (q.a.m.toNat.Prime → q.onCurve → r.onCurve)) ∧
      ∀ c, op q = .error c → c ∈ errorCodes i) :
    ∃ t, pointUnary op d a s = .next t ∧ Effect i s t := by
  rcases pointUnary_cases op d a s with ⟨ha, r, hr, h⟩ | ⟨ha, c, hc, h⟩ | ⟨-, h⟩
  · refine ⟨_, h, .wroteP d r hd ⟨fun hs => ((hop _ (hs.points a ha)).1 r hr).1, fun hs hc hp => ?_⟩⟩
    obtain ⟨-, h2, h3⟩ := (hop _ (hs.points a ha)).1 r hr
    rw [h2] at hp
    exact h3 hp (hc a ha hp)
  · exact ⟨_, h, .raised c hi fun hs _ => (hop _ (hs.points a ha)).2 c hc⟩
  · exact ⟨_, h, .raised _ hi fun _ _ => h0⟩

theorem effect_pointGet {i : Instr} {get : Pt → Fe} {d a : Reg} {s : State} (hi : ∀ a b d e, i ≠ .verify a b d e)
    (hd : fDests i = [d]) (h0 : .emptyOperand ∈ errorCodes i) (h1 : .identityPoint ∈ errorCodes i)
    (hget : ∀ q : Pt, q.wf → (get q).wf) : ∃ t, pointGet get d a s = .next t ∧ Effect i s t := by
  rcases pointGet_cases get d a s with ⟨ha, -, h⟩ | ⟨-, -, h⟩ | ⟨-, h⟩
  · exact ⟨_, h, .wroteF d _ hd fun hs => hget _ (hs.points a ha)⟩
  · exact ⟨_, h, .raised _ hi fun _ _ => h1⟩
  · exact ⟨_, h, .raised _ hi fun _ _ => h0⟩

theorem effect_fieldGet {i : Instr} {get : Fe → W256} {d a : Reg} {s : State} (hi : ∀ a b d e, i ≠ .verify a b d e)
    (hd : xDests i = [d]) (h0 : .emptyOperand ∈ errorCodes i) :
    ∃ t, fieldGet get d a s = .next t ∧ Effect i s t := by
  rcases fieldGet_cases get d a s with ⟨-, h⟩ | ⟨-, h⟩
  · exact ⟨_, h, .wroteX d _ hd⟩
  · exact ⟨_, h, .raised _ hi fun _ _ => h0⟩

/-! ### Answers of the helpers -/

theorem lawful_secp {q : Pt} (hw : q.wf) (hc : q.onCurve) (s : State) : Lawful s q :=
  ⟨fun _ => hw, fun _ _ _ => hc⟩

/-- What R185 answers on a legal point. -/
theorem smul_cases {q : Pt} (hw : q.wf) (k : Nat) :
    (∀ r, smul q k = .ok r → r.wf ∧ r.a = q.a ∧ (q.a.m.toNat.Prime → q.onCurve → r.onCurve)) ∧
      ∀ c, smul q k = .error c → c = .curveMismatch := by
  rw [smul]
  cases hs : issecp q with
  | false => exact ⟨fun r h => by simp at h, fun c h => by simp at h; exact h.symm⟩
  | true =>
    rw [if_neg (by simp)]
    have hodd : q.a.m.toNat % 2 = 1 := by
      rw [(issecp_iff.1 hs).1]
      exact (congrArg (· % 2) toNat_secpP).trans secpP_odd
    rcases pmul_cases (k % secpN) hw with ⟨t, ht, htw, hta, -, htc⟩ | ⟨-, hm⟩
    · rw [ht]
      exact ⟨fun r h => by cases h; exact ⟨htw, hta, htc⟩, fun c h => by cases h⟩
    · exact absurd hodd hm

/-- The codes R207 answers. -/
theorem verifycore_cases {q : Pt} (hw : q.wf) (z r w : Nat) :
    (∃ v, verifycore q z r w = .ok (.ok, v)) ∨ verifycore q z r w = .ok (.invalidSignature, false) ∨
      verifycore q z r w = .error .curveMismatch ∨ verifycore q z r w = .error .identityPoint := by
  rw [verifycore]
  cases hs : issecp q with
  | false => exact .inr (.inr (.inl rfl))
  | true =>
    cases hi : q.inf with
    | true => exact .inr (.inr (.inr rfl))
    | false =>
      by_cases hr : (inScalarRange r = false || inScalarRange w = false) = true
      · exact .inr (.inl (by rw [if_neg (by simp), if_neg (by simp), if_pos (by simpa using hr)]))
      · left
        rw [if_neg (by simp), if_neg (by simp), if_neg (by simpa using hr)]
        obtain ⟨u, hu, huw, hus, -⟩ := smul_secpG (z * powMod w (secpN - 2) secpN % secpN)
        obtain ⟨hua, hub⟩ := issecp_iff.1 hus
        obtain ⟨hqa, hqb⟩ := issecp_iff.1 hs
        have hodd : (secpFe 0).m.toNat % 2 = 1 := (congrArg (· % 2) toNat_secpP).trans secpP_odd
        have hv : ∃ v, smul q (r * powMod w (secpN - 2) secpN % secpN) = .ok v ∧ v.wf ∧ v.a = q.a ∧ v.b = q.b := by
          rw [smul, if_neg (by simp [hs])]
          rcases pmul_cases (r * powMod w (secpN - 2) secpN % secpN % secpN) hw with ⟨t, ht, htw, hta, htb, -⟩ | ⟨-, hm⟩
          · exact ⟨t, ht, htw, hta, htb⟩
          · exact absurd hodd (by rwa [hqa] at hm)
        obtain ⟨v, hv, hvw, hva, hvb⟩ := hv
        rw [hu, except_ok_bind, hv, except_ok_bind]
        rcases padd_same_cases huw hvw (by rw [hua, hva, hqa]) (by rw [hub, hvb, hqb]) with ⟨t, ht, -⟩ | ⟨-, hm⟩
        · rw [ht, except_ok_bind]
          split
          · exact ⟨_, rfl⟩
          · exact ⟨_, rfl⟩
        · exact absurd hodd (by rwa [hva, hqa] at hm)

/-- R207 answers a code that is no error only with its verdict, which is 0 for an invalid signature. -/
theorem verifycore_code {q : Pt} {z r w : Nat} {code : ResultCode} {v : Bool}
    (h : verifycore q z r w = .ok (code, v)) : code = .ok ∨ (code = .invalidSignature ∧ v = false) := by
  rw [verifycore] at h
  split at h
  · cases h
  · split at h
    · cases h
    · split at h
      · cases h
        exact .inr ⟨rfl, rfl⟩
      · obtain ⟨a1, -, h⟩ := except_bind_ok h
        obtain ⟨a2, -, h⟩ := except_bind_ok h
        obtain ⟨R, -, h⟩ := except_bind_ok h
        split at h <;> cases h <;> exact .inl rfl

/-- The draw taken is in range (R208). -/
theorem takeDraw_range {l rest : List W256} {c : W256} (h : takeDraw l = some (c, rest)) :
    inScalarRange c.toNat = true := by
  induction l with
  | nil => cases h
  | cons v l ih =>
    rw [takeDraw] at h
    split at h
    · cases h
      assumption
    · exact ih h

/-- What one candidate of the signing loop comes to: never an error. -/
theorem signRound_cases (hmac : Bytes32 → List Byte → Bytes32) (x z : Nat) (g : NonceState) :
    (∃ h, signRound hmac x z g = .ok (.again h)) ∨ ∃ r w nrt, signRound hmac x z g = .ok (.accepted r w nrt) := by
  rw [signRound]
  cases hk : inScalarRange (be (nonceDraw hmac g).val.toList) with
  | false => exact .inl ⟨_, if_pos rfl⟩
  | true =>
    simp only [Bool.true_eq_false, if_false]
    obtain ⟨R, -, -, ⟨h, -⟩ | ⟨r, w, h, -⟩⟩ := signCandidate_cases x z hk
    · rw [h, except_ok_bind]
      exact .inl ⟨_, rfl⟩
    · rw [h, except_ok_bind]
      exact .inr ⟨_, _, _, rfl⟩

/-- An accepted candidate is in range and is R205's signature. -/
theorem signRound_accepted {hmac : Bytes32 → List Byte → Bytes32} {x z r w : Nat} {g : NonceState} {nrt : Bool}
    (h : signRound hmac x z g = .ok (.accepted r w nrt)) :
    ∃ k, inScalarRange k = true ∧ signCandidate x z k = .ok (some (r, w)) := by
  rw [signRound] at h
  cases hk : inScalarRange (be (nonceDraw hmac g).val.toList) with
  | false =>
    rw [if_pos hk] at h
    cases h
  | true =>
    rw [if_neg (by rw [hk]; simp)] at h
    obtain ⟨c, hc, h⟩ := except_bind_ok h
    cases c with
    | none => cases h
    | some c =>
      cases h
      exact ⟨_, hk, hc⟩

/-! ### The lemma -/

/-- Every command answers a next state, and what that state can be. -/
theorem exec_effect (i : Instr) (s : State) : ∃ t, exec i s = .next t ∧ Effect i s t := by
  cases i with
  | nop => exact ⟨_, rfl, .nothing rfl⟩
  | zeroize => exact ⟨_, rfl, .wiped rfl⟩
  | xmov d a => exact ⟨_, rfl, .wroteX d _ rfl⟩
  | xldc d a =>
    rcases execXldc_cases d a s with ⟨v, -, h⟩ | ⟨hr, h⟩
    · exact ⟨_, h, .wroteX d v rfl⟩
    · refine ⟨_, h, .raised _ (by simp) fun _ hw => ?_⟩
      have hsel : ∀ a : Reg, rom a = none → decide (a.val ≤ 6) = false := by decide
      rw [Instr.wellFormed, hsel a hr] at hw
      cases hw
  | fset d a b =>
    rcases execFset_cases d a b s with ⟨h1, h2, h⟩ | ⟨-, h⟩
    · exact ⟨_, h, .wroteF d _ rfl fun _ => ⟨h1, h2⟩⟩
    · exact ⟨_, h, .raised _ (by simp) fun _ _ => by simp [errorCodes]⟩
  | fget d a => exact effect_fieldGet (by simp) rfl (by simp [errorCodes])
  | fmod d a => exact effect_fieldGet (by simp) rfl (by simp [errorCodes])
  | fadd d a b =>
    refine effect_binary (by simp) rfl (by simp [errorCodes]) fun x y hx _ => ?_
    rcases fadd_cases (b := y) hx.1 with ⟨r, hr, hw, -⟩ | ⟨hr, -⟩ <;> rw [hr] <;> simp_all [errorCodes]
  | fsub d a b =>
    refine effect_binary (by simp) rfl (by simp [errorCodes]) fun x y hx _ => ?_
    rcases fsub_cases (b := y) hx.1 with ⟨r, hr, hw, -⟩ | ⟨hr, -⟩ <;> rw [hr] <;> simp_all [errorCodes]
  | fmul d a b =>
    refine effect_binary (by simp) rfl (by simp [errorCodes]) fun x y hx _ => ?_
    rcases fmul_cases (b := y) hx.1 with ⟨r, hr, hw, -⟩ | ⟨hr, -⟩ <;> rw [hr] <;> simp_all [errorCodes]
  | fdiv d a b =>
    refine effect_binary (by simp) rfl (by simp [errorCodes]) fun x y hx _ => ?_
    rcases fdiv_cases (b := y) hx.1 with ⟨r, hr, hw, -⟩ | ⟨hr, -⟩ | ⟨hr, -⟩ <;> rw [hr] <;> simp_all [errorCodes]
  | finv d a =>
    refine effect_unary (by simp) rfl (by simp [errorCodes]) fun x hx => ?_
    rcases finv_cases hx.1 with ⟨r, hr, hw, -⟩ | ⟨hr, -⟩ <;> rw [hr] <;> simp_all [errorCodes]
  | fpow d a b m =>
    refine effect_unary (by simp) rfl (by simp [errorCodes]) fun x hx => ⟨fun r h => ?_, fun c h => by cases h⟩
    cases h
    exact wf_fpow hx.1 _
  | feq a b =>
    rcases execFeq_cases a b s with ⟨-, -, h⟩ | ⟨-, h⟩
    · exact ⟨_, h, .compared _ rfl⟩
    · exact ⟨_, h, .raised _ (by simp) fun _ _ => by simp [errorCodes]⟩
  | fmov d a =>
    refine effect_unary (by simp) rfl (by simp [errorCodes]) fun x hx => ⟨fun r h => ?_, fun c h => by cases h⟩
    cases h
    exact hx
  | pset d a b c e =>
    rcases execPset_cases d a b c e s with ⟨ha, hb, hc, he, r, hr, h⟩ | ⟨ha, hb, hc, he, g, hg, h⟩ | ⟨-, h⟩
    · refine ⟨_, h, .wroteP d r rfl ⟨fun hs => ?_, fun hs _ _ => ?_⟩⟩
      all_goals
        rcases mkpoint_cases (hs.fields a ha) (hs.fields b hb) (hs.fields c hc) (hs.fields e he) with
          ⟨-, -, -, ho, he', hw⟩ | ⟨-, he'⟩ | ⟨-, -, -, -, he'⟩ <;> rw [hr] at he' <;> cases he'
      · exact hw
      · exact fun _ => ho
    · refine ⟨_, h, .raised g (by simp) fun hs _ => ?_⟩
      rcases mkpoint_cases (hs.fields a ha) (hs.fields b hb) (hs.fields c hc) (hs.fields e he) with
        ⟨-, -, -, -, he', -⟩ | ⟨-, he'⟩ | ⟨-, -, -, -, he'⟩ <;> rw [hg] at he' <;> cases he' <;> simp [errorCodes]
    · exact ⟨_, h, .raised _ (by simp) fun _ _ => by simp [errorCodes]⟩
  | pinf d a b =>
    rcases execPinf_cases d a b s with ⟨ha, hb, r, hr, h⟩ | ⟨ha, hb, g, hg, h⟩ | ⟨-, h⟩
    · rw [mkinf] at hr
      split at hr
      · cases hr
      · rename_i hm
        cases hr
        refine ⟨_, h, .wroteP d _ rfl ⟨fun hs => ?_, fun _ _ _ hi => by cases hi⟩⟩
        exact (Pt.identity_in ⟨rfl, hs.fields a ha⟩ ⟨by rw [not_not.1 hm], hs.fields b hb⟩).wf
    · rw [mkinf] at hg
      split at hg
      · cases hg
        exact ⟨_, h, .raised _ (by simp) fun _ _ => by simp [errorCodes]⟩
      · cases hg
    · exact ⟨_, h, .raised _ (by simp) fun _ _ => by simp [errorCodes]⟩
  | pgetx d a => exact effect_pointGet (by simp) rfl (by simp [errorCodes]) (by simp [errorCodes]) fun q h => h.2.1.1
  | pgety d a => exact effect_pointGet (by simp) rfl (by simp [errorCodes]) (by simp [errorCodes]) fun q h => h.2.1.2.1
  | padd d a b =>
    rcases execPadd_cases d a b s with ⟨ha, hb, r, hr, h⟩ | ⟨ha, hb, c, hc, h⟩ | ⟨-, h⟩
    · refine ⟨_, h, .wroteP d r rfl ⟨fun hs => ?_, fun hs hv hp => ?_⟩⟩
      all_goals
        rcases padd_cases (hs.points a ha) (hs.points b hb) with ⟨t, ht, hw, hta, -, hqa, -⟩ | ⟨ht, -⟩ | ⟨ht, -⟩ <;>
          rw [hr] at ht <;> cases ht
      · exact hw
      · rw [hta] at hp
        exact padd_onCurve (hs.points a ha) (hs.points b hb) hp (hv a ha hp) (hv b hb (by rwa [← hqa])) hr
    · refine ⟨_, h, .raised c (by simp) fun hs _ => ?_⟩
      rcases padd_cases (hs.points a ha) (hs.points b hb) with ⟨t, ht, -⟩ | ⟨ht, -⟩ | ⟨ht, -⟩ <;>
        rw [hc] at ht <;> cases ht <;> simp [errorCodes]
    · exact ⟨_, h, .raised _ (by simp) fun _ _ => by simp [errorCodes]⟩
  | pdbl d a =>
    refine effect_pointUnary (by simp) rfl (by simp [errorCodes]) fun q hq => ?_
    rcases padd_same_cases hq hq rfl rfl with ⟨t, ht, hw, hta, -, hc⟩ | ⟨ht, -⟩ <;> simp only [ht]
    · exact ⟨fun r h => by cases h; exact ⟨hw, hta, fun hp h => hc hp h h⟩, fun c h => by cases h⟩
    · exact ⟨fun r h => (by cases h), fun c h => by cases h; simp [errorCodes]⟩
  | pneg d a =>
    refine effect_pointUnary (by simp) rfl (by simp [errorCodes]) fun q hq => ⟨fun r h => ?_, fun c h => by cases h⟩
    cases h
    obtain ⟨h1, h2, -⟩ := pneg_wf hq
    exact ⟨h1, h2, fun _ h => pneg_onCurve hq h⟩
  | pmul d a b =>
    refine effect_pointUnary (by simp) rfl (by simp [errorCodes]) fun q hq => ?_
    rcases pmul_cases (s.readNat b) hq with ⟨t, ht, hw, hta, -, hc⟩ | ⟨ht, -⟩ <;> simp only [ht]
    · exact ⟨fun r h => by cases h; exact ⟨hw, hta, hc⟩, fun c h => by cases h⟩
    · exact ⟨fun r h => (by cases h), fun c h => by cases h; simp [errorCodes]⟩
  | peq a b =>
    rcases execPeq_cases a b s with ⟨-, -, h⟩ | ⟨-, h⟩
    · exact ⟨_, h, .compared _ rfl⟩
    · exact ⟨_, h, .raised _ (by simp) fun _ _ => by simp [errorCodes]⟩
  | pmov d a =>
    refine effect_pointUnary (by simp) rfl (by simp [errorCodes]) fun q hq => ⟨fun r h => ?_, fun c h => by cases h⟩
    cases h
    exact ⟨hq, rfl, fun _ h => h⟩
  | ptst a =>
    rcases execPtst_cases a s with ⟨-, h⟩ | ⟨-, h⟩
    · exact ⟨_, h, .tested a _ rfl⟩
    · exact ⟨_, h, .raised _ (by simp) fun _ _ => by simp [errorCodes]⟩
  | gload d => exact ⟨_, rfl, .wroteP d secpG rfl (lawful_secp secpG_wf secpG_onCurve s)⟩
  | smul d a b =>
    refine effect_pointUnary (by simp) rfl (by simp [errorCodes]) fun q hq => ?_
    obtain ⟨h1, h2⟩ := smul_cases hq (s.readNat b)
    exact ⟨h1, fun c hc => by rw [h2 c hc]; simp [errorCodes]⟩
  | liftx d a m =>
    rcases execLiftx_cases d a m s with ⟨r, hr, h⟩ | ⟨c, hc, h⟩
    · rcases liftx_cases (s.readNat a) m with ⟨-, hl⟩ | ⟨-, -, hl⟩ | ⟨hx, y, hy, he, -, hl⟩ <;> rw [hr] at hl <;> cases hl
      obtain ⟨hw, hc⟩ := secpAffine_onCurve hx hy he
      exact ⟨_, h, .wroteP d _ rfl (lawful_secp hw hc s)⟩
    · refine ⟨_, h, .raised c (by simp) fun _ _ => ?_⟩
      rcases liftx_cases (s.readNat a) m with ⟨-, hl⟩ | ⟨-, -, hl⟩ | ⟨-, y, -, -, -, hl⟩ <;> rw [hc] at hl <;> cases hl <;>
        simp [errorCodes]
  | keygen d e =>
    rcases execKeygen_cases d e s with ⟨c, rest, ht, ⟨q, hq, h⟩ | ⟨g, hg, h⟩⟩ | ⟨-, h⟩
    · obtain ⟨t, ht', hw, -, hc, -⟩ := smul_secpG c.toNat
      rw [hq] at ht'
      cases ht'
      have hr : inScalarRange c.toNat = true := takeDraw_range ht
      obtain ⟨t, ht', -, -, -, hi⟩ := smul_secpG_of_range hr
      rw [hq] at ht'
      cases ht'
      refine ⟨_, h, ?_⟩
      have := Effect.generated (i := .keygen d e) (s := s) d e rest c q rfl (lawful_secp hw hc s) hi
      rw [State.putP, hi] at this
      exact this
    · obtain ⟨t, ht', -⟩ := smul_secpG c.toNat
      rw [hg] at ht'
      cases ht'
    · exact ⟨_, h, .drawing d e rfl⟩
  | pubkey d a =>
    rcases execPubkey_cases d a s with ⟨hr, q, hq, h⟩ | ⟨hr, c, hc, -⟩ | ⟨-, h⟩
    · obtain ⟨t, ht, hw, -, hc, hi⟩ := smul_secpG_of_range hr
      rw [hq] at ht
      cases ht
      have := Effect.wroteP (i := .pubkey d a) (s := s) d q rfl (lawful_secp hw hc s)
      rw [State.putP, hi] at this
      exact ⟨_, h, this⟩
    · obtain ⟨t, ht, -⟩ := smul_secpG (s.readNat a)
      rw [hc] at ht
      cases ht
    · exact ⟨_, h, .raised _ (by simp) fun _ _ => by simp [errorCodes]⟩
  | sign d e a b =>
    rcases signWith_cases Config.hmac d e a b s with ⟨-, -, r, w, nrt, -, h⟩ | ⟨-, -, g, -, h⟩ | ⟨-, -, c, hc, -⟩ |
      ⟨-, -, h⟩ | ⟨hde, h⟩
    · exact ⟨_, h, .signed d e a b _ _ nrt rfl⟩
    · exact ⟨_, h, .signing d e a b g rfl⟩
    · rcases signRound_cases Config.hmac (s.readNat a) (s.readNat b)
        (s.nonce.getD (nonceSeed Config.hmac (s.readNat a) (s.readNat b))) with ⟨g, hg⟩ | ⟨r, w, nrt, hg⟩ <;>
        rw [hc] at hg <;> cases hg
    · exact ⟨_, h, .raised _ (by simp) fun _ _ => by simp [errorCodes]⟩
    · exact ⟨_, h, .raised _ (by simp) fun _ hw => by simp [Instr.wellFormed, hde] at hw⟩
  | verify a b c e =>
    rcases execVerify_cases a b c e s with ⟨ha, code, v, hv, h⟩ | ⟨ha, code, hv, h⟩ | ⟨-, h⟩
    · refine ⟨_, h, .verified a b c e code v rfl ?_⟩
      by_cases hok : code = .ok
      · exact .inl hok
      · right
        rcases verifycore_code hv with h' | ⟨hc, hv'⟩
        · exact absurd h' hok
        · exact ⟨hv', fun _ => by rw [hc]; simp [errorCodes]⟩
    · refine ⟨_, h, .verified a b c e code false rfl (.inr ⟨rfl, fun hs => ?_⟩)⟩
      rcases verifycore_cases (hs.points a ha) (s.readNat b) (s.readNat c) (s.readNat e) with
        ⟨v, hv'⟩ | hv' | hv' | hv' <;> rw [hv] at hv' <;> cases hv' <;> simp [errorCodes]
    · exact ⟨_, h, .verified a b c e _ false rfl (.inr ⟨rfl, fun _ => by simp [errorCodes]⟩)⟩
  | secenc a m =>
    rcases execSecenc_cases a m s with ⟨-, -, -, h⟩ | ⟨-, -, h⟩ | ⟨-, -, -, h⟩ | ⟨-, h⟩
    · exact ⟨_, h, .encoded _ rfl⟩
    all_goals exact ⟨_, h, .raised _ (by simp) fun _ _ => by simp [errorCodes]⟩
  | secdec d =>
    rcases execSecdec_cases d s with ⟨-, -, q, hq, h⟩ | ⟨-, -, c, hc, h⟩ | ⟨-, h⟩
    · rcases secParse_cases s.readString with hl | hl | hl | ⟨x, y, hx, hy, he, hl⟩ <;> rw [hq] at hl <;> cases hl
      obtain ⟨hw, hc⟩ := secpAffine_onCurve hx hy he
      exact ⟨_, h, .wroteP (i := .secdec d) (s := s) d _ rfl (lawful_secp hw hc s)⟩
    · refine ⟨_, h, .raised c (by simp) fun _ _ => ?_⟩
      rcases secParse_cases s.readString with hl | hl | hl | ⟨x, y, -, -, -, hl⟩ <;> rw [hc] at hl <;> cases hl <;>
        simp [errorCodes]
    · exact ⟨_, h, .raised _ (by simp) fun _ _ => by simp [errorCodes]⟩
  | derenc a b =>
    rcases execDerenc_cases a b s with ⟨-, -, h⟩ | ⟨-, h⟩
    · exact ⟨_, h, .encoded _ rfl⟩
    · exact ⟨_, h, .raised _ (by simp) fun _ _ => by simp [errorCodes]⟩
  | derdec d e =>
    rcases execDerdec_cases d e s with ⟨-, -, r, w, -, h⟩ | ⟨-, -, c, hc, h⟩ | ⟨-, -, h⟩ | ⟨hde, h⟩
    · exact ⟨_, h, .wroteXX d e _ _ rfl⟩
    · refine ⟨_, h, .raised c (by simp) fun _ _ => ?_⟩
      rcases derparse_cases s.readString with hl | ⟨r, w, hl, -⟩ <;> rw [hc] at hl <;> cases hl
      simp [errorCodes]
    · exact ⟨_, h, .raised _ (by simp) fun _ _ => by simp [errorCodes]⟩
    · exact ⟨_, h, .raised _ (by simp) fun _ hw => by simp [Instr.wellFormed, hde] at hw⟩

end Sys2Proof.Claims
end

