-- ==== Sys2Proof/Laws/Invariant.lean ====
section
/-! SUPPORT. What each update of the state does to the invariant: register writes, completions, every command's effect and every bus write keep it (10_state.md R23, R26). -/

namespace Sys2Proof.Machine

/-! ### Register writes -/

theorem State.fieldsOk_setF {s : State} (h : s.fieldsOk) (d : Reg) {e : Fe} (he : e.wf) : (s.setF d e).fieldsOk := by
  intro i hv
  rw [State.setF_get] at hv ⊢
  split
  · exact he
  · rename_i hne
    rw [if_neg hne] at hv
    exact h i hv

theorem State.pointsOk_putP {s : State} (h : s.pointsOk) (d : Reg) {q : Pt} (hq : q.wf) : (s.putP d q).pointsOk := by
  intro i hv
  change (s.setP d q).p[i.val].valid = true at hv
  change (s.setP d q).p[i.val].pt.wf
  rw [State.setP_get] at hv ⊢
  split
  · exact hq
  · rename_i hne
    rw [if_neg hne] at hv
    exact h i hv

theorem State.curvesOk_putP {s : State} (h : s.curvesOk) (d : Reg) {q : Pt}
    (hq : q.a.m.toNat.Prime → q.onCurve) : (s.putP d q).curvesOk := by
  intro i hv
  change (s.setP d q).p[i.val].valid = true at hv
  change (s.setP d q).p[i.val].pt.a.m.toNat.Prime → (s.setP d q).p[i.val].pt.onCurve
  rw [State.setP_get] at hv ⊢
  split
  · exact hq
  · rename_i hne
    rw [if_neg hne] at hv
    exact h i hv

theorem State.fieldsOk_empty {s : State} (h : s.f = Vector.replicate 16 FReg.empty) : s.fieldsOk := by
  intro i hv
  simp [h, FReg.empty] at hv

theorem State.pointsOk_empty {s : State} (h : s.p = Vector.replicate 16 PReg.empty) : s.pointsOk ∧ s.curvesOk := by
  constructor
  · intro i hv
    simp [h, PReg.empty] at hv
  · intro i hv
    simp [h, PReg.empty] at hv

/-! ### Reset -/

theorem State.reset_inv : State.reset.Inv :=
  ⟨State.fieldsOk_empty rfl, (State.pointsOk_empty rfl).1, Memory.wf_nil, rfl, fun h => absurd rfl h⟩

theorem State.reset_curvesOk : State.reset.curvesOk := (State.pointsOk_empty rfl).2

/-! ### Completion -/

/-- A completion's code is never one of R266's three. -/
theorem errorCodes_produced {i : Instr} {c : ResultCode} (h : c ∈ Claims.errorCodes i) : c.neverProduced = false := by
  cases c with
  | degenerateNonce => cases i <;> simp [Claims.errorCodes] at h
  | checksumMismatch => cases i <;> simp [Claims.errorCodes] at h
  | integerTooLarge => cases i <;> simp [Claims.errorCodes] at h
  | _ => rfl

theorem State.finish_inv {s : State} {c : ResultCode} (hf : s.fieldsOk) (hp : s.pointsOk) (hb : s.buf.wf)
    (hc : c.neverProduced = false) : (s.finish c).Inv :=
  ⟨hf, hp, hb, hc, fun h => absurd rfl h⟩

/-! ### Commands -/

/-- Whatever the effect of a command, the invariant stays: for a well-formed command in execution. -/
theorem inv_of_effect {i : Instr} {s t : State} (h : Claims.Effect i s t) (hi : i.wellFormed = true) (hs : s.Inv)
    (hbusy : s.status.busy = true) : t.Inv := by
  have hf := hs.fields
  have hp := hs.points
  have hb := hs.buffer
  cases h with
  | raised c _ hc => exact State.finish_inv hf hp hb (errorCodes_produced (hc hs hi))
  | nothing => exact State.finish_inv hf hp hb rfl
  | wiped => exact State.finish_inv (State.fieldsOk_empty rfl) (State.pointsOk_empty rfl).1 Memory.wf_nil rfl
  | wroteX d v => exact State.finish_inv hf hp hb rfl
  | wroteXX d e v w => exact State.finish_inv hf hp hb rfl
  | wroteF d r _ hr => exact State.finish_inv (State.fieldsOk_setF hf d (hr hs)) hp hb rfl
  | wroteP d q _ hq => exact State.finish_inv hf (State.pointsOk_putP hp d (hq.1 hs)) hb rfl
  | compared v => exact State.finish_inv hf hp hb rfl
  | tested a v => exact State.finish_inv hf hp hb rfl
  | verified a b c e code v _ hc =>
    refine State.finish_inv hf hp hb ?_
    rcases hc with rfl | ⟨-, hc⟩
    · rfl
    · exact errorCodes_produced (hc hs)
  | encoded t => exact State.finish_inv hf hp (Memory.wf_writeBytes hb 0 t) rfl
  | generated d e rest v q _ hq =>
    exact State.finish_inv (s := (State.setX { s with entropy := rest } d v).putP e q) (c := .ok) hf
      (State.pointsOk_putP (s := State.setX { s with entropy := rest } d v) hp e (hq.1 hs)) hb rfl
  | drawing => exact ⟨hf, hp, hb, hs.code, hs.secrecy⟩
  | signed => exact State.finish_inv hf hp hb rfl
  | signing d e a b g => exact ⟨hf, hp, hb, hs.code, fun _ => hbusy⟩

theorem curvesOk_of_effect {i : Instr} {s t : State} (h : Claims.Effect i s t) (hs : s.Inv) (hc : s.curvesOk) :
    t.curvesOk := by
  cases h with
  | wiped => exact (State.pointsOk_empty rfl).2
  | wroteP d q _ hq => exact State.curvesOk_putP hc d (hq.2 hs hc)
  | generated d e rest v q _ hq =>
    exact State.curvesOk_putP (s := State.setX { s with entropy := rest } d v) hc e (hq.2 hs hc)
  | _ => exact hc

/-! ### Bus writes -/

/-- Whatever the location, a bus write keeps the invariant. -/
theorem State.busWrite_inv {s : State} (hs : s.Inv) (v : W32) (l : Loc) : (s.busWrite v l).Inv := by
  have hreset : ∀ (en : List W256) (ag : List Event) (r : Option W32),
      State.Inv { State.reset with entropy := en, agenda := ag, lastRead := r } := fun _ _ _ =>
    ⟨State.reset_inv.1, State.reset_inv.2, State.reset_inv.3, State.reset_inv.4, State.reset_inv.5⟩
  have hign : s.ignored.Inv := ⟨hs.fields, hs.points, hs.buffer, hs.code, hs.secrecy⟩
  have hidle : ∀ t : State, t.Inv → (s.whenIdle t).Inv := fun t ht => by
    rw [State.whenIdle]
    split
    · exact hign
    · exact ht
  cases l with
  | ctrl =>
    simp only [State.busWrite, State.writeCtrl]
    split
    · exact hreset _ _ _
    · exact ⟨hs.fields, hs.points, hs.buffer, hs.code, hs.secrecy⟩
  | status =>
    simp only [State.busWrite, State.writeStatus]
    split <;> exact ⟨hs.fields, hs.points, hs.buffer, hs.code, hs.secrecy⟩
  | cmd => exact hidle _ ⟨hs.fields, hs.points, hs.buffer, hs.code, fun h => absurd rfl h⟩
  | len => exact hidle _ ⟨hs.fields, hs.points, hs.buffer, hs.code, hs.secrecy⟩
  | xWord i j => exact hidle _ ⟨hs.fields, hs.points, hs.buffer, hs.code, hs.secrecy⟩
  | bufWord k => exact hidle _ ⟨hs.fields, hs.points, Memory.wf_writeBytes hs.buffer _ _, hs.code, hs.secrecy⟩
  | _ => exact hs

theorem State.busWrite_curvesOk {s : State} (hs : s.curvesOk) (v : W32) (l : Loc) : (s.busWrite v l).curvesOk := by
  have hidle : ∀ t : State, t.curvesOk → (s.whenIdle t).curvesOk := fun t ht => by
    rw [State.whenIdle]
    split
    · exact hs
    · exact ht
  cases l with
  | ctrl =>
    simp only [State.busWrite, State.writeCtrl]
    split
    · exact (State.pointsOk_empty rfl).2
    · exact hs
  | status =>
    simp only [State.busWrite, State.writeStatus]
    split <;> exact hs
  | _ => first | exact hs | exact hidle _ hs

/-- The agenda has no part in the invariant. -/
theorem State.inv_agenda {s : State} (hs : s.Inv) (l : List Event) : State.Inv { s with agenda := l } :=
  ⟨hs.fields, hs.points, hs.buffer, hs.code, hs.secrecy⟩

end Sys2Proof.Machine
end

