-- ==== Sys2Proof/Laws/PerInstr.lean ====
section
/-! SUPPORT. A fact about every command as syntax, one lemma per constructor: the reserved field `[31:29]` of its word is 0 (30_encoding.md R80, R84 check 2). -/

namespace Sys2Proof.Laws.ReservedBitsZero

/-- The word of the command has its three reserved bits 0. -/
def Statement (i : Instr) : Prop := (encode i).toNat < 2 ^ 29

/-- The bound, from the fields the word is made of. -/
theorem of_rsv {opc : Nat} (ho : opc < 256) {f : Fields} (h : f.rsv = 0) : (assemble opc f).toNat < 2 ^ 29 := by
  have hm := Bool.toNat_le f.m
  have hr : f.rsv.val = 0 := by rw [h]; rfl
  rw [toNat_assemble ho, hr]
  omega

theorem nop : Statement .nop := of_rsv (Instr.parts_opcode _) rfl
theorem zeroize : Statement .zeroize := of_rsv (Instr.parts_opcode _) rfl
theorem xmov (d a : Reg) : Statement (.xmov d a) := of_rsv (Instr.parts_opcode _) rfl
theorem xldc (d a : Reg) : Statement (.xldc d a) := of_rsv (Instr.parts_opcode _) rfl
theorem fset (d a b : Reg) : Statement (.fset d a b) := of_rsv (Instr.parts_opcode _) rfl
theorem fget (d a : Reg) : Statement (.fget d a) := of_rsv (Instr.parts_opcode _) rfl
theorem fmod (d a : Reg) : Statement (.fmod d a) := of_rsv (Instr.parts_opcode _) rfl
theorem fadd (d a b : Reg) : Statement (.fadd d a b) := of_rsv (Instr.parts_opcode _) rfl
theorem fsub (d a b : Reg) : Statement (.fsub d a b) := of_rsv (Instr.parts_opcode _) rfl
theorem fmul (d a b : Reg) : Statement (.fmul d a b) := of_rsv (Instr.parts_opcode _) rfl
theorem fdiv (d a b : Reg) : Statement (.fdiv d a b) := of_rsv (Instr.parts_opcode _) rfl
theorem finv (d a : Reg) : Statement (.finv d a) := of_rsv (Instr.parts_opcode _) rfl
theorem fpow (d a b : Reg) (signed : Bool) : Statement (.fpow d a b signed) := of_rsv (Instr.parts_opcode _) rfl
theorem feq (a b : Reg) : Statement (.feq a b) := of_rsv (Instr.parts_opcode _) rfl
theorem fmov (d a : Reg) : Statement (.fmov d a) := of_rsv (Instr.parts_opcode _) rfl
theorem pset (d a b c e : Reg) : Statement (.pset d a b c e) := of_rsv (Instr.parts_opcode _) rfl
theorem pinf (d a b : Reg) : Statement (.pinf d a b) := of_rsv (Instr.parts_opcode _) rfl
theorem pgetx (d a : Reg) : Statement (.pgetx d a) := of_rsv (Instr.parts_opcode _) rfl
theorem pgety (d a : Reg) : Statement (.pgety d a) := of_rsv (Instr.parts_opcode _) rfl
theorem padd (d a b : Reg) : Statement (.padd d a b) := of_rsv (Instr.parts_opcode _) rfl
theorem pdbl (d a : Reg) : Statement (.pdbl d a) := of_rsv (Instr.parts_opcode _) rfl
theorem pneg (d a : Reg) : Statement (.pneg d a) := of_rsv (Instr.parts_opcode _) rfl
theorem pmul (d a b : Reg) : Statement (.pmul d a b) := of_rsv (Instr.parts_opcode _) rfl
theorem peq (a b : Reg) : Statement (.peq a b) := of_rsv (Instr.parts_opcode _) rfl
theorem pmov (d a : Reg) : Statement (.pmov d a) := of_rsv (Instr.parts_opcode _) rfl
theorem ptst (a : Reg) : Statement (.ptst a) := of_rsv (Instr.parts_opcode _) rfl
theorem gload (d : Reg) : Statement (.gload d) := of_rsv (Instr.parts_opcode _) rfl
theorem smul (d a b : Reg) : Statement (.smul d a b) := of_rsv (Instr.parts_opcode _) rfl
theorem liftx (d a : Reg) (odd : Bool) : Statement (.liftx d a odd) := of_rsv (Instr.parts_opcode _) rfl
theorem keygen (d e : Reg) : Statement (.keygen d e) := of_rsv (Instr.parts_opcode _) rfl
theorem pubkey (d a : Reg) : Statement (.pubkey d a) := of_rsv (Instr.parts_opcode _) rfl
theorem sign (d e a b : Reg) : Statement (.sign d e a b) := of_rsv (Instr.parts_opcode _) rfl
theorem verify (a b c e : Reg) : Statement (.verify a b c e) := of_rsv (Instr.parts_opcode _) rfl
theorem secenc (a : Reg) (compressed : Bool) : Statement (.secenc a compressed) := of_rsv (Instr.parts_opcode _) rfl
theorem secdec (d : Reg) : Statement (.secdec d) := of_rsv (Instr.parts_opcode _) rfl
theorem derenc (a b : Reg) : Statement (.derenc a b) := of_rsv (Instr.parts_opcode _) rfl
theorem derdec (d e : Reg) : Statement (.derdec d e) := of_rsv (Instr.parts_opcode _) rfl

end Sys2Proof.Laws.ReservedBitsZero
end

