-- ==== Sys2Proof/Machine/Assembly.lean ====
section
/-! DEFINITION. The spec's notations: the assembler text of a command, the pseudo-commands, and the host's bus sequences (30_encoding.md R89, R90; 20_memory.md R56). The machine does not use them; statements and tests do. -/

namespace Sys2Proof.Machine

/-! ### Assembler text (R89) -/

/-- `x0` .. `x15`. -/
def xReg (i : Reg) : String := "x" ++ toString i.val

/-- `f0` .. `f15`. -/
def fReg (i : Reg) : String := "f" ++ toString i.val

/-- `p0` .. `p15`. -/
def pReg (i : Reg) : String := "p" ++ toString i.val

/-- An XLDC selector by its number (R83). -/
def selector (i : Reg) : String := "#" ++ toString i.val

/-- A mnemonic with its suffix when the modifier bit is set (R82). -/
def withSuffix (mnemonic : String) (m : Bool) (suffix : String) : String :=
  if m then mnemonic ++ suffix else mnemonic

/-- A command line: the mnemonic, then the operands separated by commas. -/
def line (head : String) (operands : List String) : String :=
  if operands.isEmpty then head else head ++ " " ++ String.intercalate ", " operands

/-- The command in the order of R85's "operands" column. -/
def commandText : Instr → String
  | .nop => line "NOP" []
  | .zeroize => line "ZEROIZE" []
  | .xmov d a => line "XMOV" [xReg d, xReg a]
  | .xldc d a => line "XLDC" [xReg d, selector a]
  | .fset d a b => line "FSET" [fReg d, xReg a, xReg b]
  | .fget d a => line "FGET" [xReg d, fReg a]
  | .fmod d a => line "FMOD" [xReg d, fReg a]
  | .fadd d a b => line "FADD" [fReg d, fReg a, fReg b]
  | .fsub d a b => line "FSUB" [fReg d, fReg a, fReg b]
  | .fmul d a b => line "FMUL" [fReg d, fReg a, fReg b]
  | .fdiv d a b => line "FDIV" [fReg d, fReg a, fReg b]
  | .finv d a => line "FINV" [fReg d, fReg a]
  | .fpow d a b m => line (withSuffix "FPOW" m ".S") [fReg d, fReg a, xReg b]
  | .feq a b => line "FEQ" [fReg a, fReg b]
  | .fmov d a => line "FMOV" [fReg d, fReg a]
  | .pset d a b c e => line "PSET" [pReg d, fReg a, fReg b, fReg c, fReg e]
  | .pinf d a b => line "PINF" [pReg d, fReg a, fReg b]
  | .pgetx d a => line "PGETX" [fReg d, pReg a]
  | .pgety d a => line "PGETY" [fReg d, pReg a]
  | .padd d a b => line "PADD" [pReg d, pReg a, pReg b]
  | .pdbl d a => line "PDBL" [pReg d, pReg a]
  | .pneg d a => line "PNEG" [pReg d, pReg a]
  | .pmul d a b => line "PMUL" [pReg d, pReg a, xReg b]
  | .peq a b => line "PEQ" [pReg a, pReg b]
  | .pmov d a => line "PMOV" [pReg d, pReg a]
  | .ptst a => line "PTST" [pReg a]
  | .gload d => line "GLOAD" [pReg d]
  | .smul d a b => line "SMUL" [pReg d, pReg a, xReg b]
  | .liftx d a m => line (withSuffix "LIFTX" m ".ODD") [pReg d, xReg a]
  | .keygen d e => line "KEYGEN" [xReg d, pReg e]
  | .pubkey d a => line "PUBKEY" [pReg d, xReg a]
  | .sign d e a b => line "SIGN" [xReg d, xReg e, xReg a, xReg b]
  | .verify a b c e => line "VERIFY" [pReg a, xReg b, xReg c, xReg e]
  | .secenc a m => line (withSuffix "SECENC" m ".C") [pReg a]
  | .secdec d => line "SECDEC" [pReg d]
  | .derenc a b => line "DERENC" [xReg a, xReg b]
  | .derdec d e => line "DERDEC" [xReg d, xReg e]

/-! ### Pseudo-commands (R90) -/

/-- `FSQR fD, fA`. -/
def pseudoFsqr (d a : Reg) : Instr := .fmul d a a

/-- `XCLR xD`. -/
def pseudoXclr (d : Reg) : Instr := .xldc d 5

/-- `XONE xD`. -/
def pseudoXone (d : Reg) : Instr := .xldc d 6

/-- `PCPY pD, pA`. -/
def pseudoPcpy (d a : Reg) : Instr := .pmov d a

/-- `FCPY fD, fA`. -/
def pseudoFcpy (d a : Reg) : Instr := .fmov d a

/-! ### The host's bus sequences (R90) -/

/-- The offset of word `j` of `X[i]` (R55). -/
def xOffset (i : Reg) (j : Fin 8) : BitVec 12 := BitVec.ofNat 12 (0x100 + 32 * i.val + 4 * j.val)

/-- The offset of `BUF[4*k .. 4*k+3]` (R57). -/
def bufOffset (k : Fin 32) : BitVec 12 := BitVec.ofNat 12 (0x300 + 4 * k.val)

/-- `XW xI, V`: eight writes (R56). -/
def hostXW (i : Reg) (v : W256) : List Event :=
  (List.finRange 8).map fun j => .write .w4 (xOffset i j) (wordOf v j)

/-- `XR xI`: the eight matching reads (R56). -/
def hostXR (i : Reg) : List Event := (List.finRange 8).map fun j => .read .w4 (xOffset i j)

/-- `ISSUE`: the CMD write, the completion it waits for, and the STATUS read that sees it. -/
def hostIssue (i : Instr) : List Event :=
  [.write .w4 0x010 (encode i), .engine, .read .w4 0x00C]

/-- `LW n`: the LEN write. -/
def hostLW (n : Byte) : List Event := [.write .w4 0x024 (n.setWidth 32)]

/-- `BW j, bytes` by a host that has read `BUF` as `old`: whole words, each merged with what it held (R57). -/
def hostBW (old : Memory) (j : Nat) (t : List Byte) : List Event :=
  let merged := old.writeBytes j t
  ((List.finRange 32).filter fun k => j / 4 ≤ k.val && k.val * 4 < j + t.length).map fun k =>
    .write .w4 (bufOffset k)
      (packWord (merged.read (4 * k.val)) (merged.read (4 * k.val + 1)) (merged.read (4 * k.val + 2))
        (merged.read (4 * k.val + 3)))

end Sys2Proof.Machine
end

