-- ==== Sys2Proof/Tests/Slice0.lean ====
section
/-! SUPPORT. Tests against the spec's vectors (95_test_vectors.md) and the spec's encodings (30_encoding.md), and, for every statement with hypotheses, values that meet them. -/

namespace Sys2Proof.Tests

open Sys2Proof Sys2Proof.Machine Sys2Proof.Claims

set_option Elab.async false

/-! ### Well-formedness: each check refuses an ill-formed command (R84 checks 4 and 5) -/

theorem test_wf_sign_same : (Instr.sign 2 2 0 1).wellFormed = false := by decide
theorem test_wf_derdec_same : (Instr.derdec 4 4).wellFormed = false := by decide
theorem test_wf_xldc_selector : (Instr.xldc 3 7).wellFormed = false ∧ (Instr.xldc 3 6).wellFormed = true := by decide

/-! ### Decoding: words written out from the spec's tables (R85, 95_test_vectors.md) -/

/-- The word decodes to the command and the command encodes to the word. -/
def agree (w : W32) (i : Instr) : Bool := (decode w).toOption == some i && encode i == w

theorem test_decode_control :
    (agree 0x00000000 .nop && agree 0x00000001 .zeroize && agree 0x00000102 (.xmov 1 0) &&
      agree 0x00006303 (.xldc 3 6)) = true := by decide +kernel

theorem test_decode_field :
    (agree 0x00010010 (.fset 0 0 1) && agree 0x00001211 (.fget 2 1) && agree 0x00001212 (.fmod 2 1) &&
      agree 0x00021013 (.fadd 0 1 2) && agree 0x00021014 (.fsub 0 1 2) && agree 0x00011115 (.fmul 1 1 1) &&
      agree 0x00040516 (.fdiv 5 0 4) && agree 0x00000117 (.finv 1 0) && agree 0x10020218 (.fpow 2 0 2 true) &&
      agree 0x00021018 (.fpow 0 1 2 false) && agree 0x00021019 (.feq 1 2) && agree 0x0000101A (.fmov 0 1)) = true := by
  decide +kernel

theorem test_decode_point :
    (agree 0x05498320 (.pset 3 8 9 4 5) && agree 0x00032121 (.pinf 1 2 3) && agree 0x00002622 (.pgetx 6 2) &&
      agree 0x00002723 (.pgety 7 2) && agree 0x00010224 (.padd 2 0 1) && agree 0x00001025 (.pdbl 0 1) &&
      agree 0x00001026 (.pneg 0 1) && agree 0x00021027 (.pmul 0 1 2) && agree 0x00032028 (.peq 2 3) &&
      agree 0x00001029 (.pmov 0 1) && agree 0x0000102A (.ptst 1)) = true := by decide +kernel

theorem test_decode_secp_ecdsa :
    (agree 0x00000030 (.gload 0) && agree 0x00010231 (.smul 2 0 1) && agree 0x10001032 (.liftx 0 1 true) &&
      agree 0x05000440 (.keygen 4 5) && agree 0x00001041 (.pubkey 0 1) && agree 0x03010242 (.sign 2 3 0 1) &&
      agree 0x03210043 (.verify 0 1 2 3)) = true := by decide +kernel

theorem test_decode_encoding :
    (agree 0x10002050 (.secenc 2 true) && agree 0x00001050 (.secenc 1 false) && agree 0x00000351 (.secdec 3) &&
      agree 0x00032052 (.derenc 2 3) && agree 0x05000453 (.derdec 4 5)) = true := by decide +kernel

/-- V-C13 to V-C20: illegal words, each for its own reason. -/
theorem test_decode_illegal :
    (decode 0x00000004).toOption = none ∧ (decode 0x000000FF).toOption = none ∧
      (decode 0x20000000).toOption = none ∧ (decode 0x10000013).toOption = none ∧
      (decode 0x00000100).toOption = none ∧ (decode 0x02010242).toOption = none ∧
      (decode 0x04000453).toOption = none ∧ (decode 0x000F0119).toOption = none ∧
      (decode 0x00007303).toOption = none := by decide +kernel

/-! ### Running a command: small states -/

/-- What one engine turn on the command word `w` leaves, looked at through `look`. -/
def after {α : Type} (s : State) (w : W32) (look : State → α) : Option (ResultCode × α) :=
  match step { s with cmd := w, status := { s.status with busy := true }, agenda := [.engine] } with
  | .next t => some (t.status.code, look t)
  | _ => none

/-- `fe(v, m)`. -/
def el (v m : Nat) : Fe := ⟨BitVec.ofNat 256 v, BitVec.ofNat 256 m⟩

/-- The point `(x, y)` on `a = 0`, `b` over `m`. -/
def at7 (x y : Nat) : Pt := ⟨false, el x 223, el y 223, el 0 223, el 7 223⟩

/-- The identity of `a = 0`, `b` modulo 223. -/
def zeroAt (b : Nat) : Pt := ⟨true, el 0 223, el 0 223, el 0 223, el b 223⟩

/-- Two F registers. -/
def twoF (x y : Fe) : State := (State.reset.setF 1 x).setF 2 y

/-- Four F registers modulo 223, as V-P1 has them. -/
def fourF (x y a b : Nat) : State :=
  (((State.reset.setF 1 (el x 223)).setF 2 (el y 223)).setF 3 (el a 223)).setF 4 (el b 223)

/-- Two P registers. -/
def twoP (q r : Pt) : State := (State.reset.setP 1 q).setP 2 r

/-- One P register and the scalar in `x2`. -/
def pointAndX (q : Pt) (k : Nat) : State := (State.reset.setP 1 q).setX 2 (BitVec.ofNat 256 k)

/-- Two X registers. -/
def twoX (v w : Nat) : State := (State.reset.setX 1 (BitVec.ofNat 256 v)).setX 2 (BitVec.ofNat 256 w)

/-- A string in `BUF` and its length in `LEN`. -/
def string (t : List Byte) : State := State.reset.putString t

/-! #### Control (V-C2, V-C5, V-C12) -/

theorem test_xmov : after (State.reset.setX 0 0x1234) 0x00000102 (·.x[1]) = some (.ok, 0x1234) := by decide +kernel
theorem test_xldc : after State.reset 0x00001303 (·.x[3]) =
    some (.ok, 0xfffffffffffffffffffffffffffffffebaaedce6af48a03bbfd25e8cd0364141) := by decide +kernel
theorem test_zeroize : after { (fourF 3 0 0 0).setX 5 77 with buf := [(0, 0xAA)], len := 1, flags := ⟨true, false, false, false⟩ }
    0x00000001 (fun t => (t.x[5], t.f[2].valid, t.buf.isEmpty, t.len, t.flags.word)) = some (.ok, 0, false, true, 0, 0) := by
  decide +kernel
theorem test_nop_counts : after State.reset 0 (fun t => (t.cmdcnt, t.status.word)) = some (.ok, 1, 0x00000002) := by
  decide +kernel
theorem test_illegal_status : after State.reset 0x04000453 (·.status.word) = some (.illegalCommand, 0x00001006) := by
  decide +kernel

/-! #### Field (V-F1, V-F2, V-F7 to V-F38) -/

theorem test_fset : after (State.reset.setX 0 170 |>.setX 1 223) 0x00010010 (·.f[0]) = some (.ok, ⟨true, el 170 223⟩) := by
  decide +kernel
theorem test_fset_range : after (State.reset.setX 0 223 |>.setX 1 223) 0x00010010 (·.f[0].valid) =
    some (.outOfRange, false) := by decide +kernel
theorem test_fget_fmod : after (twoF (el 170 223) (el 0 2)) 0x00001211 (·.x[2]) = some (.ok, 170) ∧
    after (twoF (el 170 223) (el 0 2)) 0x00001212 (·.x[2]) = some (.ok, 223) := by decide +kernel
theorem test_fadd : after (twoF (el 170 223) (el 142 223)) 0x00021013 (·.f[0].fe) = some (.ok, el 89 223) := by
  decide +kernel
theorem test_fadd_mismatch : after (twoF (el 3 223) (el 3 227)) 0x00021013 (·.f[0].valid) =
    some (.fieldMismatch, false) := by decide +kernel
theorem test_fsub : after (twoF (el 0 223) (el 1 223)) 0x00021014 (·.f[0].fe) = some (.ok, el 222 223) := by decide +kernel
theorem test_fmul : after (twoF (el (secpP - 1) secpP) (el 0 2)) 0x00011115 (·.f[1].fe) = some (.ok, el 1 secpP) := by
  decide +kernel
theorem test_fdiv : after (twoF (el 2 223) (el 7 223)) 0x00021016 (·.f[0].fe) = some (.ok, el 64 223) := by decide +kernel
theorem test_fdiv_order : after (twoF (el 5 223) (el 0 227)) 0x00021016 (·.f[0].valid) = some (.fieldMismatch, false) := by
  decide +kernel
theorem test_finv : after (twoF (el 3 223) (el 0 2)) 0x00001017 (·.f[0].fe) = some (.ok, el 149 223) ∧
    after (twoF (el 2 15) (el 0 2)) 0x00001017 (·.f[0].fe) = some (.ok, el 2 15) := by decide +kernel
theorem test_fpow_signed : after ((twoF (el 3 223) (el 0 2)).setX 2 (BitVec.ofNat 256 (2 ^ 256 - 5))) 0x10021018 (·.f[0].fe) =
    some (.ok, el 145 223) := by decide +kernel
theorem test_fpow_unsigned : after ((twoF (el 3 223) (el 0 2)).setX 2 (BitVec.ofNat 256 (2 ^ 256 - 1))) 0x00021018 (·.f[0].fe) =
    some (.ok, el 195 223) := by decide +kernel
theorem test_feq : after (twoF (el 3 223) (el 3 223)) 0x00021019 (·.flags.eq) = some (.ok, true) ∧
    after (twoF (el 3 223) (el 3 227)) 0x00021019 (·.flags.eq) = some (.ok, false) := by decide +kernel
theorem test_fmov : after (twoF (el 42 223) (el 0 2)) 0x0000101A (·.f[0].fe) = some (.ok, el 42 223) := by decide +kernel
theorem test_empty_operand : after { State.reset with flags := ⟨true, false, false, false⟩ } 0x00021019 (·.flags.eq) =
    some (.emptyOperand, true) := by decide +kernel

/-! #### Points (V-P1 to V-P42) -/

theorem test_pset : after (fourF 192 105 0 7) 0x04321020 (fun t => (t.p[0], t.flags.inf)) =
    some (.ok, ⟨true, at7 192 105⟩, false) := by decide +kernel
theorem test_pset_off_curve : after (fourF 200 119 0 7) 0x04321020 (·.p[0].valid) = some (.notOnCurve, false) := by
  decide +kernel
theorem test_pinf : after (fourF 0 0 0 7) 0x00043021 (fun t => (t.p[0].pt, t.flags.inf)) = some (.ok, zeroAt 7, true) := by
  decide +kernel
theorem test_pgetx : after (twoP (at7 192 105) (zeroAt 7)) 0x00001022 (·.f[0].fe) = some (.ok, el 192 223) := by
  decide +kernel
theorem test_pgety_identity : after (twoP (zeroAt 7) (zeroAt 7)) 0x00001023 (·.f[0].valid) = some (.identityPoint, false) := by
  decide +kernel
theorem test_pgety : after (twoP (at7 192 105) (zeroAt 7)) 0x00001023 (·.f[0].fe) = some (.ok, el 105 223) := by
  decide +kernel
theorem test_padd : after (twoP (at7 192 105) (at7 17 56)) 0x00021024 (·.p[0].pt) = some (.ok, at7 170 142) := by
  decide +kernel
theorem test_padd_mismatch : after (twoP (at7 192 105) (zeroAt 5)) 0x00021024 (·.p[0].valid) =
    some (.curveMismatch, false) := by decide +kernel
theorem test_pdbl : after (twoP (at7 192 105) (zeroAt 7)) 0x00001025 (·.p[0].pt) = some (.ok, at7 49 71) := by decide +kernel
theorem test_pdbl_order_two : after (twoP (at7 6 0) (zeroAt 7)) 0x00001025 (fun t => (t.p[0].pt, t.flags.inf)) =
    some (.ok, zeroAt 7, true) := by decide +kernel
theorem test_pneg : after (twoP (at7 192 105) (zeroAt 7)) 0x00001026 (·.p[0].pt) = some (.ok, at7 192 118) := by
  decide +kernel
theorem test_pmul : after (pointAndX (at7 47 71) 20) 0x00021027 (·.p[0].pt) = some (.ok, at7 47 152) := by decide +kernel
theorem test_pmul_trailing_double :
    after (pointAndX ⟨false, el 0 2, el 1 2, el 0 2, el 1 2⟩ 1) 0x00021027 (·.p[0].valid) =
      some (.divisionByZero, false) := by decide +kernel
theorem test_peq : after (twoP (zeroAt 7) (zeroAt 5)) 0x00021028 (·.flags.eq) = some (.ok, false) ∧
    after (twoP (at7 192 105) (at7 192 105)) 0x00021028 (·.flags.eq) = some (.ok, true) := by decide +kernel
theorem test_pmov : after (twoP (at7 192 105) (zeroAt 7)) 0x00001029 (·.p[0].pt) = some (.ok, at7 192 105) := by
  decide +kernel
theorem test_ptst : after (twoP (zeroAt 7) (zeroAt 7)) 0x0000102A (·.flags.inf) = some (.ok, true) := by decide +kernel

/-! #### secp256k1 (V-S1, V-S2, V-S9, V-S12, V-S15, V-S18) -/

theorem test_gload : after State.reset 0x00000030 (fun t => (t.p[0].pt.x.v, t.p[0].pt.b.v)) =
    some (.ok, 0x79be667ef9dcbbac55a06295ce870b07029bfcdb2dce28d959f2815b16f81798, 7) := by decide +kernel
theorem test_smul : after (pointAndX secpG 2) 0x00021031 (fun t => (t.p[0].pt.x.v, t.p[0].pt.y.v)) =
    some (.ok, 0xc6047f9441ed7d6d3045406e95c07cd85c778e4b8cef3ca7abac09b95c709ee5,
      0x1ae168fea63dc339a3c58419466ceaeef7f632653266d0e1236431a950cfe52a) := by decide +kernel
theorem test_smul_mismatch : after (pointAndX (at7 192 105) 2) 0x00021031 (·.p[0].valid) =
    some (.curveMismatch, false) := by decide +kernel
theorem test_liftx_odd : after (twoX secpGx 0) 0x10001032 (·.p[0].pt.y.v) =
    some (.ok, 0xb7c52588d95c3b9aa25b0403f1eef75702e84bb7597aabe663b82f6f04ef2777) := by decide +kernel
theorem test_liftx_errors : after (twoX 5 0) 0x00001032 (·.p[0].valid) = some (.notOnCurve, false) ∧
    after (twoX secpP 0) 0x00001032 (·.p[0].valid) = some (.outOfRange, false) := by decide +kernel

/-! #### ECDSA (V-E1, V-E3, V-E5, V-E12, V-E17, V-E20) -/

theorem test_pubkey_range : after (twoX 0 0) 0x00001041 (·.p[0].valid) = some (.outOfRange, false) := by decide +kernel
theorem test_pubkey_one : after (twoX 1 0) 0x00001041 (·.p[0].pt) = some (.ok, secpG) := by decide +kernel
theorem test_keygen : after { State.reset with entropy := [0, BitVec.ofNat 256 secpN, BitVec.ofNat 256 (2 ^ 256 - 1), 5, 9] }
    0x00000040 (fun t => (t.x[0], t.p[0].pt.x.v, t.entropy)) =
      some (.ok, 5, 0x2f8bde4d1a07209355b4a7250a5c5128e88b84bddc619ab7cba8d569b240efe4, [9]) := by decide +kernel
theorem test_sign_range : after (State.reset.setX 1 5) 0x03010242 (·.x[2]) = some (.outOfRange, 0) := by decide +kernel
/-! #### The nonce generator against RFC 6979's published nonce (95_test_vectors.md W11), over HMAC-SHA256 -/

/-- Below 18^2 = 324: the first 64 primes end at 311. -/
def primes : List Nat :=
  (List.range 312).filter fun p => Nat.ble 2 p && (List.range 18).all fun d => Nat.ble d 1 || d == p || p % d != 0

/-- The largest `r` with `r^k <= n`, from its bit `b - 1` down, above the bits already found. -/
def root (k n : Nat) : Nat → Nat → Nat
  | 0, r => r
  | b + 1, r => root k n b (bif Nat.ble ((r + 2 ^ b) ^ k) n then r + 2 ^ b else r)

/-- The first 32 bits of the fraction of the `k`-th root of `p`: how SHA-256's constants are made from the primes. -/
def fraction (k p : Nat) : Nat := root k (p * 2 ^ (32 * k)) 37 0 % 2 ^ 32

/-- The round constants, from cube roots. -/
def roundConstants : List Nat := primes.map (fraction 3)

theorem test_primes : primes.length = 64 := by decide +kernel

def rotr (n w : Nat) : Nat := (w >>> n) ||| ((w <<< (32 - n)) % 2 ^ 32)

/-- The message schedule, newest word first. -/
def schedule : Nat → List Nat → List Nat
  | 0, l => l
  | k + 1, l =>
    let g := fun i => l.getD i 0
    let s0 := rotr 7 (g 14) ^^^ rotr 18 (g 14) ^^^ (g 14 >>> 3)
    let s1 := rotr 17 (g 1) ^^^ rotr 19 (g 1) ^^^ (g 1 >>> 10)
    schedule k ((g 15 + s0 + g 6 + s1) % 2 ^ 32 :: l)

structure Sha where
  a : Nat
  b : Nat
  c : Nat
  d : Nat
  e : Nat
  f : Nat
  g : Nat
  h : Nat

def round (s : Sha) (kw : Nat × Nat) : Sha :=
  let t1 := s.h + (rotr 6 s.e ^^^ rotr 11 s.e ^^^ rotr 25 s.e) + ((s.e &&& s.f) ^^^ ((2 ^ 32 - 1 - s.e) &&& s.g)) + kw.1 + kw.2
  let t2 := (rotr 2 s.a ^^^ rotr 13 s.a ^^^ rotr 22 s.a) + ((s.a &&& s.b) ^^^ (s.a &&& s.c) ^^^ (s.b &&& s.c))
  ⟨(t1 + t2) % 2 ^ 32, s.a, s.b, s.c, (s.d + t1) % 2 ^ 32, s.e, s.f, s.g⟩

def compress (s : Sha) (block : List Nat) : Sha :=
  let t := (roundConstants.zip (schedule 48 block.reverse).reverse).foldl round s
  let add := fun x y => (x + y) % 2 ^ 32
  ⟨add s.a t.a, add s.b t.b, add s.c t.c, add s.d t.d, add s.e t.e, add s.f t.f, add s.g t.g, add s.h t.h⟩

/-- 32-bit words of a byte list. -/
def words : Nat → List Byte → List Nat
  | 0, _ => []
  | k + 1, t => be (t.take 4) :: words k (t.drop 4)

def blocks : Nat → List Byte → Sha → Sha
  | 0, _, s => s
  | k + 1, t, s => blocks k (t.drop 64) (compress s (words 16 (t.take 64)))

/-- The first chaining value, from square roots. -/
def firstSha : Sha :=
  let q := fun i => fraction 2 (primes.getD i 0)
  ⟨q 0, q 1, q 2, q 3, q 4, q 5, q 6, q 7⟩

def sha256 (t : List Byte) : List Byte :=
  let n := (t.length + 72) / 64
  let padded := t ++ [0x80] ++ List.replicate (64 * n - t.length - 9) 0 ++ beBytes 8 (8 * t.length)
  let s := blocks n padded firstSha
  beBytes 32 (s.h + 2 ^ 32 * (s.g + 2 ^ 32 * (s.f + 2 ^ 32 * (s.e + 2 ^ 32 * (s.d + 2 ^ 32 * (s.c + 2 ^ 32 * (s.b + 2 ^ 32 * s.a)))))))

def hmacSha256 (key : Bytes32) (t : List Byte) : Bytes32 :=
  let pad := fun (c : Byte) => key.toList.map (· ^^^ c) ++ List.replicate 32 c
  let m := sha256 (pad 0x5c ++ sha256 (pad 0x36 ++ t))
  Vector.ofFn fun i => m.getD i.val 0

theorem test_sha256_abc : sha256 [0x61, 0x62, 0x63] =
    beBytes 32 0xba7816bf8f01cfea414140de5dae2223b00361a396177a9cb410ff61f20015ad := by decide +kernel

/-- W11: the first candidate for secret 1 and the digest of "Satoshi Nakamoto". -/
theorem test_nonce_rfc6979 :
    be (nonceDraw hmacSha256 (nonceSeed hmacSha256 1
      0xa0dc65ffca799873cbea0ac274015b9526505daaaed385155425f7337704883e)).val.toList =
    0x8f8a276c19f4149656b280621e358cce24f5f52542772691ee69063b74f15d15 := by decide +kernel

/-! #### Signing and verifying with a nonce fixed at 1: by R205, `r = Gx` and, for `z = 0` and `x = 1`, `s = r` -/

/-- SIGN's outcome over an HMAC function that always answers `k`. -/
def signAfter {α : Type} (k : Nat) (look : State → α) : Option α :=
  match signWith (fun _ _ => Vector.ofFn fun i => (be32 k).getD i.val 0) 2 3 0 1
      { State.reset.setX 0 1 with status := ⟨true, false, false, false, .ok⟩ } with
  | .next t => some (look t)
  | _ => none

theorem test_sign_fixed_nonce : signAfter 1 (fun t => (t.status.code, t.x[2].toNat, t.x[3].toNat, t.flags.nrt)) =
    some (.ok, secpGx, secpGx, false) := by decide +kernel
/-- An out-of-range candidate leaves the command in execution and no register written (R203, R205). -/
theorem test_sign_rejected : signAfter 0 (fun t => (t.status.busy, t.x[2], t.cmdcnt, t.nonce.isSome)) =
    some (true, 0, 0, true) := by decide +kernel

/-- A key, a digest and a signature. -/
def signed (z r w : Nat) : State :=
  ((((State.reset.setP 0 secpG).setX 1 (BitVec.ofNat 256 z)).setX 2 (BitVec.ofNat 256 r)).setX 3 (BitVec.ofNat 256 w)).setVok true
theorem test_verify : after (signed 0 secpGx secpGx) 0x03210043 (·.flags.vok) = some (.ok, true) := by decide +kernel
/-- V-E17. -/
theorem test_verify_invalid : after (signed 0 0 secpGx) 0x03210043 (fun t => (t.flags.vok, t.status.word)) =
    some (.invalidSignature, false, 0x00000702) := by decide +kernel

/-! #### Strings (V-N1, V-N4, V-N8, V-N10, V-N20, V-N23, V-N26, V-N28, V-N36) -/

theorem test_secenc_compressed :
    after (State.reset.setP 1 secpG) 0x10001050 (fun t => (t.len, t.buf.readBytes 0 33 == 0x02 :: be32 secpGx)) =
      some (.ok, 33, true) := by decide +kernel
theorem test_secenc_identity :
    after (State.reset.setP 1 (Pt.identity (secpFe 0) (secpFe 7))) 0x00001050 (·.len) = some (.identityPoint, 0) := by
  decide +kernel
theorem test_secdec_odd : after (string (0x03 :: be32 secpGx)) 0x00000051 (·.p[0].pt.y.v) =
    some (.ok, 0xb7c52588d95c3b9aa25b0403f1eef75702e84bb7597aabe663b82f6f04ef2777) := by decide +kernel
theorem test_secdec_tag : after (string (0x05 :: be32 secpGx)) 0x00000051 (·.p[0].valid) = some (.malformedSec, false) := by
  decide +kernel
theorem test_derenc : after (twoX 0x80 0x7f) 0x00021052 (fun t => (t.len, t.buf.readBytes 0 9)) =
    some (.ok, 9, [0x30, 0x07, 0x02, 0x02, 0x00, 0x80, 0x02, 0x01, 0x7f]) := by decide +kernel
theorem test_derenc_range : after (twoX 1 secpN) 0x00021052 (·.len) = some (.outOfRange, 0) := by decide +kernel
theorem test_derdec : after (string [0x30, 0x08, 0x02, 0x02, 0x00, 0x01, 0x02, 0x02, 0x00, 0xff]) 0x05000453
    (fun t => (t.x[4], t.x[5])) = some (.ok, 1, 255) := by decide +kernel
theorem test_derdec_tag : after (string [0x30, 0x06, 0x02, 0x01, 0x01, 0x03, 0x01, 0x01]) 0x05000453
    (fun t => (t.x[4], t.x[5])) = some (.malformedDer, 0, 0) := by decide +kernel

/-! ### The host's sequences (V-X1, V-X4 to V-X13) -/

/-- The words the reads among `k` events return, and the state at the end. -/
def script (s : State) (l : List Event) : Option State :=
  match steps l.length { s with agenda := l } with
  | .next t => some t
  | _ => none

theorem test_reset_reads : (script State.reset [.read .w4 0x000]).map (·.lastRead) = some (some 0x4D464145) ∧
    (script State.reset [.read .w4 0x00C]).map (·.lastRead) = some (some 0) := by decide +kernel
/-- V-X4, V-X5. -/
theorem test_irq : (script State.reset [.write .w4 0x008 1, .write .w4 0x010 0, .engine]).map (·.irq) = some true ∧
    (script State.reset [.write .w4 0x008 1, .write .w4 0x010 0, .engine, .write .w4 0x00C 2]).map
      (fun t => (t.irq, t.status.word)) = some (false, 0) := by decide +kernel
/-- V-X6, V-X7, with NOP for SMUL. -/
theorem test_busy_writes : (script State.reset [.write .w4 0x010 0, .write .w4 0x100 7, .write .w4 0x010 1]).map
    (fun t => (t.x[0], t.cmd, t.status.word)) = some (0, 0, 0x00000009) ∧
    (script State.reset [.write .w4 0x010 0, .write .w4 0x100 7, .engine, .write .w4 0x00C 8]).map (·.status.word) =
      some 0x00000002 := by decide +kernel
/-- V-X8, V-X9. -/
theorem test_soft_reset : (script (State.reset.setX 0 1) [.write .w4 0x010 0x03010242, .write .w4 0x008 3]).map
    (fun t => (t.x[0], t.x[2], t.cmdcnt, t.status.word, t.ie, t.cmd)) = some (0, 0, 0, 0, false, 0) := by decide +kernel
/-- V-X10, V-X11. -/
theorem test_malformed : script State.reset [.read .w2 0x000] = none ∧ script State.reset [.read .w4 0x002] = none ∧
    (script State.reset [.read .w4 0x030]).map (·.lastRead) = some (some 0) := by decide +kernel
/-- V-X12. -/
theorem test_x_words : (script State.reset (hostXW 3 (BitVec.ofNat 256 (2 ^ 255 + 0x1122)) ++ [.read .w4 0x160])).map
    (fun t => (t.x[3].toNat, t.lastRead)) = some (2 ^ 255 + 0x1122, some 0x1122) := by decide +kernel
/-- V-X13. -/
theorem test_buf_word : (script State.reset (hostBW [] 0 [0x30, 0x06, 0x02, 0x01] ++ [.read .w4 0x300])).map (·.lastRead) =
    some (some 0x01020630) := by decide +kernel
/-- A word placed for the next step is run by it, from reset (V-C1). -/
theorem test_fetch : decodeTableWord 32 0x00000303 = some (.xldc 3 0) ∧
    (match step (State.reset.withFetchWord 32 0x00000303) with
      | .next t => some (t.x[3].toNat, t.status.word)
      | _ => none) = some (secpP, 0x00000002) := by decide +kernel

/-! ### Values that meet the statements' hypotheses

`witness_<Name>` is about `Obligations.<Name>`. -/

/-- F registers modulo 223, points of `a = 0, b = 7`, the generator, scalars and a string; a command is in execution. -/
def rich : State :=
  { (((((((((((State.reset.setF 1 (el 192 223)).setF 2 (el 105 223)).setF 3 (el 0 223)).setF 4 (el 7 223)).setF 5
      (el 5 227)).setP 0 secpG).setP 1 (at7 192 105)).setP 2 (at7 17 56)).setP 3 (zeroAt 7)).setX 1 170).setX 2 223).putString
      [0x30, 0x06, 0x02, 0x01, 0x01, 0x02, 0x01, 0x01] with
    status := ⟨true, false, false, false, .ok⟩ }

/-- The same with no command in execution. -/
def idle : State := { rich with status := ⟨false, false, false, false, .ok⟩ }

theorem rich_fieldsOk : rich.fieldsOk := by
  unfold State.fieldsOk Fe.wf
  decide +kernel

theorem rich_pointsOk : rich.pointsOk := by
  unfold State.pointsOk Pt.wf Fe.wf
  decide +kernel

theorem rich_onCurve : ∀ i : Reg, rich.p[i.val].valid = true → rich.p[i.val].pt.onCurve := by
  unfold Pt.onCurve
  decide +kernel

theorem rich_wf : rich.buf.wf := by decide +kernel

theorem rich_inv : rich.Inv ∧ rich.curvesOk :=
  ⟨⟨rich_fieldsOk, rich_pointsOk, rich_wf, rfl, fun _ => rfl⟩, fun i hv _ => rich_onCurve i hv⟩

theorem rich_get {i : Reg} (h : rich.p[i.val].valid = true) : rich.p[i.val].pt.wf := rich_pointsOk i h

/-! #### Encoding -/

theorem witness_DecodeInvertsEncode : (Instr.sign 15 0 15 15).wellFormed = true ∧ (Instr.xldc 0 6).wellFormed = true := by
  decide
theorem witness_EncodeInvertsDecode : decode 0x1FFF0F18#32 = .error .unusedField ∧ decode 0x100F0F18#32 = .ok (.fpow 15 0 15 true) := by
  decide +kernel
/-- Each of the three outcomes of a selected row. -/
theorem witness_DecodeFollowsMatchAndMask :
    (selects 0x03010242#32 (.sign 2 3 0 1) ∧ decode 0x03010242#32 = .ok (.sign 2 3 0 1)) ∧
    (selects 0x02010242#32 (.sign 2 3 0 1) ∧ fieldD 0x02010242#32 = fieldE 0x02010242#32) ∧
    (selects 0x00007303#32 (.xldc 3 6) ∧ fieldA 0x00007303#32 = 7) := by
  unfold selects
  decide +kernel
/-- The ends of each reserved range, a word no row selects, `D = E`, and the first bad selector. -/
theorem witness_ReservedAndIllegalWords :
    rich.status.busy = true ∧ opc 0x00000004#32 = 0x04 ∧ opc 0x0000000F#32 = 0x0F ∧ opc 0x0000001B#32 = 0x1B ∧
    opc 0x0000001F#32 = 0x1F ∧ opc 0x0000002B#32 = 0x2B ∧ opc 0x0000002F#32 = 0x2F ∧ opc 0x00000033#32 = 0x33 ∧
    opc 0x0000003F#32 = 0x3F ∧ opc 0x00000044#32 = 0x44 ∧ opc 0x0000004F#32 = 0x4F ∧ opc 0x00000054#32 = 0x54 ∧
    opc 0x000000FF#32 = 0xFF ∧ (∀ i : Instr, ¬ selects 0x20000000#32 i) ∧ fieldD 0x04000453#32 = fieldE 0x04000453#32 ∧
    fieldA 0x00007303#32 = 7 := by
  have unselected : ∀ i : Instr, ¬ selects 0x20000000#32 i := by
    intro i
    cases i <;> unfold selects <;> simp only [Instr.matchMask] <;> decide
  simp only [unselected, not_false_eq_true, implies_true, true_and]
  decide

/-! #### The bus -/

theorem witness_StepRunsLatchedCommand :
    ({ rich with agenda := [.engine] } : State).agenda = .engine :: [] ∧ (rich.agenda = [] ∧ ([] : List Event) = []) ∧
    rich.status.busy = true ∧ decode rich.cmd = .ok .nop ∧ idle.status.busy = false := by decide +kernel
/-- The first and the last X word, `BUF` word and reserved offset. -/
theorem witness_ReadsReturnTheWindow :
    (0x100#12).toNat = 0x100 + 32 * (0 : Reg).val + 4 * (0 : Fin 8).val ∧
    (0x2FC#12).toNat = 0x100 + 32 * (15 : Reg).val + 4 * (7 : Fin 8).val ∧
    (0x300#12).toNat = 0x300 + 4 * (0 : Fin 32).val ∧ (0x37C#12).toNat = 0x300 + 4 * (31 : Fin 32).val ∧
    ((0x028#12).toNat % 4 = 0 ∧ 0x028 ≤ (0x028#12).toNat) ∧ ((0x0FC#12).toNat % 4 = 0 ∧ (0x0FC#12).toNat < 0x100) ∧
    ((0x380#12).toNat % 4 = 0 ∧ 0x380 ≤ (0x380#12).toNat) ∧ (0xFFC#12).toNat % 4 = 0 := by decide
theorem witness_IdleWritesStore :
    idle.status.busy = false ∧ idle.buf.wf ∧ (0x2FC#12).toNat = 0x100 + 32 * (15 : Reg).val + 4 * (7 : Fin 8).val ∧
    (0x37C#12).toNat = 0x300 + 4 * (31 : Fin 32).val ∧
    ((0x020#12).toNat % 4 = 0 ∧ 0x014 ≤ (0x020#12).toNat ∧ (0x020#12).toNat < 0x024) ∧
    ((0x014#12).toNat % 4 = 0 ∧ 0x014 ≤ (0x014#12).toNat) := ⟨rfl, rich_wf, by decide, by decide, by decide, by decide⟩
theorem witness_CmdRegister : idle.status.busy = false ∧ rich.status.busy = true := ⟨rfl, rfl⟩
theorem witness_BusyWindow :
    rich.status.busy = true ∧ (0x37C#12).toNat % 4 = 0 ∧ (0x100 ≤ (0x37C#12).toNat ∧ (0x37C#12).toNat < 0x380) ∧
    ¬ ((0x008#12).toNat = 0x008 ∧ (1#32).getLsbD 1 = true) ∧ ¬ ((0x00C#12).toNat = 0x008 ∧ (2#32).getLsbD 1 = true) := by
  decide +kernel
theorem witness_ControlRegisterWrites : (1#32).getLsbD 1 = false ∧ (3#32).getLsbD 1 = true := by decide
theorem witness_InterruptLine :
    (rich.status.busy = true ∧ ∃ t, exec .nop rich = .next t ∧ t.status.busy = false) ∧
    ((2#32).getLsbD 1 = true ∧ ∃ t, writes idle 0x00C 2 t) ∧ (idle.status.busy = false ∧ ∃ t, writes idle 0x010 0 t) :=
  ⟨⟨rfl, _, rfl, rfl⟩, ⟨rfl, _, rfl⟩, rfl, _, rfl⟩
theorem witness_ResetAbandonsTheCommand : (2#32).getLsbD 1 = true ∧ (3#32).getLsbD 1 = true := by decide
theorem witness_MalformedAccessFaults :
    Width.w2 ≠ Width.w4 ∧ Width.w8 ≠ Width.w4 ∧ (0x002#12).toNat % 4 ≠ 0 ∧ (0xFFC#12).toNat % 4 = 0 := by decide
theorem witness_EightWritesStoreValue :
    idle.status.busy = false ∧ (∀ j : Fin 8, j ∈ ([7, 1, 2, 3, 4, 5, 6, 0] : List (Fin 8))) ∧
    ∀ j, ((fun j => xOffset 15 j) j).toNat = 0x100 + 32 * (15 : Reg).val + 4 * j.val := by
  refine ⟨rfl, by decide, by decide⟩
theorem witness_NonceNeverObservable :
    Event.hardReset ≠ .engine ∧ (rich.status.busy = true ∧ ∃ t, exec .nop rich = .next t ∧ t.status.busy = false) ∧
    ∃ t, step { rich with agenda := .hardReset :: rich.agenda } = .next t :=
  ⟨by decide, ⟨rfl, _, rfl, rfl⟩, _, rfl⟩
theorem witness_EnginesShareNothing :
    (⟨[idle, { rich with agenda := [.hardReset] }]⟩ : System).engines[1]? = some { rich with agenda := [.hardReset] } ∧
    ∃ t, step { rich with agenda := [.hardReset] } = .next t := ⟨rfl, _, rfl⟩

/-! #### Invariants and frames -/

theorem witness_StepKeepsInvariant : rich.Inv ∧ ∃ t, step rich = .next t := ⟨rich_inv.1, _, rfl⟩
theorem witness_StepKeepsPointsOnCurve : rich.Inv ∧ rich.curvesOk ∧ ∃ t, step rich = .next t :=
  ⟨rich_inv.1, rich_inv.2, _, rfl⟩
theorem witness_RaisedCommandWritesNothing :
    (rich.status.busy = true ∧ ∃ t, exec (.sign 2 2 0 1) rich = .next t ∧ t.status.busy = false ∧ t.status.err = true) ∧
    ∃ t, exec (.verify 9 1 2 3) rich = .next t ∧ t.status.busy = false ∧ t.status.err = true :=
  ⟨⟨rfl, _, rfl, rfl, rfl⟩, _, rfl, rfl, rfl⟩
theorem witness_RegisterFrame : Instr.padd 0 1 2 ≠ .zeroize ∧ (∃ t, exec (.padd 0 1 2) rich = .next t) ∧
    (1 : Reg) ∉ xDests (.padd 0 1 2) ∧ (0 : Reg) ∉ fDests (.padd 0 1 2) ∧ (3 : Reg) ∉ pDests (.padd 0 1 2) := by
  refine ⟨by decide, ?_, by decide, by decide, by decide⟩
  obtain ⟨t, h, -⟩ := exec_effect (.padd 0 1 2) rich
  exact ⟨t, h⟩
theorem witness_FlagFrame : Instr.fmov 0 9 ≠ .zeroize ∧ (rich.status.busy = true ∧ ∃ t, exec (.fmov 0 9) rich = .next t ∧
    t.status.busy = false ∧ t.status.err = true) ∧ writesEq (.fmov 0 9) = false ∧ writesInf (.fmov 0 9) = false :=
  ⟨by decide, ⟨rfl, _, rfl, rfl, rfl⟩, rfl, rfl⟩
theorem witness_BufferAndControlFrame : (∃ t, exec .nop rich = .next t) ∧ writesBuf .nop = false ∧ Instr.nop ≠ .zeroize ∧
    ∀ d e : Reg, Instr.nop ≠ .keygen d e := ⟨⟨_, rfl⟩, rfl, by decide, fun _ _ => by simp⟩
theorem witness_EmptyOperandRaised :
    (∃ r ∈ fSources (.fdiv 0 1 9), rich.f[r.val].valid = false) ∧ ∃ r ∈ pSources (.verify 9 1 2 3), rich.p[r.val].valid = false :=
  ⟨⟨9, by decide, by decide +kernel⟩, 9, by decide, by decide +kernel⟩
theorem witness_CodesProduced : (Instr.fmov 0 9).wellFormed = true ∧ rich.Inv ∧ rich.status.busy = true ∧
    ∃ t, exec (.fmov 0 9) rich = .next t ∧ t.status.busy = false := ⟨rfl, rich_inv.1, rfl, _, rfl, rfl⟩

/-! #### Commands -/

theorem witness_ControlCommandResults : 6 < (7 : Reg).val ∧ 6 < (15 : Reg).val := by decide
/-- The smallest modulus with its largest value; the largest illegal modulus; a value equal to its modulus. -/
theorem witness_FsetResult :
    (2 ≤ (twoX 1 2).x[2].toNat ∧ (twoX 1 2).x[1].toNat < (twoX 1 2).x[2].toNat) ∧ (twoX 0 1).x[2].toNat < 2 ∧
    (twoX 223 223).x[2].toNat ≤ (twoX 223 223).x[1].toNat := by decide +kernel
theorem witness_FieldCopies : rich.f[1].valid = true := by decide +kernel
/-- One field, and two. -/
theorem witness_FieldSumDifferenceProduct :
    (rich.f[1].valid = true ∧ rich.f[2].valid = true ∧ 2 ≤ rich.f[1].fe.m.toNat ∧ rich.f[1].fe.m = rich.f[2].fe.m) ∧
    (rich.f[5].valid = true ∧ rich.f[1].fe.m ≠ rich.f[5].fe.m) := by decide +kernel
theorem witness_FieldDivision :
    (rich.f[1].valid = true ∧ rich.f[2].valid = true ∧ 2 ≤ rich.f[1].fe.m.toNat ∧ rich.f[1].fe.m = rich.f[2].fe.m ∧
      rich.f[2].fe.v ≠ 0 ∧ rich.f[1].fe.v ≠ 0) ∧
    (rich.f[3].valid = true ∧ rich.f[1].fe.m = rich.f[3].fe.m ∧ rich.f[3].fe.v = 0) ∧
    (rich.f[5].valid = true ∧ rich.f[1].fe.m ≠ rich.f[5].fe.m) := by decide +kernel
/-- A large modulus and the smallest one. -/
theorem witness_FpowResult : (rich.f[1].valid = true ∧ 2 ≤ rich.f[1].fe.m.toNat) ∧
    ((twoF (el 1 2) (el 0 2)).f[1].valid = true ∧ 2 ≤ (twoF (el 1 2) (el 0 2)).f[1].fe.m.toNat) := by decide +kernel
theorem witness_Comparisons : (rich.f[1].valid = true ∧ rich.f[5].valid = true) ∧
    (rich.p[1].valid = true ∧ rich.p[3].valid = true ∧ rich.p[1].pt.wf ∧ rich.p[3].pt.wf) := by
  refine ⟨by decide +kernel, by decide +kernel, by decide +kernel, ?_, ?_⟩
  · exact rich_get (i := 1) (by decide +kernel)
  · exact rich_get (i := 3) (by decide +kernel)

/-- A state with 221 in `x1`, for `3 * 3^221 = 1` modulo 223. -/
def fermat : State := (twoF (el 3 223) (el 142 223)).setX 1 221

theorem witness_FieldProperties :
    (fermat.f[1].valid = true ∧ fermat.f[1].fe.wf ∧ Nat.Prime fermat.f[1].fe.m.toNat ∧ fermat.f[1].fe.v ≠ 0 ∧
      fermat.x[1].toNat = fermat.f[1].fe.m.toNat - 2 ∧ (0 : Reg) ≠ 1 ∧
      ∃ t u, exec (.fpow 0 1 1 false) fermat = .next t ∧ exec (.fmul 3 1 0) t = .next u) ∧
    (fermat.f[2].valid = true ∧ fermat.f[2].fe.wf ∧ fermat.f[1].fe.m = fermat.f[2].fe.m ∧ (0 : Reg) ≠ 2 ∧
      ∃ t u, exec (.fadd 0 1 2) fermat = .next t ∧ exec (.fsub 3 0 2) t = .next u) := by
  obtain ⟨t, ht, -⟩ := exec_effect (.fpow 0 1 1 false) fermat
  obtain ⟨u, hu, -⟩ := exec_effect (.fmul 3 1 0) t
  obtain ⟨t', ht', -⟩ := exec_effect (.fadd 0 1 2) fermat
  obtain ⟨u', hu', -⟩ := exec_effect (.fsub 3 0 2) t'
  have hm : fermat.f[1].fe.m.toNat = 223 := by decide +kernel
  refine ⟨⟨by decide +kernel, ?_, ?_, by decide +kernel, by decide +kernel, by decide, t, u, ht, hu⟩,
    by decide +kernel, ?_, by decide +kernel, by decide, t', u', ht', hu'⟩
  · unfold Fe.wf
    decide +kernel
  · rw [hm]
    norm_num
  · unfold Fe.wf
    decide +kernel

/-- On the curve, off it, and two moduli. -/
theorem witness_PsetResult :
    ((∀ r ∈ ([1, 2, 3, 4] : List Reg), rich.f[r.val].valid = true) ∧
      (int rich.f[2].fe ^ 2 % 223 = (int rich.f[1].fe ^ 3 + int rich.f[3].fe * int rich.f[1].fe + int rich.f[4].fe) % 223)) ∧
    ¬ (int rich.f[1].fe ^ 2 % 223 = (int rich.f[2].fe ^ 3 + int rich.f[3].fe * int rich.f[2].fe + int rich.f[4].fe) % 223) ∧
    (rich.f[5].valid = true ∧ rich.f[1].fe.m ≠ rich.f[5].fe.m) := by decide +kernel
theorem witness_PinfResult : (rich.f[3].valid = true ∧ rich.f[4].valid = true ∧ rich.f[3].fe.m = rich.f[4].fe.m) ∧
    (rich.f[5].valid = true ∧ rich.f[3].fe.m ≠ rich.f[5].fe.m) := by decide +kernel
theorem witness_PointReadsCopiesAndNegation :
    (rich.p[1].valid = true ∧ rich.p[1].pt.inf = false ∧ rich.p[1].pt.wf) ∧ (rich.p[3].valid = true ∧ rich.p[3].pt.inf = true) :=
  ⟨⟨by decide +kernel, by decide +kernel, rich_get (i := 1) (by decide +kernel)⟩, by decide +kernel, by decide +kernel⟩
theorem witness_PointSumResult : rich.p[1].valid = true ∧ rich.p[2].valid = true ∧ rich.p[1].pt.wf ∧ rich.p[2].pt.wf :=
  ⟨by decide +kernel, by decide +kernel, rich_get (i := 1) (by decide +kernel), rich_get (i := 2) (by decide +kernel)⟩
theorem witness_PmulFollowsTheLoop : rich.p[1].valid = true ∧ rich.p[1].pt.wf :=
  ⟨by decide +kernel, rich_get (i := 1) (by decide +kernel)⟩

theorem toZ_el : (el 0 223).toZ 223 = 0 ∧ (el 7 223).toZ 223 = 7 := by decide +kernel
theorem shortCurve_Δ : (shortCurve 223 0 7).Δ ≠ 0 := by
  simp only [shortCurve, WeierstrassCurve.Δ, WeierstrassCurve.b₂, WeierstrassCurve.b₄, WeierstrassCurve.b₆,
    WeierstrassCurve.b₈]
  decide +kernel

/-- The registers' points stand for points of Mathlib's curve. -/
theorem represents_at7 [Fact (Nat.Prime 223)] {x y : Nat} (hw : (at7 x y).wf) (hc : (at7 x y).onCurve) :
    ∃ g : (shortCurve 223 0 7).Point, (at7 x y).Represents g := by
  have hm : (at7 x y).a.m.toNat = 223 := show (el 0 223).m.toNat = 223 by decide +kernel
  have hin : (at7 x y).In 223 := by
    have h := hw.in
    rwa [hm] at h
  have h0 : (at7 x y).a.toZ 223 = 0 := toZ_el.1
  have h7 : (at7 x y).b.toZ 223 = 7 := toZ_el.2
  have he := (oncurve_iff hin).1 (hc rfl)
  rw [h0, h7] at he
  have hn : (shortCurve 223 0 7).Nonsingular ((at7 x y).x.toZ 223) ((at7 x y).y.toZ 223) := by
    rw [← WeierstrassCurve.Affine.equation_iff_nonsingular_of_Δ_ne_zero shortCurve_Δ, shortCurve_equation_iff]
    exact he
  exact ⟨.some _ _ hn, hw, hm, h0, h7, rfl, rfl, rfl⟩

theorem prime_223 : Fact (Nat.Prime 223) := ⟨by norm_num⟩

theorem witness_PointOperationsAreTheGroup : ∃ (_ : Fact (Nat.Prime 223)) (g h : (shortCurve 223 0 7).Point),
    223 % 2 = 1 ∧ rich.p[1].valid = true ∧ rich.p[2].valid = true ∧ rich.p[1].pt.Represents g ∧ rich.p[2].pt.Represents h := by
  have hp := prime_223
  have h1 : rich.p[1].pt = at7 192 105 := by decide +kernel
  have h2 : rich.p[2].pt = at7 17 56 := by decide +kernel
  have w1 := rich_get (i := 1) (by decide +kernel)
  have w2 := rich_get (i := 2) (by decide +kernel)
  have c1 := rich_onCurve 1 (by decide +kernel)
  have c2 := rich_onCurve 2 (by decide +kernel)
  rw [show rich.p[(1 : Reg).val].pt = at7 192 105 from h1] at w1 c1
  rw [show rich.p[(2 : Reg).val].pt = at7 17 56 from h2] at w2 c2
  obtain ⟨g, hg⟩ := represents_at7 w1 c1
  obtain ⟨h, hh⟩ := represents_at7 w2 c2
  exact ⟨hp, g, h, rfl, by decide +kernel, by decide +kernel, by rwa [h1], by rwa [h2]⟩
theorem witness_PmulIsTheScalarMultiple : ∃ (_ : Fact (Nat.Prime 223)) (g : (shortCurve 223 0 7).Point),
    223 % 2 = 1 ∧ rich.p[1].valid = true ∧ rich.p[1].pt.Represents g := by
  obtain ⟨hp, g, -, h2, hv, -, hg, -⟩ := witness_PointOperationsAreTheGroup
  exact ⟨hp, g, h2, hv, hg⟩
theorem witness_GroupProperties :
    (rich.p[1].valid = true ∧ rich.p[3].valid = true ∧ rich.p[1].pt.wf ∧ rich.p[3].pt.wf ∧
      Nat.Prime rich.p[1].pt.a.m.toNat ∧ rich.p[1].pt.a.m.toNat % 2 = 1 ∧
      rich.p[3].pt = identity rich.p[1].pt.a rich.p[1].pt.b) ∧
    ((4 : Reg) ≠ 1 ∧ ∃ t, exec (.pneg 4 1) rich = .next t) := by
  obtain ⟨t, ht, -⟩ := exec_effect (.pneg 4 1) rich
  have hm : rich.p[1].pt.a.m.toNat = 223 := by decide +kernel
  refine ⟨⟨by decide +kernel, by decide +kernel, rich_get (i := 1) (by decide +kernel),
    rich_get (i := 3) (by decide +kernel), ?_, by rw [hm], by decide +kernel⟩, by decide, t, ht⟩
  rw [hm]
  norm_num

/-! #### secp256k1, ECDSA and strings -/

theorem rich_generator : rich.p[0].pt = secpG := by decide +kernel

theorem generator_exists : ∃ (_ : Fact secpP.Prime) (g : SecpGroup), IsGenerator g := by
  have hp : Fact secpP.Prime := ⟨secpP_prime⟩
  obtain ⟨g, hg, -⟩ := secpG_represents
  exact ⟨hp, g, by rwa [IsGenerator, secpPoint_generator]⟩

/-- Off the curve; on it, with the scalars 0, `n`, `n + 1` and `n - 1`. -/
theorem witness_SmulResult :
    (rich.p[1].valid = true ∧ ¬ onSecp rich.p[1].pt) ∧
    (∃ (_ : Fact secpP.Prime) (g : SecpGroup), rich.p[0].valid = true ∧ rich.p[0].pt.Represents g) ∧
    (twoX 0 secpN).x[1].toNat = 0 ∧ (twoX 0 secpN).x[2].toNat = secpN ∧ (twoX (secpN + 1) 0).x[1].toNat = secpN + 1 ∧
    ((twoX (secpN - 1) 0).x[1].toNat = secpN - 1 ∧ rich.p[0].pt = secpPoint secpGx secpGy) := by
  refine ⟨⟨by decide +kernel, ?_⟩, ?_, by decide +kernel, by decide +kernel, by decide +kernel, by decide +kernel, ?_⟩
  · rw [onSecp_iff]
    decide +kernel
  · obtain ⟨hp, g, hg⟩ := generator_exists
    exact ⟨hp, g, by decide +kernel, by rwa [rich_generator, ← secpPoint_generator]⟩
  · rw [rich_generator, secpPoint_generator]
theorem witness_GeneratorHasOrderN : (∃ (_ : Fact secpP.Prime) (g : SecpGroup), IsGenerator g) ∧ inRange 1 ∧ inRange (secpN - 1) := by
  refine ⟨generator_exists, ?_, ?_⟩ <;> unfold inRange <;> decide +kernel
/-- `x = 0` names no point (V-S15): 7 has no square root. -/
theorem no_root_zero (y : Nat) : ¬ secpEquation 0 y := by
  rcases liftx_cases 0 false with ⟨h, -⟩ | ⟨-, h, -⟩ | ⟨-, y', -, -, -, h⟩
  · exact absurd h (by decide +kernel)
  · exact h y
  · rw [show liftx 0 false = .error .notOnCurve from by decide +kernel] at h
    cases h
theorem generator_equation : secpEquation secpGx secpGy := by
  unfold secpEquation
  decide +kernel
theorem x_twoX_zero : (twoX 0 0).x[1].toNat = 0 ∧ (twoX secpGx 0).x[1].toNat = secpGx := by decide +kernel

/-- The smallest coordinate out of range, a root, and an `x` with none. -/
theorem witness_LiftxResult :
    secpP ≤ (twoX secpP 0).x[1].toNat ∧
    ((twoX secpGx 0).x[1].toNat < secpP ∧ secpGy < secpP ∧ secpEquation (twoX secpGx 0).x[1].toNat secpGy) ∧
    ((twoX 0 0).x[1].toNat < secpP ∧ ∀ y, ¬ secpEquation (twoX 0 0).x[1].toNat y) := by
  rw [x_twoX_zero.1, x_twoX_zero.2]
  exact ⟨by decide +kernel, ⟨by decide +kernel, by decide +kernel, generator_equation⟩, by decide +kernel, no_root_zero⟩

/-- Draws of KEYGEN: 0 and `n` are discarded, 1 and `n - 1` are taken; no draw in range. -/
theorem witness_KeygenResult :
    (∃ (_ : Fact secpP.Prime) (g : SecpGroup), IsGenerator g) ∧
    (({ idle with entropy := [0, BitVec.ofNat 256 secpN, 1, 9] } : State).entropy =
      [0, BitVec.ofNat 256 secpN] ++ 1 :: [9] ∧
      ¬ inRange (0 : W256).toNat ∧ ¬ inRange (BitVec.ofNat 256 secpN).toNat ∧ inRange (1 : W256).toNat) ∧
    inRange (BitVec.ofNat 256 (secpN - 1)).toNat ∧ ∀ v ∈ State.reset.entropy, ¬ inRange v.toNat := by
  refine ⟨generator_exists, ⟨rfl, ?_, ?_, ?_⟩, ?_, fun v hv => nomatch hv⟩ <;> unfold inRange <;> decide +kernel
theorem witness_PubkeyResult :
    (∃ (_ : Fact secpP.Prime) (g : SecpGroup), IsGenerator g) ∧
    (inRange (twoX 1 (secpN - 1)).x[1].toNat ∧ inRange (twoX 1 (secpN - 1)).x[2].toNat) ∧
    (¬ inRange (twoX 0 secpN).x[1].toNat ∧ ¬ inRange (twoX 0 secpN).x[2].toNat) := by
  refine ⟨generator_exists, ⟨?_, ?_⟩, ?_, ?_⟩ <;> unfold inRange <;> decide +kernel

/-- An HMAC function that always answers `k`. -/
def fixed (k : Nat) : Bytes32 → List Byte → Bytes32 := fun _ _ => Vector.ofFn fun i => (be32 k).getD i.val 0

/-- The secret 1 and the digest `z`, with a SIGN in execution. -/
def toSign (z : Nat) : State :=
  { (State.reset.setX 0 1).setX 1 (BitVec.ofNat 256 z) with status := ⟨true, false, false, false, .ok⟩ }

theorem sign_completes : ∃ t, signWith (fixed 1) 2 3 0 1 (toSign 0) = .next t ∧ t.status.busy = false ∧ t.status.code = .ok := by
  have hc : (match signWith (fixed 1) 2 3 0 1 (toSign 0) with
      | .next t => some (t.status.busy, t.status.code)
      | _ => none) = some (false, .ok) := by
    decide +kernel
  rcases signWith_cases (fixed 1) 2 3 0 1 (toSign 0) with ⟨-, -, r, w, nrt, -, h⟩ | ⟨-, -, g, -, h⟩ | ⟨-, -, c, -, h⟩ |
    ⟨-, -, h⟩ | ⟨-, h⟩ <;> rw [h] at hc <;>
    exact ⟨_, h, congrArg Prod.fst (Option.some.inj hc), congrArg Prod.snd (Option.some.inj hc)⟩

/-- An illegal secret; the candidates 0, `n`, 1 and `n - 1`; and, for the candidate 1, digests that give a signature and
the one that gives `s = 0`. -/
theorem witness_SignResult :
    (∃ (_ : Fact secpP.Prime) (g : SecpGroup), IsGenerator g ∧ secpG.Represents (1 • g)) ∧ (2 : Reg) ≠ 3 ∧
    ¬ inRange (twoX 0 secpN).x[1].toNat ∧ inRange (toSign 0).x[0].toNat ∧
    ¬ inRange (bigEndian (fixed 0 (Vector.replicate 32 0) []).toList) ∧
    ¬ inRange (bigEndian (fixed secpN (Vector.replicate 32 0) []).toList) ∧
    inRange (bigEndian (fixed (secpN - 1) (Vector.replicate 32 0) []).toList) ∧
    bigEndian (fixed 1 (Vector.replicate 32 0) []).toList = 1 ∧ inRange 1 ∧ secpG.inf = false ∧
    secpG.x.v.toNat % secpN ≠ 0 ∧
    ((toSign 0).x[1].toNat + secpG.x.v.toNat % secpN * (toSign 0).x[0].toNat) * (1 ^ (secpN - 2) % secpN) % secpN ≠ 0 ∧
    ((toSign (secpN - secpGx)).x[1].toNat + secpG.x.v.toNat % secpN * (toSign (secpN - secpGx)).x[0].toNat) *
      (1 ^ (secpN - 2) % secpN) % secpN = 0 := by
  obtain ⟨hp, g, hg⟩ := generator_exists
  simp only [one_pow, inRange_iff]
  refine ⟨⟨hp, g, hg, ?_⟩, ?_⟩
  · rwa [one_smul, ← secpPoint_generator]
  · decide +kernel
theorem witness_SignReadsDigestModuloN : (0 : Reg) ≠ 1 ∧ (BitVec.ofNat 256 secpN).toNat % secpN = (toSign 0).x[1].toNat % secpN ∧
    (toSign 0).status.busy = true ∧
    ∃ t, signWith (fixed 1) 2 3 0 1 (toSign 0) = .next t ∧ t.status.busy = false ∧ t.status.code = .ok :=
  ⟨by decide, by decide +kernel, rfl, sign_completes⟩
theorem witness_SignatureIsLow : (toSign 0).status.busy = true ∧
    ∃ t, signWith (fixed 1) 2 3 0 1 (toSign 0) = .next t ∧ t.status.busy = false ∧ t.status.code = .ok :=
  ⟨rfl, sign_completes⟩
/-- SIGN, then PUBKEY of the same secret into `p4`, then the digest in `x5` beside the signature. -/
theorem witness_EcdsaRoundTrip : ∃ t u v v' : State,
    (toSign 0).status.busy = true ∧ signWith (fixed 1) 2 3 0 1 (toSign 0) = .next t ∧ t.status.busy = false ∧
    t.status.code = .ok ∧ u.x[0] = (toSign 0).x[0] ∧ exec (.pubkey 4 0) u = .next v ∧ v'.p[4] = v.p[4] ∧
    v'.x[5] = (toSign 0).x[1] ∧ v'.x[2] = t.x[2] ∧ v'.x[3] = t.x[3] := by
  obtain ⟨t, ht, hb, hc⟩ := sign_completes
  obtain ⟨v, hv, -⟩ := exec_effect (.pubkey 4 0) (toSign 0)
  exact ⟨t, toSign 0, v, ((v.setX 5 (toSign 0).x[1]).setX 2 t.x[2]).setX 3 t.x[3], rfl, ht, hb, hc, rfl, hv, rfl,
    by simp [State.setX], by simp [State.setX], by simp [State.setX]⟩

/-- A register that holds the identity of secp256k1. -/
def atZero : State := State.reset.setP 0 (Pt.identity (secpFe 0) (secpFe 7))

/-- Each check of VERIFY failing first, at the ends of the scalars' range, and a key with a legal signature. -/
theorem witness_VerifyResult :
    (∃ (_ : Fact secpP.Prime) (g : SecpGroup), IsGenerator g ∧ (signed 0 1 (secpN - 1)).p[0].pt.Represents g) ∧
    (rich.p[1].valid = true ∧ ¬ onSecp rich.p[1].pt) ∧
    (atZero.p[0].valid = true ∧ onSecp atZero.p[0].pt ∧ atZero.p[0].pt.inf = true) ∧
    ((signed 0 0 secpN).p[0].valid = true ∧ onSecp (signed 0 0 secpN).p[0].pt ∧ (signed 0 0 secpN).p[0].pt.inf = false ∧
      ¬ inRange (signed 0 0 secpN).x[2].toNat ∧ ¬ inRange (signed 0 0 secpN).x[3].toNat) ∧
    ((signed 0 1 (secpN - 1)).p[0].valid = true ∧ (signed 0 1 (secpN - 1)).p[0].pt.inf = false ∧
      inRange (signed 0 1 (secpN - 1)).x[2].toNat ∧ inRange (signed 0 1 (secpN - 1)).x[3].toNat) := by
  obtain ⟨hp, g, hg⟩ := generator_exists
  simp only [onSecp_iff, inRange_iff]
  have hq : (signed 0 1 (secpN - 1)).p[0].pt = secpG := by decide +kernel
  refine ⟨⟨hp, g, hg, by rwa [hq, ← secpPoint_generator]⟩, ?_⟩
  decide +kernel
theorem witness_SecencResult :
    (rich.p[1].valid = true ∧ ¬ onSecp rich.p[1].pt ∧ rich.buf.wf) ∧
    (atZero.p[0].valid = true ∧ onSecp atZero.p[0].pt ∧ atZero.p[0].pt.inf = true ∧ atZero.buf.wf) ∧
    (rich.p[0].valid = true ∧ onSecp rich.p[0].pt ∧ rich.p[0].pt.inf = false) := by
  simp only [onSecp_iff]
  exact ⟨⟨by decide +kernel, by decide +kernel, rich_wf⟩, by decide +kernel, by decide +kernel⟩

/-- The two coordinates' string after a prefix byte. -/
def pair (c : Byte) (x y : Nat) : State := string (c :: (be32 x ++ be32 y))
/-- One coordinate's string after a prefix byte. -/
def single (c : Byte) (x : Nat) : State := string (c :: be32 x)

/-- Every length and prefix error, then each outcome of the two forms. -/
theorem witness_SecdecResult :
    ((string []).len.toNat = 0 ∧ 128 < ({ idle with len := 129 } : State).len.toNat ∧
      ((single 0x04 1).buf.read 0 = 0x04 ∧ (single 0x04 1).len.toNat ≠ 65) ∧
      ((pair 0x02 1 1).buf.read 0 = 0x02 ∧ (pair 0x02 1 1).len.toNat ≠ 33) ∧ (single 0x05 1).buf.read 0 = 0x05) ∧
    ((pair 0x04 secpP 0).buf.read 0 = 0x04 ∧ (pair 0x04 secpP 0).len.toNat = 65 ∧ secpP ≤ number (pair 0x04 secpP 0).buf 1 32 ∧
      secpP ≤ number (pair 0x04 0 secpP).buf 33 32) ∧
    (number (pair 0x04 1 (secpP - 1)).buf 1 32 < secpP ∧ number (pair 0x04 1 (secpP - 1)).buf 33 32 < secpP ∧
      ¬ secpEquation (number (pair 0x04 1 (secpP - 1)).buf 1 32) (number (pair 0x04 1 (secpP - 1)).buf 33 32)) ∧
    (number (pair 0x04 secpGx secpGy).buf 1 32 = secpGx ∧ number (pair 0x04 secpGx secpGy).buf 33 32 = secpGy ∧
      secpGx < secpP ∧ secpGy < secpP ∧ secpEquation secpGx secpGy) ∧
    ((single 0x03 secpP).buf.read 0 = 0x03 ∧ (single 0x03 secpP).len.toNat = 33 ∧ secpP ≤ number (single 0x03 secpP).buf 1 32) ∧
    ((single 0x02 0).buf.read 0 = 0x02 ∧ (single 0x02 0).len.toNat = 33 ∧ number (single 0x02 0).buf 1 32 = 0 ∧
      ∀ y, ¬ secpEquation 0 y) ∧
    number (single 0x02 secpGx).buf 1 32 = secpGx := by
  refine ⟨by decide +kernel, by decide +kernel, ⟨by decide +kernel, by decide +kernel, ?_⟩,
    ⟨by decide +kernel, by decide +kernel, by decide +kernel, by decide +kernel, generator_equation⟩, by decide +kernel,
    ⟨by decide +kernel, by decide +kernel, by decide +kernel, no_root_zero⟩, by decide +kernel⟩
  unfold secpEquation
  decide +kernel
theorem witness_DerencResult : (twoX 1 (secpN - 1)).buf.wf ∧
    (¬ inRange (twoX 0 secpN).x[1].toNat ∧ ¬ inRange (twoX 0 secpN).x[2].toNat) ∧
    (inRange (twoX 1 (secpN - 1)).x[1].toNat ∧ inRange (twoX 1 (secpN - 1)).x[2].toNat) := by
  simp only [inRange_iff]
  decide +kernel
/-- The smallest frame; a length above 128; and a first byte that is no frame's. -/
theorem witness_DerdecResult : (4 : Reg) ≠ 5 ∧
    (([0x30, 0x06, 0x02, 0x01, 0x01, 0x02, 0x01, 0x01] : List Byte).length = rich.len.toNat ∧
      holds rich.buf 0 [0x30, 0x06, 0x02, 0x01, 0x01, 0x02, 0x01, 0x01] ∧
      derFrame [0x30, 0x06, 0x02, 0x01, 0x01, 0x02, 0x01, 0x01] [0x01] [0x01] ∧ bigEndian [0x01] < 2 ^ 256) ∧
    128 < ({ idle with len := 129 } : State).len.toNat ∧
    (∀ t R W : List Byte, holds (string [0x31, 0x06]).buf 0 t → ¬ derFrame t R W) := by
  refine ⟨by decide, ⟨by decide +kernel, ?_, ?_, by decide +kernel⟩, by decide +kernel, fun t R W h hf => ?_⟩
  · unfold holds
    decide +kernel
  · exact ⟨by simp, by simp, by decide, by decide⟩
  · obtain ⟨-, -, -, rfl⟩ := hf
    have h0 := h 0 (by simp)
    exact absurd (h0.symm.trans (show (string [0x31, 0x06]).buf.read (0 + 0) = 0x31 by decide +kernel)) (by simp)
theorem witness_SerializationRoundTrips :
    (rich.p[0].valid = true ∧ rich.p[0].pt.wf ∧ rich.p[0].pt.onCurve ∧ onSecp rich.p[0].pt ∧ rich.p[0].pt.inf = false ∧
      rich.buf.wf ∧ (∃ t, exec (.secenc 0 true) rich = .next t) ∧ ∃ t, exec (.secenc 0 false) rich = .next t) ∧
    (inRange (twoX 1 (secpN - 1)).x[1].toNat ∧ inRange (twoX 1 (secpN - 1)).x[2].toNat ∧ (4 : Reg) ≠ 5 ∧
      (twoX 1 (secpN - 1)).buf.wf ∧ ∃ t, exec (.derenc 1 2) (twoX 1 (secpN - 1)) = .next t) := by
  simp only [onSecp_iff, inRange_iff]
  obtain ⟨t, ht, -⟩ := exec_effect (.secenc 0 true) rich
  obtain ⟨u, hu, -⟩ := exec_effect (.secenc 0 false) rich
  obtain ⟨v, hv, -⟩ := exec_effect (.derenc 1 2) (twoX 1 (secpN - 1))
  rw [rich_generator]
  exact ⟨⟨by decide +kernel, secpG_wf, secpG_onCurve, by decide +kernel, by decide +kernel, rich_wf, ⟨t, ht⟩, u, hu⟩,
    by decide +kernel, by decide +kernel, by decide, by decide +kernel, v, hv⟩

end Sys2Proof.Tests
end

section
/-! PROOF. What one event can do, said once, and the two invariants of a step (10_state.md R23, R26, R43). -/

namespace Sys2Proof.Machine

/-- What `exec` answers is one of the effects of its command. -/
theorem effect_of_exec {i : Instr} {s t : State} (h : exec i s = .next t) : Claims.Effect i s t := by
  obtain ⟨u, hu, he⟩ := Claims.exec_effect i s
  rw [h] at hu
  cases hu
  exact he

/-- What the engine's turn can do: hold, refuse the latched word, or run the well-formed command it names (R84, R101). -/
theorem engineTurn_cases {s t : State} (h : engineTurn s = .next t) :
    t = s ∨ t = s.finish .illegalCommand ∨
      (s.status.busy = true ∧ ∃ i : Instr, i.wellFormed = true ∧ Claims.Effect i s t) := by
  unfold engineTurn at h
  split at h
  · next hbusy =>
    split at h
    · next i hi => exact .inr (.inr ⟨hbusy, i, (decode_ok hi).2, effect_of_exec h⟩)
    · cases h
      exact .inr (.inl rfl)
  · cases h
    exact .inl rfl

/-- What an event can do: note a word read, make a bus write, reset, add a draw, or take the engine's turn (R63, R271). -/
theorem applyEvent_cases {ev : Event} {s t : State} (h : applyEvent ev s = .next t) :
    (∃ r, t = { s with lastRead := r }) ∨ (∃ v l, t = s.busWrite v l) ∨ t = s.resetBlock ∨
      (∃ draws, t = { s with entropy := draws }) ∨ engineTurn s = .next t := by
  cases ev with
  | read width off =>
    simp only [applyEvent] at h
    split at h <;> cases h
    exact .inl ⟨_, rfl⟩
  | write width off v =>
    simp only [applyEvent] at h
    split at h <;> cases h
    exact .inr (.inl ⟨v, _, rfl⟩)
  | hardReset =>
    cases h
    exact .inr (.inr (.inl rfl))
  | entropy draw =>
    cases h
    exact .inr (.inr (.inr (.inl ⟨_, rfl⟩)))
  | engine => exact .inr (.inr (.inr (.inr h)))

/-- A step is its event on the same state with a shorter agenda. -/
theorem step_cases {s t : State} (h : step s = .next t) :
    ∃ ev l, applyEvent ev { s with agenda := l } = .next t := by
  unfold step nextEvent at h
  split at h
  · exact ⟨.engine, s.agenda, h⟩
  · next ev rest _ => exact ⟨ev, rest, h⟩

/-- A reset state is good, whatever stays outside the block. -/
theorem State.resetBlock_inv (s : State) : s.resetBlock.Inv :=
  ⟨State.fieldsOk_empty rfl, (State.pointsOk_empty rfl).1, Memory.wf_nil, rfl, fun h => absurd rfl h⟩

theorem State.engineTurn_inv {s t : State} (hs : s.Inv) (h : engineTurn s = .next t) : t.Inv := by
  rcases engineTurn_cases h with rfl | rfl | ⟨hbusy, i, hi, he⟩
  · exact hs
  · exact State.finish_inv hs.fields hs.points hs.buffer rfl
  · exact inv_of_effect he hi hs hbusy

theorem State.applyEvent_inv {ev : Event} {s t : State} (hs : s.Inv) (h : applyEvent ev s = .next t) : t.Inv := by
  rcases applyEvent_cases h with ⟨r, rfl⟩ | ⟨v, l, rfl⟩ | rfl | ⟨draws, rfl⟩ | h
  · exact ⟨hs.fields, hs.points, hs.buffer, hs.code, hs.secrecy⟩
  · exact State.busWrite_inv hs v l
  · exact s.resetBlock_inv
  · exact ⟨hs.fields, hs.points, hs.buffer, hs.code, hs.secrecy⟩
  · exact State.engineTurn_inv hs h

theorem State.engineTurn_curvesOk {s t : State} (hs : s.Inv) (hc : s.curvesOk) (h : engineTurn s = .next t) :
    t.curvesOk := by
  rcases engineTurn_cases h with rfl | rfl | ⟨-, i, -, he⟩
  · exact hc
  · exact hc
  · exact curvesOk_of_effect he hs hc

theorem State.applyEvent_curvesOk {ev : Event} {s t : State} (hs : s.Inv) (hc : s.curvesOk)
    (h : applyEvent ev s = .next t) : t.curvesOk := by
  rcases applyEvent_cases h with ⟨r, rfl⟩ | ⟨v, l, rfl⟩ | rfl | ⟨draws, rfl⟩ | h
  · exact hc
  · exact State.busWrite_curvesOk hc v l
  · exact (State.pointsOk_empty rfl).2
  · exact hc
  · exact State.engineTurn_curvesOk hs hc h

end Sys2Proof.Machine

namespace Sys2Proof.Proofs

open Sys2Proof.Machine

/-- Settles O20: every event keeps the invariant, and the agenda has no part in it. -/
theorem stepKeepsInvariant : Obligations.StepKeepsInvariant := by
  intro s t hs h
  obtain ⟨ev, l, h⟩ := step_cases h
  exact State.applyEvent_inv (State.inv_agenda hs l) h

/-- Settles O21: every event keeps the points of prime moduli on their curves, and the agenda has no part in that. -/
theorem stepKeepsPointsOnCurve : Obligations.StepKeepsPointsOnCurve := by
  intro s t hs hc h
  obtain ⟨ev, l, h⟩ := step_cases h
  exact State.applyEvent_curvesOk (State.inv_agenda hs l) hc h

/-- Settles O19, by the laws of the reset state. -/
theorem invariantAtReset : Obligations.InvariantAtReset := ⟨State.reset_inv, State.reset_curvesOk⟩

end Sys2Proof.Proofs
end

section
/-! PROOF. The window as the statements say it: what a read returns, and what a CTRL, STATUS or CMD write leaves (10_state.md R32 to R38, 20_memory.md R53 to R57). -/

namespace Sys2Proof.Claims

open Sys2Proof.Machine

/-! ### One access -/

/-- A well-formed read returns the word of its location. -/
theorem reads_loc {s : State} {off : BitVec 12} {l : Loc} {v : W32} (h : off.toNat % 4 = 0) (hl : locOf off = l)
    (hv : s.busRead l = v) : reads s off v := by
  rw [reads, step_read s h, hl, hv]

/-- A well-formed write leaves what its location does with the word. -/
theorem writes_loc {s t : State} {off : BitVec 12} {l : Loc} {v : W32} (h : off.toNat % 4 = 0) (hl : locOf off = l)
    (ht : s.busWrite v l = t) : writes s off v t := by
  rw [writes, step_write s h, hl, ht]

/-- A write leaves one state. -/
theorem writes_unique {s t u : State} {off : BitVec 12} {v : W32} (ht : writes s off v t) (hu : writes s off v u) :
    t = u := by
  rw [writes, ht] at hu
  cases hu
  rfl

/-! ### The bits of the words read -/

/-- CTRL reads IE in bit 0, the rest 0 (R33). -/
theorem getLsbD_busRead_ctrl (s : State) {k : Nat} (hk : k < 32) :
    (s.busRead .ctrl).getLsbD k = (k == 0 && s.ie) := getLsbD_flagBit 0 k s.ie hk

/-- STATUS reads BUSY, DONE, ERR and IGN in bits 0 to 3 (R34). -/
theorem statusWord_flags (t : Status) : t.word.getLsbD 0 = t.busy ∧ t.word.getLsbD 1 = t.done ∧
    t.word.getLsbD 2 = t.err ∧ t.word.getLsbD 3 = t.ign := by
  refine ⟨?_, ?_, ?_, ?_⟩ <;> rw [getLsbD_statusWord _ _ (by decide)] <;> simp

/-- STATUS reads CODE in bits 8 to 15 (R34). -/
theorem statusWord_code (t : Status) {k : Nat} (hk : k < 8) :
    t.word.getLsbD (8 + k) = t.code.value.getLsbD k := by
  have h0 : 8 + k ≠ 0 ∧ 8 + k ≠ 1 ∧ 8 + k ≠ 2 ∧ 8 + k ≠ 3 := by omega
  rw [getLsbD_statusWord _ _ (by omega)]
  simp [h0]

/-- The other bits of STATUS read 0 (R34). -/
theorem statusWord_reserved (t : Status) {k : Nat} (hk : (4 ≤ k ∧ k < 8) ∨ 16 ≤ k) : t.word.getLsbD k = false := by
  by_cases h32 : k < 32
  · have h0 : k ≠ 0 ∧ k ≠ 1 ∧ k ≠ 2 ∧ k ≠ 3 := by omega
    have hcode : (decide (8 ≤ k) && t.code.value.getLsbD (k - 8)) = false := by
      rcases hk with hk | hk
      · rw [decide_eq_false (by omega), Bool.false_and]
      · rw [BitVec.getLsbD_of_ge _ _ (by omega), Bool.and_false]
    rw [getLsbD_statusWord _ _ h32, hcode]
    simp [h0]
  · exact BitVec.getLsbD_of_ge _ _ (by omega)

/-- FLAGS reads EQ, INF, VOK and NRT in bits 0 to 3 (R32). -/
theorem flagsWord_flags (g : Flags) : g.word.getLsbD 0 = g.eq ∧ g.word.getLsbD 1 = g.inf ∧
    g.word.getLsbD 2 = g.vok ∧ g.word.getLsbD 3 = g.nrt := by
  refine ⟨?_, ?_, ?_, ?_⟩ <;> rw [getLsbD_flagsWord _ _ (by decide)] <;> simp

/-- The other bits of FLAGS read 0 (R32). -/
theorem flagsWord_reserved (g : Flags) {k : Nat} (hk : 4 ≤ k) : g.word.getLsbD k = false := by
  by_cases h32 : k < 32
  · have h0 : k ≠ 0 ∧ k ≠ 1 ∧ k ≠ 2 ∧ k ≠ 3 := by omega
    rw [getLsbD_flagsWord _ _ h32]
    simp [h0]
  · exact BitVec.getLsbD_of_ge _ _ (by omega)

/-- FVALID and PVALID read register `i`'s valid bit in bit `i` (R36). -/
theorem validWord_bit (bit : Reg → Bool) (i : Reg) : (validWord bit).getLsbD i.val = bit i := by
  rw [getLsbD_validWord _ _ (by omega), dif_pos i.isLt]

/-- The upper half of FVALID and PVALID reads 0 (R36). -/
theorem validWord_reserved (bit : Reg → Bool) {k : Nat} (hk : 16 ≤ k) : (validWord bit).getLsbD k = false := by
  by_cases h32 : k < 32
  · rw [getLsbD_validWord _ _ h32, dif_neg (by omega)]
  · exact BitVec.getLsbD_of_ge _ _ (by omega)

/-- LEN reads as its value (R30). -/
theorem busRead_len (s : State) : s.busRead .len = BitVec.ofNat 32 s.len.toNat := by
  apply BitVec.eq_of_toNat_eq
  rw [State.busRead, BitVec.toNat_setWidth, BitVec.toNat_ofNat]

/-- A `BUF` word reads its four bytes, the lowest index in the lowest bits (R57). -/
theorem byteOf_busRead_bufWord (s : State) (k : Fin 32) {i : Nat} (hi : i < 4) :
    byteOf (s.busRead (.bufWord k)) i = s.buf.read (4 * k.val + i) := by
  obtain ⟨h0, h1, h2, h3⟩ := byteOf_packWord (s.buf.read (4 * k.val)) (s.buf.read (4 * k.val + 1))
    (s.buf.read (4 * k.val + 2)) (s.buf.read (4 * k.val + 3))
  obtain rfl | rfl | rfl | rfl : i = 0 ∨ i = 1 ∨ i = 2 ∨ i = 3 := by omega
  · exact h0
  · exact h1
  · exact h2
  · exact h3

/-! ### What a write leaves -/

theorem busWrite_cmd_idle {s : State} (h : s.status.busy = false) (w : W32) : s.busWrite w .cmd = s.accept w := by
  rw [State.busWrite, State.whenIdle, if_neg (by rw [h]; decide)]

theorem busWrite_cmd_busy {s : State} (h : s.status.busy = true) (w : W32) : s.busWrite w .cmd = s.ignored := by
  rw [State.busWrite, State.whenIdle, if_pos h]

theorem busWrite_ctrl_ie {v : W32} (h : v.getLsbD 1 = false) (s : State) :
    s.busWrite v .ctrl = { s with ie := v.getLsbD 0 } := by
  rw [State.busWrite, State.writeCtrl, if_neg (by rw [h]; decide)]

theorem busWrite_ctrl_reset {v : W32} (h : v.getLsbD 1 = true) (s : State) : s.busWrite v .ctrl = s.resetBlock := by
  rw [State.busWrite, State.writeCtrl, if_pos h]

/-- A STATUS write clears DONE and IGN where its bits 1 and 3 are set, and changes nothing else (R34). -/
theorem busWrite_status (s : State) (v : W32) :
    s.busWrite v .status = { s with status := { s.status with
      done := if v.getLsbD 1 then false else s.status.done
      ign := if v.getLsbD 3 then false else s.status.ign } } := by
  simp only [State.busWrite, State.writeStatus, State.acknowledge]
  cases v.getLsbD 1 <;> cases v.getLsbD 3 <;> simp

end Sys2Proof.Claims

namespace Sys2Proof.Proofs

open Sys2Proof.Machine Sys2Proof.Claims

/-- Settles O7: each offset is looked up in the window, and its word is read bit by bit. -/
theorem readsReturnTheWindow : Obligations.ReadsReturnTheWindow := by
  intro s
  obtain ⟨hbusy, hdone, herr, hign⟩ := statusWord_flags s.status
  obtain ⟨heq, hinf, hvok, hnrt⟩ := flagsWord_flags s.flags
  refine ⟨reads_loc rfl rfl rfl, reads_loc rfl rfl rfl,
    ⟨_, reads_loc rfl rfl rfl, fun k hk => getLsbD_busRead_ctrl s hk⟩,
    ⟨_, reads_loc rfl rfl rfl, hbusy, hdone, herr, hign, fun k hk => statusWord_code _ hk,
      fun k hk => statusWord_reserved _ hk⟩,
    reads_loc rfl rfl rfl,
    ⟨_, reads_loc rfl rfl rfl, heq, hinf, hvok, hnrt, fun k hk => flagsWord_reserved _ hk⟩,
    reads_loc rfl rfl rfl,
    ⟨_, reads_loc rfl rfl rfl, validWord_bit _, fun k hk => validWord_reserved _ hk⟩,
    ⟨_, reads_loc rfl rfl rfl, validWord_bit _, fun k hk => validWord_reserved _ hk⟩,
    reads_loc rfl rfl (busRead_len s), fun i j off h => ?_, fun k off h => ?_, fun off h4 h => ?_⟩
  · exact reads_loc (by omega) (locOf_x i j h) rfl
  · exact ⟨_, reads_loc (by omega) (locOf_buf k h) rfl, fun i hi => byteOf_busRead_bufWord s k hi⟩
  · exact reads_loc h4 (locOf_reserved h) rfl

/-- Settles O9, from the CMD write idle and busy, the CMD read and the reset state. -/
theorem cmdRegister : Obligations.CmdRegister :=
  ⟨fun _ w h => writes_loc rfl rfl (busWrite_cmd_idle h w), fun _ w h => writes_loc rfl rfl (busWrite_cmd_busy h w),
    fun _ => reads_loc rfl rfl rfl, rfl⟩

/-- Settles O11, from what a CTRL and a STATUS write leave. -/
theorem controlRegisterWrites : Obligations.ControlRegisterWrites := fun s v =>
  ⟨fun h => writes_loc rfl rfl (busWrite_ctrl_ie h s), fun h => writes_loc rfl rfl (busWrite_ctrl_reset h s),
    writes_loc rfl rfl (busWrite_status s v)⟩

/-- Settles O18: the reset state's fields, the reads of its window, and the constant ROM. -/
theorem resetStateValues : Obligations.ResetStateValues := by
  refine ⟨fun i => Vector.getElem_replicate i.isLt, fun i => Vector.getElem_replicate i.isLt,
    fun i => Vector.getElem_replicate i.isLt, fun j _ => rfl, rfl, ?_⟩
  exact ⟨reads_loc rfl rfl rfl, reads_loc rfl rfl rfl, reads_loc rfl rfl rfl, reads_loc rfl rfl rfl,
    reads_loc rfl rfl rfl, reads_loc rfl rfl rfl, reads_loc rfl rfl rfl, reads_loc rfl rfl rfl, reads_loc rfl rfl rfl,
    ⟨rfl, rfl, rfl, rfl, rfl, rfl, rfl⟩, rfl, rfl⟩

end Sys2Proof.Proofs
end

section
/-! PROOF. What a command does to the interrupt line, the nonce state and FLAGS, and how an empty source ends it (10_state.md R24, R27, R32, R42, R43). -/

namespace Sys2Proof.Claims

open Sys2Proof.Machine

/-! ### Completions -/

/-- A command's effect is a completion that leaves CTRL, or the command goes on and only its nonce state and the draws
have changed (R101, R311). -/
theorem effect_completes {i : Instr} {s t : State} (h : Effect i s t) :
    (∃ (u : State) (c : ResultCode), t = u.finish c ∧ u.ie = s.ie) ∨ t = { s with nonce := t.nonce, entropy := t.entropy } := by
  cases h with
  | drawing => exact .inr rfl
  | signing => exact .inr rfl
  | _ => exact .inl ⟨_, _, rfl, rfl⟩

/-- A command in execution before its turn and not after has completed (R101). -/
theorem exec_completes {i : Instr} {s t : State} (hbusy : s.status.busy = true) (h : exec i s = .next t)
    (hend : t.status.busy = false) : ∃ (u : State) (c : ResultCode), t = u.finish c ∧ u.ie = s.ie := by
  rcases effect_completes (effect_of_exec h) with hc | he
  · exact hc
  · rw [he, hbusy] at hend
    cases hend

/-! ### The nonce state (R43, R204) -/

/-- A bus write carries the nonce state along or drops it, and does nothing else with it. -/
theorem busWrite_forgets_nonce (s : State) (n : Option NonceState) (v : W32) (l : Loc) :
    ({ ({ s with nonce := n } : State).busWrite v l with nonce := none } : State) =
      { s.busWrite v l with nonce := none } := by
  have hidle : ∀ t u : State, ({ t with nonce := none } : State) = { u with nonce := none } →
      ({ ({ s with nonce := n } : State).whenIdle t with nonce := none } : State) =
        { s.whenIdle u with nonce := none } := fun t u htu => by
    cases hb : s.status.busy
    · rw [State.whenIdle, State.whenIdle, if_neg (by simp [hb]), if_neg (by simp [hb]), htu]
    · rw [State.whenIdle, State.whenIdle, if_pos hb, if_pos hb]
      rfl
  cases l with
  | ctrl =>
    simp only [State.busWrite, State.writeCtrl]
    split <;> rfl
  | status =>
    simp only [State.busWrite, State.writeStatus]
    split <;> rfl
  | cmd => exact hidle _ _ rfl
  | len => exact hidle _ _ rfl
  | xWord i j => exact hidle _ _ rfl
  | bufWord k => exact hidle _ _ rfl
  | _ => rfl

/-- No event but the engine's turn lets the nonce state reach anything else. -/
theorem applyEvent_forgets_nonce {ev : Event} (hev : ev ≠ .engine) (s : State) (n : Option NonceState) :
    forgetNonce (applyEvent ev { s with nonce := n }) = forgetNonce (applyEvent ev s) := by
  cases ev with
  | read width off =>
    have hread : ({ s with nonce := n } : State).busRead (locOf off) = s.busRead (locOf off) := by
      cases locOf off <;> rfl
    simp only [applyEvent, hread]
    split <;> rfl
  | write width off v =>
    simp only [applyEvent]
    split
    · exact congrArg Host.Outcome.next (busWrite_forgets_nonce s n v (locOf off))
    · rfl
  | hardReset => rfl
  | entropy draw => rfl
  | engine => exact absurd rfl hev

/-! ### FLAGS (R32) -/

/-- The commands that write a P register write INF. -/
theorem writesInf_of_pDests {i : Instr} {d : Reg} (h : pDests i = [d]) : writesInf i = true := by
  unfold writesInf
  split
  · rfl
  · rw [h]
    rfl

/-- What a command but ZEROIZE can do to FLAGS: leave them, or write the one flag that is its own, which raises no
error but VERIFY's. -/
theorem effect_flags {i : Instr} {s t : State} (h : Effect i s t) (hi : i ≠ .zeroize) :
    t.flags = s.flags ∨
    (∃ v, writesEq i = true ∧ t.flags = { s.flags with eq := v } ∧ t.status.err = false) ∨
    (∃ v, writesInf i = true ∧ t.flags = { s.flags with inf := v } ∧ t.status.err = false) ∨
    (∃ a b c e v, i = .verify a b c e ∧ t.flags = { s.flags with vok := v }) ∨
    (∃ d e a b v, i = .sign d e a b ∧ t.flags = { s.flags with nrt := v } ∧ t.status.err = false) := by
  cases h with
  | wiped hz => exact absurd hz hi
  | compared v hw => exact .inr (.inl ⟨v, hw, rfl, rfl⟩)
  | tested a v hp => exact .inr (.inr (.inl ⟨v, hp ▸ rfl, rfl, rfl⟩))
  | wroteP d q hd => exact .inr (.inr (.inl ⟨q.inf, writesInf_of_pDests hd, rfl, rfl⟩))
  | generated d e rest v q hk => exact .inr (.inr (.inl ⟨q.inf, hk ▸ rfl, rfl, rfl⟩))
  | verified a b c e code v hv => exact .inr (.inr (.inr (.inl ⟨a, b, c, e, v, hv, rfl⟩)))
  | signed d e a b v w nrt hs => exact .inr (.inr (.inr (.inr ⟨d, e, a, b, nrt, hs, rfl, rfl⟩)))
  | _ => exact .inl rfl

/-! ### Empty sources (R24, R27) -/

/-- A rule that reads an F register first: an empty one ends it, and so does whatever makes the rest end so. -/
theorem conclude_readF_empty {s : State} {a : Reg} {k : Fe → Except ResultCode State}
    (h : s.f[a.val].valid = false ∨ ∀ x, conclude s (k x) = .next (s.finish .emptyOperand)) :
    conclude s (s.readF a >>= k) = .next (s.finish .emptyOperand) := by
  rcases conclude_readF s a k with ⟨hv, e⟩ | ⟨-, e⟩
  · rw [e]
    exact h.resolve_left (by simp [hv]) _
  · exact e

/-- A rule that reads a P register first: an empty one ends it, and so does whatever makes the rest end so. -/
theorem conclude_readP_empty {s : State} {a : Reg} {k : Pt → Except ResultCode State}
    (h : s.p[a.val].valid = false ∨ ∀ q, conclude s (k q) = .next (s.finish .emptyOperand)) :
    conclude s (s.readP a >>= k) = .next (s.finish .emptyOperand) := by
  rcases conclude_readP s a k with ⟨hv, e⟩ | ⟨-, e⟩
  · rw [e]
    exact h.resolve_left (by simp [hv]) _
  · exact e

theorem conclude_readF_readF_empty {s : State} {a b : Reg} {k : Fe → Fe → Except ResultCode State}
    (h : s.f[a.val].valid = false ∨ s.f[b.val].valid = false) :
    conclude s (s.readF a >>= fun x => s.readF b >>= k x) = .next (s.finish .emptyOperand) :=
  conclude_readF_empty (h.imp_right fun hb _ => conclude_readF_empty (.inl hb))

theorem conclude_readP_readP_empty {s : State} {a b : Reg} {k : Pt → Pt → Except ResultCode State}
    (h : s.p[a.val].valid = false ∨ s.p[b.val].valid = false) :
    conclude s (s.readP a >>= fun q => s.readP b >>= k q) = .next (s.finish .emptyOperand) :=
  conclude_readP_empty (h.imp_right fun hb _ => conclude_readP_empty (.inl hb))

/-- PSET's four sources. -/
theorem execPset_empty {d a b c e : Reg} {s : State} (h : s.f[a.val].valid = false ∨ s.f[b.val].valid = false ∨
    s.f[c.val].valid = false ∨ s.f[e.val].valid = false) :
    execPset d a b c e s = .next (s.finish .emptyOperand) :=
  conclude_readF_empty (h.imp_right fun h _ => conclude_readF_empty (h.imp_right fun h _ =>
    conclude_readF_readF_empty h))

/-- VERIFY writes VOK in every outcome (R213). -/
theorem execVerify_empty {a b c e : Reg} {s : State} (h : s.p[a.val].valid = false) :
    execVerify a b c e s = .next ((s.setVok false).finish .emptyOperand) := by
  rw [execVerify, State.readP_empty h]
  rfl

end Sys2Proof.Claims

namespace Sys2Proof.Proofs

open Sys2Proof.Machine Sys2Proof.Claims

/-- Settles O12: a completion sets DONE and leaves IE; the writes and the reset named leave DONE or IE at 0. -/
theorem interruptLine : Obligations.InterruptLine := by
  refine ⟨fun s => ?_, fun s t i hbusy h hend => ?_, fun s t v hv h => ?_, fun s t w hidle h => ?_, rfl⟩
  · rw [State.irq, Bool.and_eq_true]
  · obtain ⟨u, c, rfl, hie⟩ := exec_completes hbusy h hend
    rw [State.irq, State.finish_ie, State.finish_status, Bool.and_true, hie]
  · rw [writes_unique h (writes_loc rfl rfl (busWrite_status s v)), State.irq, if_pos hv, Bool.and_false]
  · rw [writes_unique h (writes_loc rfl rfl (busWrite_cmd_idle hidle w)), State.irq, State.accept_status, Bool.and_false]

/-- Settles O16: reads and `irq` do not look at the nonce state, the other events carry it or drop it, and a completion
and a reset drop it. -/
theorem nonceNeverObservable : Obligations.NonceNeverObservable := by
  refine ⟨fun s n l => ⟨?_, rfl⟩, fun s n ev hev => applyEvent_forgets_nonce hev s n,
    fun s t i hbusy h hend => ?_, fun s t h => ?_⟩
  · cases l <;> rfl
  · obtain ⟨u, c, rfl, -⟩ := exec_completes hbusy h hend
    rfl
  · cases h
    rfl

/-- Settles O25, by cases on what a command can do to FLAGS. -/
theorem flagFrame : Obligations.FlagFrame := by
  intro i s t hi h
  rcases effect_flags (effect_of_exec h) hi with hf | ⟨v, hw, hf, he⟩ | ⟨v, hw, hf, he⟩ | ⟨a, b, c, e, v, rfl, hf⟩ |
    ⟨d, e, a, b, v, rfl, hf, he⟩
  · simp [hf]
  · simp [hf, hw, he]
  · simp [hf, hw, he]
  · simp [hf]
  · simp [hf, he]

/-- Settles O27, command by command: each reads its sources before anything else. -/
theorem emptyOperandRaised : Obligations.EmptyOperandRaised := by
  intro i s h
  rw [completed_eq]
  cases i with
  | fget _ a | fmod _ a | finv _ a | fpow _ a _ _ | fmov _ a =>
    exact conclude_readF_empty (.inl (by simpa [fSources, pSources] using h))
  | fadd _ a b | fsub _ a b | fmul _ a b | fdiv _ a b | feq a b | pinf _ a b =>
    exact conclude_readF_readF_empty (by simpa [fSources, pSources] using h)
  | pset d a b c e => exact execPset_empty (by simpa [fSources, pSources] using h)
  | pgetx _ a | pgety _ a | pdbl _ a | pneg _ a | pmul _ a _ | pmov _ a | ptst a | smul _ a _ | secenc a _ =>
    exact conclude_readP_empty (.inl (by simpa [fSources, pSources] using h))
  | padd _ a b | peq a b => exact conclude_readP_readP_empty (by simpa [fSources, pSources] using h)
  | verify a b c e => exact execVerify_empty (by simpa [fSources, pSources] using h)
  | _ => simp [fSources, pSources] at h

end Sys2Proof.Proofs
end

section
/-! PROOF. What a write to each location of the window leaves, idle and busy, and a 256-bit value stored word by word (20_memory.md R52 to R58, R64). -/

namespace Sys2Proof.Claims

open Sys2Proof.Machine

/-! ### Which locations a host write can reach (R53, R54, R64) -/

/-- The locations whose writes are ignored while the engine is busy (R64). -/
def idleOnly : Loc → Bool
  | .cmd | .len | .xWord _ _ | .bufWord _ => true
  | _ => false

/-- The locations that ignore every write (R53, R54). -/
def readOnly : Loc → Bool
  | .id | .version | .flags | .cmdcnt | .fvalid | .pvalid | .reserved => true
  | _ => false

/-- CMD, LEN, the X words and `BUF` by their offsets (R53). -/
theorem idleOnly_locOf {off : BitVec 12}
    (h : off.toNat = 0x010 ∨ off.toNat = 0x024 ∨ (0x100 ≤ off.toNat ∧ off.toNat < 0x380)) :
    idleOnly (locOf off) = true := by
  rcases h with h | h | ⟨hlo, hhi⟩
  · rw [locOf_control (by omega), h]
    rfl
  · rw [locOf_control (by omega), h]
    rfl
  · unfold locOf
    by_cases hx : off.toNat < 0x300
    · rw [if_pos ⟨hlo, hx⟩]
      rfl
    · rw [if_neg (by omega), if_pos (by omega)]
      rfl

/-- ID, VERSION, the registers from FLAGS to PVALID and the reserved words by their offsets (R53, R54). -/
theorem readOnly_locOf {off : BitVec 12} (h4 : off.toNat % 4 = 0)
    (h : off.toNat = 0x000 ∨ off.toNat = 0x004 ∨ (0x014 ≤ off.toNat ∧ off.toNat < 0x024) ∨
      (0x028 ≤ off.toNat ∧ off.toNat < 0x100) ∨ 0x380 ≤ off.toNat) :
    readOnly (locOf off) = true := by
  by_cases hr : (0x028 ≤ off.toNat ∧ off.toNat < 0x100) ∨ 0x380 ≤ off.toNat
  · rw [locOf_reserved hr]
    rfl
  · obtain e | e | e | e | e | e : off.toNat = 0x000 ∨ off.toNat = 0x004 ∨ off.toNat = 0x014 ∨ off.toNat = 0x018 ∨
        off.toNat = 0x01C ∨ off.toNat = 0x020 := by omega
    all_goals
      rw [locOf_control (by omega), e]
      rfl

/-- CTRL stands at one offset (R53). -/
theorem toNat_of_locOf_ctrl {off : BitVec 12} (h : locOf off = .ctrl) : off.toNat = 0x008 := by
  simp only [locOf] at h
  split_ifs at h
  split at h
  · cases h
  · cases h
  · assumption
  all_goals cases h

/-! ### What a write leaves, location by location -/

theorem whenIdle_of_idle {s : State} (h : s.status.busy = false) (t : State) : s.whenIdle t = t :=
  if_neg (by simp [h])

theorem whenIdle_of_busy {s : State} (h : s.status.busy = true) (t : State) : s.whenIdle t = s.ignored := if_pos h

theorem busWrite_readOnly {l : Loc} (h : readOnly l = true) (s : State) (v : W32) : s.busWrite v l = s := by
  cases l with
  | id | version | flags | cmdcnt | fvalid | pvalid | reserved => rfl
  | ctrl | status | cmd | len | xWord | bufWord => cases h

/-- While busy, a write the engine does not let through sets IGN (R64). -/
theorem busWrite_busy {l : Loc} (h : idleOnly l = true) {s : State} (hbusy : s.status.busy = true) (v : W32) :
    s.busWrite v l = s.ignored := by
  cases l with
  | cmd | len | xWord | bufWord => exact whenIdle_of_busy hbusy _
  | id | version | flags | cmdcnt | fvalid | pvalid | reserved | ctrl | status => cases h

/-- While busy, a write but a soft reset can change IE, DONE and IGN (R33, R34, R64). -/
theorem busWrite_busy_frame {l : Loc} {s : State} (hbusy : s.status.busy = true) {v : W32}
    (hreset : ¬ (l = .ctrl ∧ v.getLsbD 1 = true)) :
    ∃ ie done ign, s.busWrite v l = { s with ie := ie, status := { s.status with done := done, ign := ign } } := by
  cases l with
  | ctrl => exact ⟨_, _, _, busWrite_ctrl_ie (by simpa using hreset) s⟩
  | status => exact ⟨_, _, _, busWrite_status s v⟩
  | cmd | len | xWord | bufWord => exact ⟨_, _, _, busWrite_busy rfl hbusy v⟩
  | id | version | flags | cmdcnt | fvalid | pvalid | reserved => exact ⟨_, _, _, busWrite_readOnly rfl s v⟩

/-- While idle, an X word write replaces that word of its register (R55). -/
theorem busWrite_xWord_idle {s : State} (h : s.status.busy = false) (v : W32) (i : Reg) (j : Fin 8) :
    s.busWrite v (.xWord i j) = withX s i (setWord (s.readX i) j v) := whenIdle_of_idle h _

/-- While idle, a `BUF` word write replaces its four bytes (R57). -/
theorem busWrite_bufWord_idle {s : State} (h : s.status.busy = false) (v : W32) (k : Fin 32) :
    s.busWrite v (.bufWord k) = { s with buf := s.buf.writeBytes (4 * k.val) (bytesOf v) } := whenIdle_of_idle h _

/-- While idle, a LEN write keeps the low byte (R58). -/
theorem busWrite_len_idle {s : State} (h : s.status.busy = false) (v : W32) :
    s.busWrite v .len = { s with len := v.extractLsb' 0 8 } := by
  rw [← BitVec.setWidth_eq_extractLsb' (by decide)]
  exact whenIdle_of_idle h _

/-! ### The four bytes of a `BUF` word (R57) -/

theorem length_bytesOf (v : W32) : (bytesOf v).length = 4 := rfl

theorem getElem_bytesOf (v : W32) {i : Nat} (hi : i < (bytesOf v).length) : (bytesOf v)[i] = byteOf v i := by
  rw [length_bytesOf] at hi
  obtain rfl | rfl | rfl | rfl : i = 0 ∨ i = 1 ∨ i = 2 ∨ i = 3 := by omega
  all_goals rfl

/-- A `BUF` word lies within the buffer. -/
theorem bufWord_fits (k : Fin 32) (v : W32) : 4 * k.val + (bytesOf v).length ≤ Memory.size := by
  rw [length_bytesOf, Memory.size]
  omega

/-- The bytes written read back. -/
theorem read_writeBytes_bytesOf {b : Memory} (hw : b.wf) (k : Fin 32) (v : W32) {i : Nat} (hi : i < 4) :
    (b.writeBytes (4 * k.val) (bytesOf v)).read (4 * k.val + i) = byteOf v i := by
  have hlen := length_bytesOf v
  rw [Memory.read_writeBytes hw _ _ _ (bufWord_fits k v), dif_pos (by omega), getElem_bytesOf, Nat.add_sub_cancel_left]

/-- The other bytes read as before. -/
theorem read_writeBytes_bytesOf_ne {b : Memory} (hw : b.wf) (k : Fin 32) (v : W32) {i : Nat}
    (hi : i < 4 * k.val ∨ 4 * k.val + 4 ≤ i) :
    (b.writeBytes (4 * k.val) (bytesOf v)).read i = b.read i := by
  have hlen := length_bytesOf v
  rw [Memory.read_writeBytes hw _ _ _ (bufWord_fits k v), dif_neg (by omega)]

/-! ### A 256-bit value stored word by word (R56) -/

/-- `u` with the words of `V` named in the list put in place, in the order of the list. -/
def storeWords (V u : W256) (order : List (Fin 8)) : W256 := order.foldl (fun u j => setWord u j (wordOf V j)) u

/-- A word is `V`'s once it is stored, and stays so; a word never stored is `u`'s. -/
theorem wordOf_storeWords (V u : W256) (order : List (Fin 8)) (k : Fin 8) :
    wordOf (storeWords V u order) k = if k ∈ order then wordOf V k else wordOf u k := by
  induction order generalizing u with
  | nil => rfl
  | cons j rest ih =>
    rw [storeWords, List.foldl_cons, ← storeWords, ih]
    by_cases hjk : j = k
    · subst hjk
      simp [wordOf_setWord]
    · simp [wordOf_setWord_ne _ hjk, Ne.symm hjk]

/-- Once every word has been stored the value is `V`. -/
theorem storeWords_of_all {order : List (Fin 8)} (h : ∀ j, j ∈ order) (V u : W256) : storeWords V u order = V :=
  eq_of_wordOf fun j => by rw [wordOf_storeWords, if_pos (h j)]

theorem withX_readX (s : State) (i : Reg) : withX s i (s.readX i) = s := by
  simp [withX, State.readX]

theorem readX_withX (s : State) (i : Reg) (v : W256) : (withX s i v).readX i = v := by
  rw [withX_eq, State.readX_setX, if_pos rfl]

theorem withX_withX (s : State) (i : Reg) (u v : W256) : withX (withX s i u) i v = withX s i v := by
  simp [withX]

/-- The host's writes of the words of `V` named in the list, one event each. -/
def wordWrites (V : W256) (offs : Fin 8 → BitVec 12) (order : List (Fin 8)) : List Event :=
  order.map fun j => .write .w4 (offs j) (wordOf V j)

theorem steps_succ {s t : State} (h : step s = .next t) (k : Nat) : steps (k + 1) s = steps k t := by
  rw [steps, h]

/-- While idle, the write of an X word is one step, whatever is still to come (R55, R63). -/
theorem step_xWord_idle {s : State} (hidle : s.status.busy = false) {i : Reg} {j : Fin 8} {off : BitVec 12}
    (hoff : off.toNat = 0x100 + 32 * i.val + 4 * j.val) (w : W32) (l : List Event) :
    step { s with agenda := .write .w4 off w :: l } =
      .next { withX s i (setWord (s.readX i) j w) with agenda := l } :=
  writes_loc (s := { s with agenda := l }) (by omega) (locOf_x i j hoff)
    (busWrite_xWord_idle (s := { s with agenda := l }) hidle w i j)

/-- While idle, the word writes of a list run one after the other and store its words (R55, R63). -/
theorem steps_wordWrites (V : W256) {i : Reg} {offs : Fin 8 → BitVec 12}
    (hoffs : ∀ j, (offs j).toNat = 0x100 + 32 * i.val + 4 * j.val) (order : List (Fin 8)) (s : State)
    (hidle : s.status.busy = false) :
    steps order.length { s with agenda := wordWrites V offs order ++ s.agenda } =
      .next (withX s i (storeWords V (s.readX i) order)) := by
  induction order generalizing s with
  | nil => exact congrArg Host.Outcome.next (withX_readX s i).symm
  | cons j rest ih =>
    have hstep := step_xWord_idle hidle (hoffs j) (wordOf V j) (wordWrites V offs rest ++ s.agenda)
    have hrest := ih (withX s i (setWord (s.readX i) j (wordOf V j))) hidle
    rw [withX_withX, readX_withX] at hrest
    exact (steps_succ hstep rest.length).trans hrest

/-- The `k` low base-`b` digits of a number, summed in place, are its remainder by `b ^ k`. -/
theorem mod_pow_eq_sum (n b k : Nat) : n % b ^ k = ∑ j ∈ Finset.range k, n / b ^ j % b * b ^ j := by
  induction k with
  | zero => simp [Nat.mod_one]
  | succ k ih => rw [Finset.sum_range_succ, ← ih, Nat.mod_pow_succ, Nat.mul_comm (b ^ k)]

theorem toNat_wordOf (V : W256) (j : Fin 8) : (wordOf V j).toNat = V.toNat / (2 ^ 32) ^ j.val % 2 ^ 32 := by
  rw [wordOf, BitVec.extractLsb'_toNat, Nat.shiftRight_eq_div_pow, pow_mul]

/-- A 256-bit value is the sum of its words in place (R56). -/
theorem toNat_eq_sum_wordOf (V : W256) :
    V.toNat = ((List.finRange 8).map fun j => (wordOf V j).toNat * 2 ^ (32 * j.val)).sum := by
  have hV : V.toNat < (2 ^ 32) ^ 8 := V.isLt
  rw [← Fin.sum_univ_def]
  simp only [toNat_wordOf, pow_mul]
  rw [Fin.sum_univ_eq_sum_range (fun j => V.toNat / (2 ^ 32) ^ j % 2 ^ 32 * (2 ^ 32) ^ j), ← mod_pow_eq_sum,
    Nat.mod_eq_of_lt hV]

end Sys2Proof.Claims

namespace Sys2Proof.Proofs

open Sys2Proof.Machine Sys2Proof.Claims

/-- Settles O14: a malformed access faults, and a well-formed read or write answers a next state. -/
theorem malformedAccessFaults : Obligations.MalformedAccessFaults := by
  refine fun s width off v => ⟨fun h => step_malformed s h v, ?_⟩
  rintro ⟨rfl, h4⟩
  exact ⟨⟨_, step_read s h4⟩, ⟨_, step_write s h4 v⟩⟩

/-- Settles O8: each offset is looked up in the window, and its location keeps the slice or ignores the write. -/
theorem idleWritesStore : Obligations.IdleWritesStore := by
  refine ⟨fun s v hidle => ⟨fun i j off h => ?_, fun hw k off h => ?_, ?_⟩, fun s v off h4 h => ?_⟩
  · exact ⟨_, writes_loc (by omega) (locOf_x i j h) (busWrite_xWord_idle hidle v i j), wordOf_setWord _ j v,
      fun k hk => wordOf_setWord_ne _ hk.symm v⟩
  · exact ⟨_, writes_loc (by omega) (locOf_buf k h) (busWrite_bufWord_idle hidle v k),
      fun i hi => read_writeBytes_bytesOf hw k v hi, fun i hi => read_writeBytes_bytesOf_ne hw k v hi⟩
  · exact writes_loc rfl rfl (busWrite_len_idle hidle v)
  · exact writes_loc h4 rfl (busWrite_readOnly (readOnly_locOf h4 h) s v)

/-- Settles O10: the engine lets no write but CTRL's and STATUS's through, and a CTRL write without SRST sets only IE. -/
theorem busyWindow : Obligations.BusyWindow := by
  intro s off v hbusy h4
  refine ⟨fun h => writes_loc h4 rfl (busWrite_busy (idleOnly_locOf h) hbusy v), fun hreset => ?_,
    _, reads_loc h4 rfl rfl⟩
  obtain ⟨ie, done, ign, h⟩ := busWrite_busy_frame (l := locOf off) hbusy (v := v)
    fun ⟨hctrl, hsrst⟩ => hreset ⟨toNat_of_locOf_ctrl hctrl, hsrst⟩
  exact ⟨ie, done, ign, writes_loc h4 rfl h⟩

/-- Settles O15: the word writes store every word of the value, and a value is its words. -/
theorem eightWritesStoreValue : Obligations.EightWritesStoreValue := by
  intro s i V order offs hidle hall hoffs
  refine ⟨?_, fun j => ?_, toNat_eq_sum_wordOf V⟩
  · have h := steps_wordWrites V hoffs order s hidle
    rwa [storeWords_of_all hall] at h
  · have hj := hoffs j
    exact reads_loc (by omega) (locOf_x i j hj) (congrArg (wordOf · j) (readX_withX s i V))

end Sys2Proof.Proofs
end

section
/-! PROOF. The decoder against the encoder and against the table's match and mask columns, the words it refuses, and the engine's turn that runs it (30_encoding.md R80 to R87, 40_control.md R101). -/

namespace Sys2Proof

/-! ### What the decoder answers for a word that has a command's opcode and fields (R84) -/

/-- A word with a command's opcode and fields decodes to that command, or fails R84's checks 4 and 5. -/
theorem decode_of_parts {w : W32} {i : Instr} (h : i.parts = (opcodeOf w, Fields.ofWord w)) :
    decode w = if i.wellFormed = false then .error i.illFormedReason else .ok i := by
  obtain ⟨r, hrow, hadmits, hbuild⟩ := i.parts_row
  have hrsv : (Fields.ofWord w).rsv = 0 := by rw [← i.parts_rsv, h]
  rw [h] at hrow hadmits hbuild
  simp only [decode, hrow, hrsv, hadmits, hbuild, ne_eq, not_true_eq_false, if_false, Bool.true_eq_false]

/-- The word of a command has the command's opcode and fields (R86). -/
theorem parts_eq_of_encode (i : Instr) : i.parts = (opcodeOf (encode i), Fields.ofWord (encode i)) := by
  rw [encode, opcodeOf_assemble i.parts_opcode, ofWord_assemble i.parts_opcode]

/-- A word with a command's opcode and fields is that command's word (R86). -/
theorem encode_of_parts {w : W32} {i : Instr} (h : i.parts = (opcodeOf w, Fields.ofWord w)) : encode i = w := by
  rw [encode, h, assemble_ofWord]

/-- Every opcode of the table lies outside R87's reserved ranges. -/
theorem Instr.opcode_range (i : Instr) : i.parts.1 ≤ 0x03 ∨ (0x10 ≤ i.parts.1 ∧ i.parts.1 ≤ 0x1A) ∨
    (0x20 ≤ i.parts.1 ∧ i.parts.1 ≤ 0x2A) ∨ (0x30 ≤ i.parts.1 ∧ i.parts.1 ≤ 0x32) ∨
    (0x40 ≤ i.parts.1 ∧ i.parts.1 ≤ 0x43) ∨ (0x50 ≤ i.parts.1 ∧ i.parts.1 ≤ 0x53) := by
  cases i <;> simp [parts]

/-- SIGN and DERDEC, by opcode and fields, are ill formed when `D = E` (R84 check 4). -/
def sameDestinations (p : Nat × Fields) : Prop := (p.1 = 0x42 ∨ p.1 = 0x53) ∧ p.2.d.val = p.2.e.val

/-- XLDC, by opcode and fields, is ill formed when `A > 6` (R84 check 5). -/
def selectorTooLarge (p : Nat × Fields) : Prop := p.1 = 0x03 ∧ 6 < p.2.a.val

/-- The ill-formed commands, each with the check it fails. -/
theorem Instr.illFormed_cases {i : Instr} (h : i.wellFormed = false) :
    (i.illFormedReason = .sameDestination ∧ sameDestinations i.parts) ∨
    (i.illFormedReason = .badSelector ∧ selectorTooLarge i.parts) := by
  cases i with
  | sign d e a b => exact .inl ⟨rfl, .inl rfl, congrArg Fin.val (bne_eq_false_iff_eq.1 h)⟩
  | derdec d e => exact .inl ⟨rfl, .inr rfl, congrArg Fin.val (bne_eq_false_iff_eq.1 h)⟩
  | xldc d a => exact .inr ⟨rfl, rfl, by simpa [wellFormed, parts] using h⟩
  | _ => cases h

/-- A well-formed command passes checks 4 and 5. -/
theorem Instr.checks_of_wellFormed {i : Instr} (h : i.wellFormed = true) :
    ¬ sameDestinations i.parts ∧ ¬ selectorTooLarge i.parts := by
  cases i with
  | sign d e a b | derdec d e => simpa [wellFormed, sameDestinations, selectorTooLarge, parts, Fin.ext_iff] using h
  | xldc d a => simpa [wellFormed, sameDestinations, selectorTooLarge, parts] using h
  | _ => simp [sameDestinations, selectorTooLarge, parts]

/-! ### The mask column, from the fields an opcode uses (R85) -/

/-- Fields and-ed bit by bit. -/
def Fields.inter (f g : Fields) : Fields where
  d := f.d &&& g.d
  a := f.a &&& g.a
  b := f.b &&& g.b
  c := f.c &&& g.c
  e := f.e &&& g.e
  m := f.m && g.m
  rsv := f.rsv &&& g.rsv

/-- The fields that a row's mask covers: the unused ones and RSV. -/
def FieldUse.maskFields (u : FieldUse) : Fields where
  d := if u.d then 0 else 15
  a := if u.a then 0 else 15
  b := if u.b then 0 else 15
  c := if u.c then 0 else 15
  e := if u.e then 0 else 15
  m := !u.m
  rsv := 7

/-- A row's mask: its opcode's eight bits and the fields above. -/
def FieldUse.mask (u : FieldUse) : W32 := assemble 0xFF u.maskFields

/-- The table's columns are the row's opcode with every field 0, and the row's mask. -/
theorem Instr.matchMask_of_row {i : Instr} {r : OpcodeRow} (h : opcodeRow i.parts.1 = some r) :
    i.matchMask = (assemble i.parts.1 {}, r.use.mask) := by
  cases i <;> cases h <;> rfl

/-- Commands of one opcode share a row of the table. -/
theorem Instr.matchMask_eq_of_opcode {i j : Instr} (h : j.parts.1 = i.parts.1) : j.matchMask = i.matchMask := by
  obtain ⟨r, hrow, -⟩ := i.parts_row
  rw [matchMask_of_row hrow, matchMask_of_row (h ▸ hrow), h]

theorem opcodeOf_and (w v : W32) : opcodeOf (w &&& v) = opcodeOf w &&& opcodeOf v := by
  rw [opcodeOf, BitVec.toNat_and]
  exact Nat.and_mod_two_pow (n := 8)

/-- And-ing two words ands their fields of `n` bits from bit `k` on. -/
theorem ofNat_and_div (n k x y : Nat) :
    Fin.ofNat (2 ^ n) ((x &&& y) / 2 ^ k) = Fin.ofNat (2 ^ n) (x / 2 ^ k) &&& Fin.ofNat (2 ^ n) (y / 2 ^ k) := by
  ext
  simp [Fin.ofNat, Nat.and_div_two_pow, Nat.and_mod_two_pow]

theorem ofWord_and (w v : W32) : Fields.ofWord (w &&& v) = (Fields.ofWord w).inter (Fields.ofWord v) := by
  simp only [Fields.ofWord, Fields.inter, BitVec.toNat_and, Fields.mk.injEq]
  refine ⟨ofNat_and_div 4 8 _ _, ofNat_and_div 4 12 _ _, ofNat_and_div 4 16 _ _, ofNat_and_div 4 20 _ _,
    ofNat_and_div 4 24 _ _, ?_, ofNat_and_div 3 29 _ _⟩
  simp only [beq_eq_decide, ← Nat.testBit_eq_decide_div_mod_eq, Nat.testBit_and]

/-- A word is assembled from exactly one opcode and one set of fields, its own. -/
theorem eq_assemble_iff {n : Nat} (h : n < 256) (w : W32) (f : Fields) :
    w = assemble n f ↔ opcodeOf w = n ∧ Fields.ofWord w = f := by
  constructor
  · rintro rfl
    exact ⟨opcodeOf_assemble h f, ofWord_assemble h f⟩
  · rintro ⟨rfl, rfl⟩
    exact (assemble_ofWord w).symm

/-- A register field is 0 under its mask exactly when it is used or 0. -/
theorem and_maskField_eq_zero (used : Bool) (i : Reg) :
    i &&& (if used then 0 else 15) = 0 ↔ (used || i == 0) = true := by
  revert used i
  decide

theorem inter_maskFields_eq_zero (u : FieldUse) (f : Fields) :
    f.inter u.maskFields = {} ↔ f.rsv = 0 ∧ u.admits f = true := by
  have hm : (f.m && !u.m) = false ↔ (u.m || !f.m) = true := by cases f.m <;> cases u.m <;> decide
  have hrsv : ∀ k : Fin 8, k &&& 7 = k := by decide
  simp only [Fields.inter, FieldUse.maskFields, FieldUse.admits, Fields.mk.injEq, and_maskField_eq_zero, hm, hrsv,
    Bool.and_eq_true]
  tauto

end Sys2Proof

namespace Sys2Proof.Claims

open Sys2Proof.Machine

/-! ### The rows a word selects (R85) -/

/-- A word selects a command's row when it has its opcode, RSV is 0 and the fields the opcode does not use are 0. -/
theorem selects_iff {w : W32} {i : Instr} {r : OpcodeRow} (hrow : opcodeRow i.parts.1 = some r) :
    selects w i ↔ opcodeOf w = i.parts.1 ∧ (Fields.ofWord w).rsv = 0 ∧ r.use.admits (Fields.ofWord w) = true := by
  have hopc : opcodeOf w &&& 0xFF = opcodeOf w := by
    rw [Nat.and_two_pow_sub_one_eq_mod _ 8, opcodeOf, Nat.mod_mod]
  rw [selects, Instr.matchMask_of_row hrow, eq_assemble_iff i.parts_opcode, opcodeOf_and, ofWord_and, FieldUse.mask,
    opcodeOf_assemble (by decide), ofWord_assemble (by decide), hopc, inter_maskFields_eq_zero]

/-- A command's word is among those that select its row. -/
theorem selects_of_parts {w : W32} {i : Instr} (h : i.parts = (opcodeOf w, Fields.ofWord w)) : selects w i := by
  obtain ⟨r, hrow, hadmits, -⟩ := i.parts_row
  have hrsv := i.parts_rsv
  refine (selects_iff hrow).2 ⟨?_, ?_, ?_⟩
  · rw [h]
  · rwa [h] at hrsv
  · rwa [h] at hadmits

/-- A word that selects a row has the opcode and fields of a command of that row. -/
theorem parts_of_selects {w : W32} {i : Instr} (h : selects w i) :
    ∃ j : Instr, j.parts = (opcodeOf w, Fields.ofWord w) ∧ j.matchMask = i.matchMask := by
  obtain ⟨r, hrow, -⟩ := i.parts_row
  obtain ⟨hopc, hrsv, hadmits⟩ := (selects_iff hrow).1 h
  have hparts := opcodeRow_parts hrow hrsv hadmits
  exact ⟨_, hopc ▸ hparts, Instr.matchMask_eq_of_opcode (by rw [hparts])⟩

/-! ### The engine's turn (R84, R101, R280) -/

theorem engineTurn_idle {s : State} (h : s.status.busy = false) : engineTurn s = .next s :=
  if_neg (by simp [h])

theorem engineTurn_command {s : State} (hbusy : s.status.busy = true) {i : Instr} (h : decode s.cmd = .ok i) :
    engineTurn s = exec i s := by
  rw [engineTurn, if_pos hbusy, h]

theorem engineTurn_illegal {s : State} (hbusy : s.status.busy = true) (h : ∀ i, decode s.cmd ≠ .ok i) :
    engineTurn s = .next (completed s .illegalCommand) := by
  rw [engineTurn, if_pos hbusy, completed_eq]
  cases hdecode : decode s.cmd with
  | ok i => exact absurd hdecode (h i)
  | error r => rfl

/-- The engine's turn is the next event when it stands first or nothing is to come (R311). -/
theorem step_engine {s : State} {rest : List Event} (h : s.agenda = .engine :: rest ∨ (s.agenda = [] ∧ rest = [])) :
    step s = engineTurn { s with agenda := rest } := by
  rcases h with h | ⟨h, rfl⟩
  · rw [step, nextEvent, h]
    rfl
  · have hs : ({ s with agenda := [] } : State) = s := by rw [← h]
    rw [hs, step, nextEvent, h]
    rfl

end Sys2Proof.Claims

namespace Sys2Proof.Proofs

open Sys2Proof.Machine Sys2Proof.Claims

/-- Settles O1: the word of a command has its opcode and fields, and those decode to it. -/
theorem decodeInvertsEncode : Obligations.DecodeInvertsEncode := by
  intro i hwf
  rw [decode_of_parts (parts_eq_of_encode i), if_neg (by simp [hwf])]

/-- Settles O2: the command has the word's opcode and fields, and those make the word. -/
theorem encodeInvertsDecode : Obligations.EncodeInvertsDecode := by
  intro w i h
  obtain ⟨hparts, hwf⟩ := decode_ok h
  exact ⟨encode_of_parts hparts, hwf⟩

/-- Settles O3: a selected row has a command with the word's opcode and fields, well formed or failing check 4 or 5. -/
theorem decodeFollowsMatchAndMask : Obligations.DecodeFollowsMatchAndMask := by
  refine fun w i => ⟨fun h => selects_of_parts (decode_ok h).1, fun h => ?_⟩
  obtain ⟨j, hparts, hrow⟩ := parts_of_selects h
  have hdecode := decode_of_parts hparts
  cases hwf : j.wellFormed with
  | true =>
    rw [if_neg (by simp [hwf])] at hdecode
    exact .inl ⟨j, hrow, hdecode⟩
  | false =>
    have hcases := Instr.illFormed_cases hwf
    rw [hparts] at hcases
    rw [if_pos hwf] at hdecode
    rcases hcases with ⟨hreason, hcheck⟩ | ⟨hreason, hcheck⟩
    · exact .inr (.inl ⟨hreason ▸ hdecode, hcheck⟩)
    · exact .inr (.inr ⟨hreason ▸ hdecode, hcheck⟩)

/-- Settles O4: a word that decodes has an opcode of the table, selects a row and passes checks 4 and 5. -/
theorem reservedAndIllegalWords : Obligations.ReservedAndIllegalWords := by
  refine ⟨fun s hbusy h => engineTurn_illegal hbusy fun i hi => ?_, fun w => ?_, decodeInvertsEncode .nop rfl⟩
  · obtain ⟨hparts, hwf⟩ := decode_ok hi
    have hopc : i.parts.1 = opc s.cmd := congrArg Prod.fst hparts
    have hrange := i.opcode_range
    obtain ⟨hdest, hsel⟩ := Instr.checks_of_wellFormed hwf
    rw [hparts] at hdest hsel
    rcases h with h | h | h | h | h | h | hrow | hsame | hlarge
    iterate 6 · omega
    · exact hrow i (selects_of_parts hparts)
    · exact hdest hsame
    · exact hsel hlarge
  · cases decode w with
    | ok i => exact .inl ⟨i, rfl⟩
    | error r => exact .inr ⟨r, rfl⟩

/-- Settles O5: each word is the encoding of a well-formed command. -/
theorem specWordsDecode : Obligations.SpecWordsDecode :=
  ⟨decodeInvertsEncode (.fmul 3 1 2) rfl, decodeInvertsEncode (.fpow 1 0 2 true) rfl,
    decodeInvertsEncode (.sign 2 3 0 1) rfl, decodeInvertsEncode .zeroize rfl, decodeInvertsEncode (.xldc 15 6) rfl,
    decodeInvertsEncode (.pset 0 1 2 3 14) rfl, decodeInvertsEncode (.liftx 0 1 true) rfl,
    decodeInvertsEncode (.verify 0 7 8 9) rfl, decodeInvertsEncode (.secenc 5 true) rfl,
    decodeInvertsEncode (.derdec 10 11) rfl⟩

/-- Settles O6: the step is the engine's turn, which runs the latched command or, idle, holds the state. -/
theorem stepRunsLatchedCommand : Obligations.StepRunsLatchedCommand := by
  refine ⟨fun s i rest h => ⟨fun hbusy hi => ?_, fun hidle => ?_⟩, fun s w i h => ?_⟩
  · exact (step_engine h).trans (engineTurn_command (s := { s with agenda := rest }) hbusy hi)
  · exact (step_engine h).trans (engineTurn_idle (s := { s with agenda := rest }) hidle)
  · have hw : BitVec.ofNat 32 (w.toNat % 2 ^ 32) = w := by
      rw [Nat.mod_eq_of_lt w.isLt, BitVec.ofNat_toNat, BitVec.setWidth_eq]
    rw [State.withFetchWord, hw]
    exact (step_engine (.inl rfl)).trans (engineTurn_command rfl h)

end Sys2Proof.Proofs
end

section
/-! PROOF. How a command ends, what it leaves of the registers, `BUF` and the host's side, and the control commands' results (40_control.md R101, R103 to R108). -/

namespace Sys2Proof.Claims

open Sys2Proof.Machine

/-! ### Completion (R101, R263, R311) -/

/-- A command's effect is the completion of a state with the STATUS and CMDCNT it found, or a command that may go on
does, and only its nonce state and the draws have changed. -/
theorem effect_completes_or_continues {i : Instr} {s t : State} (h : Effect i s t) :
    (∃ u c, t = completed u c ∧ u.status = s.status ∧ u.cmdcnt = s.cmdcnt) ∨
    (mayContinue i = true ∧ t = { s with nonce := t.nonce, entropy := t.entropy }) := by
  cases h with
  | drawing d e hk => exact .inr ⟨hk ▸ rfl, rfl⟩
  | signing d e a b g hs => exact .inr ⟨hs ▸ rfl, rfl⟩
  | _ => exact .inl ⟨_, _, (completed_eq _ _).symm, rfl, rfl⟩

/-! ### The register files (R103, R104) -/

theorem getElem_setX_ne {s : State} {d r : Reg} (h : r ≠ d) (v : W256) : (s.setX d v).x[r.val] = s.x[r.val] :=
  Vector.getElem_set_ne d.isLt r.isLt (Fin.val_ne_of_ne h.symm)

/-- The X registers a command leaves. -/
theorem effect_x {i : Instr} {s t : State} (h : Effect i s t) (hi : i ≠ .zeroize) {r : Reg} (hr : r ∉ xDests i) :
    t.x[r.val] = s.x[r.val] := by
  cases h with
  | wiped hz => exact absurd hz hi
  | wroteX d v hd =>
    rw [hd, List.mem_singleton] at hr
    exact getElem_setX_ne hr v
  | generated d e rest v q hk =>
    subst hk
    exact getElem_setX_ne (s := { s with entropy := rest }) (List.ne_of_not_mem_cons hr) v
  | wroteXX d e v w hd =>
    subst hd
    obtain ⟨hrd, hre⟩ := List.ne_and_not_mem_of_not_mem_cons hr
    exact (getElem_setX_ne (List.ne_of_not_mem_cons hre) w).trans (getElem_setX_ne hrd v)
  | signed d e a b v w nrt hs =>
    subst hs
    obtain ⟨hrd, hre⟩ := List.ne_and_not_mem_of_not_mem_cons hr
    exact (getElem_setX_ne (List.ne_of_not_mem_cons hre) w).trans (getElem_setX_ne hrd v)
  | _ => rfl

/-- The F registers a command leaves. -/
theorem effect_f {i : Instr} {s t : State} (h : Effect i s t) (hi : i ≠ .zeroize) {r : Reg} (hr : r ∉ fDests i) :
    t.f[r.val] = s.f[r.val] := by
  cases h with
  | wiped hz => exact absurd hz hi
  | wroteF d e hd =>
    rw [hd, List.mem_singleton] at hr
    exact (State.setF_get s d r e).trans (if_neg (Ne.symm hr))
  | _ => rfl

/-- The P registers a command leaves. -/
theorem effect_p {i : Instr} {s t : State} (h : Effect i s t) (hi : i ≠ .zeroize) {r : Reg} (hr : r ∉ pDests i) :
    t.p[r.val] = s.p[r.val] := by
  cases h with
  | wiped hz => exact absurd hz hi
  | wroteP d q hd =>
    rw [hd, List.mem_singleton] at hr
    exact (State.setP_get s d r q).trans (if_neg (Ne.symm hr))
  | generated d e rest v q hk =>
    subst hk
    exact (State.setP_get s e r q).trans (if_neg (Ne.symm (List.ne_of_not_mem_cons hr)))
  | _ => rfl

/-! ### `BUF` and what is not the command's (R104, R106) -/

/-- `BUF` and LEN are the encoders' and ZEROIZE's. -/
theorem effect_buffer {i : Instr} {s t : State} (h : Effect i s t) (hw : writesBuf i = false) (hi : i ≠ .zeroize) :
    t.buf = s.buf ∧ t.len = s.len := by
  cases h with
  | wiped hz => exact absurd hz hi
  | encoded _ he => exact absurd he (by simp [hw])
  | _ => exact ⟨rfl, rfl⟩

/-- CTRL, CMD, IGN, the events to come and the last word read are no command's. -/
theorem effect_control {i : Instr} {s t : State} (h : Effect i s t) :
    t.ie = s.ie ∧ t.cmd = s.cmd ∧ t.status.ign = s.status.ign ∧ t.agenda = s.agenda ∧ t.lastRead = s.lastRead := by
  cases h with
  | _ => exact ⟨rfl, rfl, rfl, rfl, rfl⟩

/-- The draws delivered are KEYGEN's. -/
theorem effect_entropy {i : Instr} {s t : State} (h : Effect i s t) (hi : ∀ d e, i ≠ .keygen d e) :
    t.entropy = s.entropy := by
  cases h with
  | generated d e _ _ _ hk => exact absurd hk (hi d e)
  | drawing d e hk => exact absurd hk (hi d e)
  | _ => rfl

/-! ### XLDC (R83, R108) -/

theorem exec_xldc_of_rom {a : Reg} {v : W256} (h : rom a = some v) (d : Reg) (s : State) :
    exec (.xldc d a) s = .next (completed (withX s d v) .ok) := by
  obtain ⟨w, hw, e⟩ := (execXldc_cases d a s).resolve_right (by simp [h])
  cases h.symm.trans hw
  rw [completed_eq]
  exact e

theorem rom_reserved {a : Reg} (h : 6 < a.val) : rom a = none := by
  revert a
  decide

theorem exec_xldc_reserved {a : Reg} (h : 6 < a.val) (d : Reg) (s : State) :
    exec (.xldc d a) s = .next (completed s .illegalCommand) := by
  obtain ⟨-, e⟩ := (execXldc_cases d a s).resolve_left (by simp [rom_reserved h])
  rw [completed_eq]
  exact e

end Sys2Proof.Claims

namespace Sys2Proof.Proofs

open Sys2Proof.Machine Sys2Proof.Claims

/-- Settles O22: `exec` answers a next state, and its effect is a completion or goes on. -/
theorem everyCommandCompletes : Obligations.EveryCommandCompletes := by
  intro i s
  obtain ⟨t, h, he⟩ := exec_effect i s
  exact ⟨t, h, effect_completes_or_continues he⟩

/-- Settles O24, file by file. -/
theorem registerFrame : Obligations.RegisterFrame := by
  intro i s t hi h r
  have he := effect_of_exec h
  exact ⟨effect_x he hi, effect_f he hi, effect_p he hi⟩

/-- Settles O26: no effect but the encoders' and ZEROIZE's reaches `BUF`, and none the host's side. -/
theorem bufferAndControlFrame : Obligations.BufferAndControlFrame := by
  intro i s t h
  have he := effect_of_exec h
  obtain ⟨hie, hcmd, hign, hagenda, hread⟩ := effect_control he
  refine ⟨fun hw hi => ?_, hie, hcmd, hign, hagenda, hread, effect_entropy he⟩
  obtain ⟨hbuf, hlen⟩ := effect_buffer he hw hi
  exact ⟨fun j => by rw [hbuf], hlen⟩

/-- Settles O29: each command is the completion of its one write, and XLDC's is the ROM's constant or none. -/
theorem controlCommandResults : Obligations.ControlCommandResults := by
  refine fun s d a => ⟨?_, ?_, fun _ => rfl, ?_, exec_xldc_of_rom rfl d s, exec_xldc_of_rom rfl d s,
    exec_xldc_of_rom rfl d s, exec_xldc_of_rom rfl d s, exec_xldc_of_rom rfl d s, exec_xldc_of_rom rfl d s,
    exec_xldc_of_rom rfl d s, fun h => exec_xldc_reserved h d s⟩
  all_goals
    rw [completed_eq]
    rfl

end Sys2Proof.Proofs
end

section
/-! PROOF. The field commands' results: each helper's value as the statements' `fe`, how each shape of command ends with it, and the field properties (41_field.md R120 to R141). -/

namespace Sys2Proof.Claims

open Sys2Proof.Machine

/-! ### The helpers' values (R122 to R128) -/

theorem fadd_eq_fe {x y : Fe} (h : x.m = y.m) (hm : 2 ≤ x.m.toNat) : fadd x y = .ok (fe (int x + int y) x.m) := by
  rw [fadd_same h, int, int, ← Nat.cast_add, fe_natCast hm]

theorem fsub_eq_fe {x y : Fe} (h : x.m = y.m) (hm : 2 ≤ x.m.toNat) : fsub x y = .ok (fe (int x - int y) x.m) := by
  rw [fsub_same h, fe_eq hm, int, int]

theorem fmul_eq_fe {x y : Fe} (h : x.m = y.m) (hm : 2 ≤ x.m.toNat) : fmul x y = .ok (fe (int x * int y) x.m) := by
  rw [fmul_same h, int, int, ← Nat.cast_mul, fe_natCast hm]

/-- The exponent is reduced modulo `m - 1` (R125). -/
theorem fpow_eq_fe {x : Fe} (hm : 2 ≤ x.m.toNat) (e : Int) :
    fpow x e = fe (int x ^ (e % ((x.m.toNat : Int) - 1)).toNat) x.m := by
  rw [fpow_eq hm, int, ← Nat.cast_pow, fe_natCast hm, normExponent]

/-- The power by which `finv` and `fdiv` invert (R127, R128). -/
theorem fpow_inv_eq_fe {x : Fe} (hm : 2 ≤ x.m.toNat) :
    fpow x ((x.m.toNat : Int) - 2) = fe (int x ^ (x.m.toNat - 2)) x.m := by
  rw [fpow_inv_eq hm, int, ← Nat.cast_pow, fe_natCast hm]

theorem finv_eq_fe {x : Fe} (hx : x.v ≠ 0) (hm : 2 ≤ x.m.toNat) :
    finv x = .ok (fe (int x ^ (x.m.toNat - 2)) x.m) := by
  rw [finv, if_neg hx, fpow_inv_eq_fe hm]

theorem finv_zero {x : Fe} (hx : x.v = 0) : finv x = .error .divisionByZero := if_pos hx

theorem fe_m (z : Int) (m : W256) : (fe z m).m = m := rfl

/-- `fe` stores the Euclidean remainder. -/
theorem int_fe {m : W256} (hm : 2 ≤ m.toNat) (z : Int) : int (fe z m) = z % m.toNat := by
  rw [fe_eq hm]
  exact toNat_emod m hm z

/-- A product is the same whether or not its second factor was reduced. -/
theorem fe_mul_emod (w z : Int) (m : W256) : fe (w * (z % m.toNat)) m = fe (w * z) m := by
  rw [fe, fe, ((Int.mod_modEq z m.toNat).mul_left w).eq]

theorem fdiv_eq_fe {x y : Fe} (h : x.m = y.m) (hy : y.v ≠ 0) (hm : 2 ≤ x.m.toNat) :
    fdiv x y = .ok (fe (int x * int y ^ (x.m.toNat - 2)) x.m) := by
  rw [fdiv_same h hy, fpow_inv_eq_fe (h ▸ hm), ← h, fmul_eq_fe (fe_m _ x.m).symm hm, int_fe hm, fe_mul_emod]

/-! ### How a field command with valid sources ends (R120, R130 to R140) -/

/-- What a field operation ends with: the element written, or the code raised. -/
def fieldEnd (s : State) (d : Reg) : Except ResultCode Fe → State
  | .ok r => completed (withF s d r) .ok
  | .error c => completed s c

theorem fieldBinary_end {op : Fe → Fe → Except ResultCode Fe} {d a b : Reg} {s : State} {out : Except ResultCode Fe}
    (ha : s.f[a.val].valid = true) (hb : s.f[b.val].valid = true) (h : op s.f[a.val].fe s.f[b.val].fe = out) :
    fieldBinary op d a b s = .next (fieldEnd s d out) := by
  subst h
  rcases fieldBinary_cases op d a b s with ⟨-, -, r, hr, e⟩ | ⟨-, -, c, hc, e⟩ | ⟨hempty, -⟩
  · rw [e, hr, fieldEnd, completed_eq, withF_eq]
  · rw [e, hc, fieldEnd, completed_eq]
  · simp [ha, hb] at hempty

theorem fieldUnary_end {op : Fe → Except ResultCode Fe} {d a : Reg} {s : State} {out : Except ResultCode Fe}
    (ha : s.f[a.val].valid = true) (h : op s.f[a.val].fe = out) :
    fieldUnary op d a s = .next (fieldEnd s d out) := by
  subst h
  rcases fieldUnary_cases op d a s with ⟨-, r, hr, e⟩ | ⟨-, c, hc, e⟩ | ⟨hempty, -⟩
  · rw [e, hr, fieldEnd, completed_eq, withF_eq]
  · rw [e, hc, fieldEnd, completed_eq]
  · simp [ha] at hempty

theorem fieldGet_end {get : Fe → W256} {d a : Reg} {s : State} (ha : s.f[a.val].valid = true) :
    fieldGet get d a s = .next (completed (withX s d (get s.f[a.val].fe)) .ok) := by
  obtain ⟨-, e⟩ := (fieldGet_cases get d a s).resolve_right (by simp [ha])
  rw [e, completed_eq, withX_eq]

/-- The F registers after a command that ended by writing an element. -/
theorem f_of_fieldEnd {s t : State} {d : Reg} {r : Fe} {o : Host.Outcome State Fault Refusal}
    (ho : o = .next (fieldEnd s d (.ok r))) (ht : o = .next t) :
    t.f[d.val] = ⟨true, r⟩ ∧ ∀ j, d ≠ j → t.f[j.val] = s.f[j.val] := by
  cases ho.symm.trans ht
  exact ⟨(State.setF_get s d d r).trans (if_pos rfl), fun j hj => (State.setF_get s d j r).trans (if_neg hj)⟩

theorem freg_eta {g : FReg} (h : g.valid = true) : (⟨true, g.fe⟩ : FReg) = g := by rw [← h]

/-! ### FPOW's exponent (R82, R138) -/

/-- The exponent read is unsigned, or two's complement. -/
theorem readExponent_eq (s : State) (i : Reg) (signed : Bool) :
    s.readExponent i signed = if signed && 2 ^ 255 ≤ s.x[i.val].toNat then (s.x[i.val].toNat : Int) - 2 ^ 256
      else (s.x[i.val].toNat : Int) := by
  cases signed with
  | false => rfl
  | true =>
    rw [State.readExponent, if_pos rfl, State.readX, BitVec.toInt_eq_toNat_cond, Bool.true_and]
    by_cases h : 2 ^ 255 ≤ s.x[i.val].toNat
    · rw [if_neg (by omega), if_pos (decide_eq_true h)]
      rfl
    · rw [if_pos (by omega), if_neg (by simpa using h)]

/-! ### PEQ (R152, R168) -/

/-- On legal points R152's comparison is equality: an identity's coordinates are zeros of the curve's modulus. -/
theorem peq_eq_decide {q r : Pt} (hq : q.wf) (hr : r.wf) : peq q r = decide (q = r) := by
  rw [Bool.eq_iff_iff, decide_eq_true_iff]
  constructor
  · intro h
    simp only [peq, Bool.and_eq_true, Bool.or_eq_true, beq_iff_eq] at h
    obtain ⟨⟨⟨ha, hb⟩, hinf⟩, hq_inf | ⟨hx, hy⟩⟩ := h
    · rw [hq.in.eq_identity hq_inf, hr.in.eq_identity (hinf ▸ hq_inf), ha, hb]
    · obtain ⟨inf, x, y, a, b⟩ := q
      simp_all
  · rintro rfl
    simp [peq]

/-! ### The field properties (R141) -/

/-- In a prime field a nonzero element times its power `m - 2` is 1. -/
theorem fmul_fpow_inv {x : Fe} (hx : x.wf) (hp : x.m.toNat.Prime) (h0 : x.v ≠ 0) :
    fmul x (fpow x ((x.m.toNat : Int) - 2)) = .ok ⟨1, x.m⟩ := by
  have : Fact x.m.toNat.Prime := ⟨hp⟩
  have hin : x.In x.m.toNat := ⟨rfl, hx⟩
  have hz : x.toZ x.m.toNat ≠ 0 := fun h => h0 (hin.eq_zero_iff.2 h)
  obtain ⟨hpin, hpow⟩ := fpow_inv_in hin
  obtain ⟨r, hr, hrin, hrz⟩ := fmul_in hin hpin
  have hone : Fe.In x.m.toNat ⟨1, x.m⟩ := ⟨rfl, hx.1, hx.1⟩
  rw [hr, hrin.ext hone]
  rw [hrz, hpow, pow_sub_two_eq_inv' hz, mul_inv_cancel₀ hz]
  exact Nat.cast_one.symm

/-- Subtracting what was added gives the element back. -/
theorem fsub_of_fadd {m : Nat} {x y : Fe} (hx : x.In m) (hy : y.In m) :
    ∃ r, fadd x y = .ok r ∧ fsub r y = .ok x := by
  obtain ⟨r, hr, hrin, hrz⟩ := fadd_in hx hy
  obtain ⟨t, ht, htin, htz⟩ := fsub_in hrin hy
  exact ⟨r, hr, by rw [ht, htin.ext hx (by rw [htz, hrz, add_sub_cancel_right])]⟩

end Sys2Proof.Claims

namespace Sys2Proof.Proofs

open Sys2Proof.Machine Sys2Proof.Claims

/-- Settles O30: the two outcomes of FSET, whose conditions exclude each other. -/
theorem fsetResult : Obligations.FsetResult := by
  intro s d a b
  rw [completed_eq, completed_eq]
  have hcases := execFset_cases d a b s
  simp only [State.readNat, State.readX] at hcases
  refine ⟨fun h => ?_, fun h => ?_⟩
  · exact (hcases.resolve_right fun hr => by omega).2.2
  · exact (hcases.resolve_left fun hl => by omega).2

/-- Settles O31: each reads its valid source and writes a part of it, or all. -/
theorem fieldCopies : Obligations.FieldCopies :=
  fun _ _ _ ha => ⟨fieldGet_end ha, fieldGet_end ha, fieldUnary_end ha rfl⟩

/-- Settles O32: the helper's value on one modulus, and its mismatch on two. -/
theorem fieldSumDifferenceProduct : Obligations.FieldSumDifferenceProduct :=
  fun _ _ _ _ ha hb hm =>
    ⟨fun h => ⟨fieldBinary_end ha hb (fadd_eq_fe h hm), fieldBinary_end ha hb (fsub_eq_fe h hm),
        fieldBinary_end ha hb (fmul_eq_fe h hm)⟩,
      fun h => ⟨fieldBinary_end ha hb (fadd_mismatch h), fieldBinary_end ha hb (fsub_mismatch h),
        fieldBinary_end ha hb (fmul_mismatch h)⟩⟩

/-- Settles O33, by R128's checks in order, and for FINV by R127's one. -/
theorem fieldDivision : Obligations.FieldDivision :=
  fun _ _ _ _ ha hb hm =>
    ⟨fun h => fieldBinary_end ha hb (fdiv_mismatch h), fun h h0 => fieldBinary_end ha hb (fdiv_zero h h0),
      fun h h0 => fieldBinary_end ha hb (fdiv_eq_fe h h0 hm), fun h0 => fieldUnary_end ha (finv_zero h0),
      fun h0 => fieldUnary_end ha (finv_eq_fe h0 hm)⟩

/-- Settles O34: the exponent read is the statement's, and `fpow` never raises. -/
theorem fpowResult : Obligations.FpowResult := by
  intro s d a b signed ha hm x e
  have he : s.readExponent b signed = e := readExponent_eq s b signed
  rw [← he]
  exact fieldUnary_end (op := fun z => .ok (fpow z _)) ha (congrArg Except.ok (fpow_eq_fe hm _))

/-- Settles O35: FEQ compares the elements, and PEQ's comparison is equality on legal points. -/
theorem comparisons : Obligations.Comparisons := by
  refine fun s a b => ⟨fun ha hb => ?_, fun ha hb hwa hwb => ?_⟩
  · obtain ⟨-, -, e⟩ := (execFeq_cases a b s).resolve_right (by simp [ha, hb])
    rw [completed_eq, withEq_eq, ← beq_eq_decide]
    exact e
  · obtain ⟨-, -, e⟩ := (execPeq_cases a b s).resolve_right (by simp [ha, hb])
    rw [completed_eq, withEq_eq, ← peq_eq_decide hwa hwb]
    exact e

/-- Settles O36: the first command's destination is not the register the second reads again, so the two run one helper
after the other on the elements. -/
theorem fieldProperties : Obligations.FieldProperties := by
  refine ⟨fun s t u d d' a b ha hwf hp h0 hx hda ht hu => ?_, fun s t u d d' a b ha hb hwa hwb hm hdb ht hu => ?_⟩
  · have he : s.readExponent b false = (s.f[a.val].fe.m.toNat : Int) - 2 := by
      show (s.x[b.val].toNat : Int) = _
      rw [hx, Nat.cast_sub hwf.1, Nat.cast_two]
    obtain ⟨htd, hframe⟩ := f_of_fieldEnd (fieldUnary_end ha (by rw [he])) ht
    have hta := hframe a hda
    have hmul : fmul t.f[a.val].fe t.f[d.val].fe = .ok ⟨1, s.f[a.val].fe.m⟩ := by
      rw [hta, htd]
      exact fmul_fpow_inv hwf hp h0
    exact (f_of_fieldEnd (fieldBinary_end (by rw [hta, ha]) (by rw [htd]) hmul) hu).1
  · obtain ⟨r, hadd, hsub⟩ := fsub_of_fadd ⟨rfl, hwa⟩ ⟨congrArg BitVec.toNat hm.symm, hwb⟩
    obtain ⟨htd, hframe⟩ := f_of_fieldEnd (fieldBinary_end ha hb hadd) ht
    have htb := hframe b hdb
    have hback : fsub t.f[d.val].fe t.f[b.val].fe = .ok s.f[a.val].fe := by
      rw [htd, htb]
      exact hsub
    rw [(f_of_fieldEnd (fieldBinary_end (by rw [htd]) (by rw [htb, hb]) hback) hu).1, freg_eta ha]

end Sys2Proof.Proofs
end

section
/-! PROOF. The point commands' results: how each shape of command ends with its helper's value, the curve equation over the integers, R159's loop as the statements' relation, and the group properties (42_point.md R150 to R171). -/

namespace Sys2Proof.Machine

/-! ### Legal points as values -/

/-- Legal points of one modulus are equal when their curves, infinity bits and coordinates are. -/
theorem Pt.In.ext {m : Nat} {q r : Pt} (hq : q.In m) (hr : r.In m) (hinf : q.inf = r.inf) (ha : q.a = r.a)
    (hb : q.b = r.b) (hx : q.x.toZ m = r.x.toZ m) (hy : q.y.toZ m = r.y.toZ m) : q = r := by
  have hx := hq.x.ext hr.x hx
  have hy := hq.y.ext hr.y hy
  cases q
  cases r
  simp_all

theorem pneg_affine {q : Pt} (h : q.inf = false) :
    pneg q = { q with y := ⟨BitVec.ofNat 256 ((0 - (q.y.v.toNat : Int)) % q.a.m.toNat).toNat, q.a.m⟩ } :=
  if_neg (by simp [h])

theorem pneg_inf {q : Pt} (h : q.inf = true) : pneg q = q := if_pos h

theorem pneg_x (q : Pt) : (pneg q).x = q.x := by
  unfold pneg
  split <;> rfl

/-- The value of a negated point's y-coordinate (R158). -/
theorem toZ_pneg_y {q : Pt} (hq : q.wf) (h : q.inf = false) :
    (pneg q).y.toZ q.a.m.toNat = -q.y.toZ q.a.m.toNat := by
  rw [pneg_affine h, Fe.toZ_ofEmod rfl hq.in.two_le]
  push_cast
  exact zero_sub _

/-! ### The group properties (R171) -/

/-- The identity of a legal point's curve is neutral on the left. -/
theorem padd_identity_left (q : Pt) : padd (Pt.identity q.a q.b) q = .ok q := padd_inf_left rfl rfl rfl

/-- The line through two points of different x-coordinates gives one third point from either end. -/
theorem chord_symm {m : Nat} [Fact m.Prime] {x1 y1 x2 y2 : ZMod m} (h : x1 ≠ x2) :
    (y2 - y1) * (x2 - x1) ^ (m - 2) = (y1 - y2) * (x1 - x2) ^ (m - 2) ∧
      (y2 - y1) * (x2 - x1) ^ (m - 2) * (x2 - x1) = y2 - y1 := by
  have h12 : x2 - x1 ≠ 0 := sub_ne_zero.2 h.symm
  rw [pow_sub_two_eq_inv' h12, pow_sub_two_eq_inv' (sub_ne_zero.2 h), ← neg_sub y2 y1, ← neg_sub x2 x1, inv_neg,
    neg_mul_neg]
  exact ⟨rfl, inv_mul_cancel_right₀ h12 _⟩

theorem padd_comm_chord {m : Nat} [Fact m.Prime] {q r : Pt} (hq : q.In m) (hr : r.In m) (ha : q.a = r.a)
    (hb : q.b = r.b) (hqi : q.inf = false) (hri : r.inf = false) (hx : q.x ≠ r.x) : padd q r = padd r q := by
  obtain ⟨t, s, ht, htin, hti, hta, htb, hs, htx, hty⟩ := padd_chord hq hr ha hb hqi hri hx
  obtain ⟨u, s', hu, huin, hui, hua, hub, hs', hux, huy⟩ := padd_chord hr hq ha.symm hb.symm hri hqi hx.symm
  obtain ⟨hss, hline⟩ := chord_symm (y1 := q.y.toZ m) (y2 := r.y.toZ m) fun h => hx (hq.x.ext hr.x h)
  rw [← hs, ← hs'] at hss
  rw [← hs] at hline
  subst hss
  have hxx : t.x.toZ m = u.x.toZ m := by
    rw [htx, hux]
    ring
  have hyy : t.y.toZ m = u.y.toZ m := by
    rw [hty, huy, hxx]
    linear_combination -hline
  rw [ht, hu, htin.ext huin (hti.trans hui.symm) (hta.trans (ha.trans hua.symm)) (htb.trans (hb.trans hub.symm)) hxx hyy]

/-- Over a prime modulus addition is commutative on legal points, its errors included. -/
theorem padd_comm {q r : Pt} (hq : q.wf) (hr : r.wf) (hp : q.a.m.toNat.Prime) : padd q r = padd r q := by
  have : Fact q.a.m.toNat.Prime := ⟨hp⟩
  by_cases hc : q.a ≠ r.a ∨ q.b ≠ r.b
  · rw [padd_mismatch hc, padd_mismatch (hc.imp Ne.symm Ne.symm)]
  obtain ⟨ha, hb⟩ : q.a = r.a ∧ q.b = r.b := by simpa using hc
  have hqi := hq.in
  have hri := Pt.wf_of_curve hqi hr ha.symm
  cases hqinf : q.inf with
  | true => rw [hqi.eq_identity hqinf, ha, hb, padd_identity_left, padd_identity_right hri]
  | false =>
    cases hrinf : r.inf with
    | true => rw [hri.eq_identity hrinf, ← ha, ← hb, padd_identity_left, padd_identity_right hqi]
    | false =>
      by_cases hx : q.x = r.x
      · by_cases hy : q.y = r.y
        · rw [hqi.ext hri (hqinf.trans hrinf.symm) ha hb (by rw [hx]) (by rw [hy])]
        · rw [padd_vertical hqi ha hb hqinf hrinf hx hy,
            padd_vertical hri ha.symm hb.symm hrinf hqinf hx.symm (Ne.symm hy), ha, hb]
      · exact padd_comm_chord hqi hri ha hb hqinf hrinf hx

/-- Over an odd modulus a legal point plus its negation is the identity: the two differ in y, or y is 0. -/
theorem padd_pneg {q : Pt} (hq : q.wf) (hodd : q.a.m.toNat % 2 = 1) : padd q (pneg q) = .ok (Pt.identity q.a q.b) := by
  have hqi := hq.in
  obtain ⟨hnw, hna, hnb, hninf⟩ := pneg_wf hq
  cases hinf : q.inf with
  | true =>
    rw [pneg_inf hinf, padd_inf_left rfl rfl hinf]
    exact congrArg Except.ok (hqi.eq_identity hinf)
  | false =>
    have hz := toZ_pneg_y hq hinf
    by_cases hy : q.y = (pneg q).y
    · have h0 : q.y.v = 0 := by
        by_contra h0
        rw [← hy] at hz
        exact two_mul_ne_zero hqi.y hodd h0 (by linear_combination hz)
      have hself : pneg q = q :=
        (Pt.wf_of_curve hqi hnw hna).ext hqi hninf hna hnb (by rw [pneg_x]) (by rw [← hy])
      rw [hself, padd_vertical_tangent hqi hinf h0]
    · exact padd_vertical hqi hna.symm hnb.symm hinf (hninf.trans hinf) (pneg_x q).symm hy

/-! ### Addition keeps values legal (R26) -/

theorem padd_wf {q r t : Pt} (hq : q.wf) (hr : r.wf) (h : padd q r = .ok t) : t.wf := by
  rcases padd_cases hq hr with ⟨u, hu, huw, -⟩ | ⟨he, -⟩ | ⟨he, -⟩
  · cases hu.symm.trans h
    exact huw
  · cases he.symm.trans h
  · cases he.symm.trans h

end Sys2Proof.Machine

namespace Sys2Proof.Claims

open Sys2Proof.Machine

/-! ### The helpers' values (R151, R153, R158) -/

/-- The curve equation over the integers, by remainders. -/
theorem oncurve_iff_int (x y a b : Fe) : oncurve x y a b = true ↔
    int y ^ 2 % (x.m.toNat : Int) = (int x ^ 3 + int a * int x + int b) % (x.m.toNat : Int) := by
  rw [oncurve, beq_iff_eq, ← Int.natCast_inj]
  push_cast
  simp only [int, pow_succ, pow_zero, one_mul]

theorem mkpoint_mismatch {x y a b : Fe} (h : ¬ (x.m = y.m ∧ x.m = a.m ∧ x.m = b.m)) :
    mkpoint x y a b = .error .fieldMismatch := if_pos (by tauto)

theorem mkpoint_onCurve {x y a b : Fe} (h : x.m = y.m ∧ x.m = a.m ∧ x.m = b.m) (hc : oncurve x y a b = true) :
    mkpoint x y a b = .ok ⟨false, x, y, a, b⟩ := by
  rw [mkpoint, if_neg (by tauto), if_neg (by simp [hc])]

theorem mkpoint_offCurve {x y a b : Fe} (h : x.m = y.m ∧ x.m = a.m ∧ x.m = b.m) (hc : ¬ oncurve x y a b = true) :
    mkpoint x y a b = .error .notOnCurve := by
  rw [mkpoint, if_neg (by tauto), if_pos (Bool.eq_false_iff.2 hc)]

theorem pneg_eq_fe {q : Pt} (hq : q.wf) :
    pneg q = if q.inf then q else { q with y := fe (0 - int q.y) q.a.m } := by
  rw [fe_eq hq.in.two_le]
  rfl

/-! ### How a point command with valid sources ends (R150, R160 to R169) -/

theorem pointUnary_end {op : Pt → Except ResultCode Pt} {d a : Reg} {s : State} {out : Except ResultCode Pt}
    (ha : s.p[a.val].valid = true) (h : op s.p[a.val].pt = out) :
    pointUnary op d a s = .next (pointEnd s d out) := by
  subst h
  rcases pointUnary_cases op d a s with ⟨-, r, hr, e⟩ | ⟨-, c, hc, e⟩ | ⟨hempty, -⟩
  · rw [e, hr, pointEnd_ok]
  · rw [e, hc, pointEnd_error]
  · simp [ha] at hempty

theorem execPdbl_end {d a : Reg} {s : State} {out : Except ResultCode Pt} (ha : s.p[a.val].valid = true)
    (h : padd s.p[a.val].pt s.p[a.val].pt = out) : exec (.pdbl d a) s = .next (pointEnd s d out) :=
  pointUnary_end (op := fun q => padd q q) ha h

theorem execPneg_end {d a : Reg} {s : State} {q : Pt} (ha : s.p[a.val].valid = true) (h : pneg s.p[a.val].pt = q) :
    exec (.pneg d a) s = .next (pointEnd s d (.ok q)) :=
  pointUnary_end (op := fun q => .ok (pneg q)) ha (congrArg Except.ok h)

theorem execPmul_end {d a b : Reg} {s : State} {out : Except ResultCode Pt} (ha : s.p[a.val].valid = true)
    (h : pmul s.p[a.val].pt s.x[b.val].toNat = out) : exec (.pmul d a b) s = .next (pointEnd s d out) :=
  pointUnary_end (op := fun q => pmul q s.x[b.val].toNat) ha h

theorem pointGet_end {get : Pt → Fe} {d a : Reg} {s : State} {out : Except ResultCode Fe}
    (ha : s.p[a.val].valid = true) (h : coordinate get s.p[a.val].pt = out) :
    pointGet get d a s = .next (fieldEnd s d out) := by
  subst h
  rcases pointGet_cases get d a s with ⟨-, hi, e⟩ | ⟨-, hi, e⟩ | ⟨hempty, -⟩
  · rw [e, coordinate, if_neg (by simp [hi]), fieldEnd, completed_eq, withF_eq]
  · rw [e, coordinate, if_pos hi, fieldEnd, completed_eq]
  · simp [ha] at hempty

theorem execPadd_end {d a b : Reg} {s : State} {out : Except ResultCode Pt} (ha : s.p[a.val].valid = true)
    (hb : s.p[b.val].valid = true) (h : padd s.p[a.val].pt s.p[b.val].pt = out) :
    exec (.padd d a b) s = .next (pointEnd s d out) := by
  subst h
  change execPadd d a b s = _
  rcases execPadd_cases d a b s with ⟨-, -, r, hr, e⟩ | ⟨-, -, c, hc, e⟩ | ⟨hempty, -⟩
  · rw [e, hr, pointEnd_ok]
  · rw [e, hc, pointEnd_error]
  · simp [ha, hb] at hempty

theorem execPinf_end {d a b : Reg} {s : State} {out : Except ResultCode Pt} (ha : s.f[a.val].valid = true)
    (hb : s.f[b.val].valid = true) (h : mkinf s.f[a.val].fe s.f[b.val].fe = out) :
    exec (.pinf d a b) s = .next (pointEnd s d out) := by
  subst h
  change execPinf d a b s = _
  rcases execPinf_cases d a b s with ⟨-, -, r, hr, e⟩ | ⟨-, -, c, hc, e⟩ | ⟨hempty, -⟩
  · rw [e, hr, pointEnd_ok]
  · rw [e, hc, pointEnd_error]
  · simp [ha, hb] at hempty

theorem execPset_end {d a b c e : Reg} {s : State} {out : Except ResultCode Pt}
    (hv : ∀ r ∈ [a, b, c, e], s.f[r.val].valid = true)
    (h : mkpoint s.f[a.val].fe s.f[b.val].fe s.f[c.val].fe s.f[e.val].fe = out) :
    exec (.pset d a b c e) s = .next (pointEnd s d out) := by
  subst h
  change execPset d a b c e s = _
  rcases execPset_cases d a b c e s with ⟨-, -, -, -, r, hr, h⟩ | ⟨-, -, -, -, g, hg, h⟩ | ⟨hempty, -⟩
  · rw [h, hr, pointEnd_ok]
  · rw [h, hg, pointEnd_error]
  · simp [hv] at hempty

/-- The P registers after a command that ended by writing a point. -/
theorem p_of_pointEnd {s t : State} {d : Reg} {r : Pt} {o : Host.Outcome State Fault Refusal}
    (ho : o = .next (pointEnd s d (.ok r))) (ht : o = .next t) :
    t.p[d.val] = ⟨true, r⟩ ∧ ∀ j, d ≠ j → t.p[j.val] = s.p[j.val] := by
  cases ho.symm.trans ht
  exact ⟨(State.setP_get s d d r).trans (if_pos rfl), fun j hj => (State.setP_get s d j r).trans (if_neg hj)⟩

/-! ### R159's loop -/

/-- The machine's loop, with fuel for its coefficient, is a run of the statements' loop. -/
theorem doubleAndAdd_pmulLoop (fuel : Nat) {result current : Pt} {coef : Nat} (hr : result.wf) (hc : current.wf)
    (hk : coef < 2 ^ fuel) : DoubleAndAdd result current coef (pmulLoop fuel result current coef) := by
  induction fuel generalizing result current coef with
  | zero =>
    obtain rfl : coef = 0 := by omega
    exact .stop result current
  | succ fuel ih =>
    by_cases h0 : coef = 0
    · subst h0
      exact .stop result current
    rw [pmulLoop, if_neg h0]
    have hadd := padd_eq_sum hr hc
    have hdouble := padd_eq_sum hc hc
    cases hstep : (if coef % 2 = 1 then padd result current else .ok result : Except ResultCode Pt) with
    | error c =>
      rw [except_error_bind]
      split at hstep
      · next hodd => exact .addFails hodd (hadd ▸ hstep)
      · cases hstep
    | ok result' =>
      have hresult : result'.wf ∧ (if coef % 2 = 1 then sum result current = .ok result' else result' = result) := by
        split at hstep
        · next hodd => exact ⟨padd_wf hr hc hstep, by rw [if_pos hodd, ← hadd, hstep]⟩
        · next heven =>
          cases hstep
          exact ⟨hr, by rw [if_neg heven]⟩
      obtain ⟨hwf, hsum⟩ := hresult
      rw [except_ok_bind]
      cases hcurrent : padd current current with
      | error c =>
        rw [except_error_bind]
        exact .doubleFails h0 (fun hodd => by rwa [if_pos hodd] at hsum) (hdouble ▸ hcurrent)
      | ok current' =>
        rw [except_ok_bind]
        exact .turn h0 hsum (hdouble ▸ hcurrent) (ih hwf (padd_wf hc hc hcurrent) (by omega))

theorem doubleAndAdd_pmul {q : Pt} (hq : q.wf) {k : Nat} (hk : k < 2 ^ 256) :
    DoubleAndAdd (identity q.a q.b) q k (pmul q k) := by
  have hin := hq.in
  rw [pmul, mkinf_same (hin.a.same hin.b), except_ok_bind, identity_eq]
  exact doubleAndAdd_pmulLoop 256 (Pt.identity_in hin.a hin.b).wf hq hk

end Sys2Proof.Claims

namespace Sys2Proof.Proofs

open Sys2Proof.Machine Sys2Proof.Claims

/-- Settles O37: `mkpoint` checks the moduli and then the curve equation. -/
theorem psetResult : Obligations.PsetResult := by
  intro s d a b c e hv x y ca cb same equation
  have hcurve : oncurve x y ca cb = true ↔ equation := oncurve_iff_int x y ca cb
  exact ⟨fun hs he => execPset_end hv (mkpoint_onCurve hs (hcurve.2 he)),
    fun hs he => execPset_end hv (mkpoint_offCurve hs fun h => he (hcurve.1 h)),
    fun hs => execPset_end hv (mkpoint_mismatch hs)⟩

/-- Settles O38, by the one check of `mkinf`. -/
theorem pinfResult : Obligations.PinfResult := fun _ _ _ _ ha hb =>
  ⟨fun h => execPinf_end ha hb (mkinf_same h), fun h => execPinf_end ha hb (mkinf_mismatch h)⟩

/-- Settles O39: each reads its valid source and writes a part of it, or all, or its negation. -/
theorem pointReadsCopiesAndNegation : Obligations.PointReadsCopiesAndNegation := by
  intro s d a ha q
  refine ⟨fun hi => ?_, fun hi => ?_, ?_, pointUnary_end ha rfl,
    fun hq => execPneg_end ha (pneg_eq_fe hq)⟩
  · have hget (get : Pt → Fe) : coordinate get q = .ok (get q) := if_neg (by simp [hi])
    exact ⟨pointGet_end ha (hget Pt.x), pointGet_end ha (hget Pt.y)⟩
  · exact ⟨pointGet_end ha (if_pos hi), pointGet_end ha (if_pos hi)⟩
  · obtain ⟨-, e⟩ := (execPtst_cases a s).resolve_right (by simp [ha])
    rw [completed_eq]
    exact e

/-- Settles O40: on legal points `padd` is the statements' sum. -/
theorem pointSumResult : Obligations.PointSumResult := fun _ _ _ _ ha hb hwa hwb =>
  ⟨execPadd_end ha hb (padd_eq_sum hwa hwb), execPdbl_end ha (padd_eq_sum hwa hwa)⟩

/-- Settles O41: the machine's loop is a run of R159's, and PMUL ends with its outcome. -/
theorem pmulFollowsTheLoop : Obligations.PmulFollowsTheLoop := fun s _ _ b ha hwa =>
  ⟨_, doubleAndAdd_pmul hwa s.x[b.val].isLt, execPmul_end ha rfl⟩

/-- Settles O42: `padd` and `pneg` stand for the group's sum and negative. -/
theorem pointOperationsAreTheGroup : Obligations.PointOperationsAreTheGroup := by
  intro m _ A B g h s d a b hodd ha hb hg hh
  obtain ⟨q, hq, hsum⟩ := padd_represents hodd hg hh
  obtain ⟨r, hr, hdouble⟩ := padd_represents hodd hg hg
  exact ⟨⟨q, hsum, execPadd_end ha hb hq⟩, ⟨r, hdouble, execPdbl_end ha hr⟩,
    ⟨_, pneg_represents hg, execPneg_end ha rfl⟩⟩

/-- Settles O43: `pmul` stands for the multiple by any scalar a register holds. -/
theorem pmulIsTheScalarMultiple : Obligations.PmulIsTheScalarMultiple := by
  intro m _ A B g s d a b hodd ha hg
  obtain ⟨q, hq, hmul⟩ := pmul_represents hodd hg s.x[b.val].isLt
  exact ⟨q, hmul, execPmul_end ha hq⟩

/-- Settles O44, by the same properties of `padd`; PNEG leaves the point it negated for the PADD after it. -/
theorem groupProperties : Obligations.GroupProperties := by
  intro s d a b ha hb hwa hwb hp hodd
  refine ⟨fun hident => ?_, ?_, fun t k hka ht => ?_⟩
  · have hright : padd s.p[a.val].pt s.p[b.val].pt = .ok s.p[a.val].pt := by
      rw [hident]
      exact padd_identity_right hwa.in
    have hleft : padd s.p[b.val].pt s.p[a.val].pt = .ok s.p[a.val].pt := by
      rw [hident]
      exact padd_identity_left _
    exact ⟨execPadd_end ha hb hright, execPadd_end hb ha hleft⟩
  · rw [execPadd_end ha hb (padd_comm hwa hwb hp), execPadd_end hb ha rfl]
  · obtain ⟨htk, hframe⟩ := p_of_pointEnd (execPneg_end ha rfl) ht
    have hta := hframe a hka
    have hzero : padd t.p[a.val].pt t.p[k.val].pt = .ok (identity s.p[a.val].pt.a s.p[a.val].pt.b) := by
      rw [hta, htk]
      exact padd_pneg hwa hodd
    exact execPadd_end (by rw [hta, ha]) (by rw [htk]) hzero

end Sys2Proof.Proofs
end

section
/-! PROOF. The secp256k1 commands' results: the generator and its order, what `smul` answers for a multiple already known, and how each command ends (43_secp256k1.md R180 to R192). -/

namespace Sys2Proof.Machine

/-! ### Scalar multiplication (R185) -/

theorem smul_offCurve {q : Pt} (h : ¬ issecp q = true) (k : Nat) : smul q k = .error .curveMismatch :=
  if_pos (Bool.eq_false_iff.2 h)

/-- `smul` answers any value known to stand for the multiple: a point of the group has one value only. -/
theorem smul_eq_of_represents [Fact secpP.Prime] {q t : Pt} {g : (shortCurve secpP 0 7).Point} {k : Nat}
    (hq : q.Represents g) (ht : t.Represents ((k % secpN) • g)) : smul q k = .ok t := by
  obtain ⟨u, hu, hrep⟩ := smul_represents hq k
  rw [hu, hrep.inj ht]

/-- A scalar that `n` divides gives the identity. -/
theorem smul_of_mod_zero [Fact secpP.Prime] {q : Pt} {g : (shortCurve secpP 0 7).Point} {k : Nat}
    (hq : q.Represents g) (hk : k % secpN = 0) : smul q k = .ok (Pt.identity q.a q.b) := by
  refine smul_eq_of_represents hq ?_
  rw [hk, zero_nsmul]
  exact hq.identity

/-- A scalar that is 1 modulo `n` gives the point itself. -/
theorem smul_of_mod_one [Fact secpP.Prime] {q : Pt} {g : (shortCurve secpP 0 7).Point} {k : Nat}
    (hq : q.Represents g) (hk : k % secpN = 1) : smul q k = .ok q := by
  refine smul_eq_of_represents hq ?_
  rwa [hk, one_nsmul]

/-! ### The generator (R182, R183) -/

/-- The point of the group that the generator stands for has order `n`. -/
theorem addOrderOf_of_secpG [Fact secpP.Prime] {g : (shortCurve secpP 0 7).Point} (hg : secpG.Represents g) :
    addOrderOf g = secpN := by
  obtain ⟨g', hg', hord⟩ := secpG_represents
  rwa [hg.unique hg']

/-- A scalar that is `n - 1` modulo `n` takes the generator to its negative (R191). -/
theorem smul_secpG_neg {k : Nat} (hk : k % secpN = secpN - 1) : smul secpG k = .ok (pneg secpG) := by
  have : Fact secpP.Prime := ⟨secpP_prime⟩
  obtain ⟨g, hg, hord⟩ := secpG_represents
  refine smul_eq_of_represents hg ?_
  have hneg : (secpN - 1) • g = -g := by
    rw [eq_neg_iff_add_eq_zero, ← succ_nsmul, Nat.sub_add_cancel one_lt_secpN.le, ← hord, addOrderOf_nsmul_eq_zero]
  rw [hk, hneg]
  exact pneg_represents hg

end Sys2Proof.Machine

namespace Sys2Proof.Claims

open Sys2Proof.Machine

/-! ### The generator -/

theorem secpEquation_generator : secpEquation secpGx secpGy := by
  unfold secpEquation
  decide +kernel

/-- The negative of the generator has the other root as its y-coordinate. -/
theorem pneg_secpG : pneg secpG = secpPoint secpGx (secpP - secpGy) := by decide +kernel

theorem IsGenerator.addOrderOf [Fact secpP.Prime] {g : SecpGroup} (hg : IsGenerator g) : addOrderOf g = secpN := by
  rw [IsGenerator, secpPoint_generator] at hg
  exact addOrderOf_of_secpG hg

theorem exists_isGenerator [Fact secpP.Prime] : ∃ g : SecpGroup, IsGenerator g := by
  obtain ⟨g, hg, -⟩ := secpG_represents
  exact ⟨g, by rwa [IsGenerator, secpPoint_generator]⟩

/-! ### The curve's identity -/

/-- The identity of the curve that a secp256k1 point names. -/
theorem identity_of_issecp {q : Pt} (h : issecp q = true) : Pt.identity q.a q.b = identity (fp 0) (fp 7) := by
  obtain ⟨ha, hb⟩ := issecp_iff.1 h
  rw [ha, hb, identity_eq, fp_eq zero_lt_secpP, fp_eq seven_lt_secpP]

/-! ### Decompression (R186) -/

/-- A bit compared with 1 is the Boolean it encodes. -/
theorem mod_two_eq_toNat {y : Nat} {odd : Bool} (h : (y % 2 == 1) = odd) : y % 2 = odd.toNat := by
  subst h
  rcases Nat.mod_two_eq_zero_or_one y with h | h <;> rw [h] <;> rfl

theorem liftx_outOfRange {x : Nat} (hx : secpP ≤ x) (odd : Bool) : liftx x odd = .error .outOfRange := by
  rcases liftx_cases x odd with ⟨-, h⟩ | ⟨hlt, -⟩ | ⟨hlt, -⟩
  · exact h
  · omega
  · omega

theorem liftx_noRoot {x : Nat} (hx : x < secpP) (hno : ∀ y, ¬ secpEquation x y) (odd : Bool) :
    liftx x odd = .error .notOnCurve := by
  rcases liftx_cases x odd with ⟨hge, -⟩ | ⟨-, -, h⟩ | ⟨-, y, -, hy, -⟩
  · omega
  · exact h
  · exact absurd hy (hno y)

/-- Where there is a root, the point written has the root of the parity asked for. -/
theorem liftx_root {x y : Nat} (hx : x < secpP) (hy : secpEquation x y) (odd : Bool) :
    ∃ y', y' < secpP ∧ secpEquation x y' ∧ y' % 2 = odd.toNat ∧ liftx x odd = .ok (secpPoint x y') := by
  rcases liftx_cases x odd with ⟨hge, -⟩ | ⟨-, hno, -⟩ | ⟨-, y', hlt, he, hpar, h⟩
  · omega
  · exact absurd hy (hno y)
  · exact ⟨y', hlt, he, mod_two_eq_toNat hpar, by rw [h, secpPoint_eq hx hlt]⟩

/-! ### How the commands end (R190 to R192) -/

theorem execGload_end (d : Reg) (s : State) : exec (.gload d) s = .next (completed (withP s d secpG) .ok) := by
  rw [completed_eq, withP_eq]
  rfl

theorem execSmul_end {d a b : Reg} {s : State} {out : Except ResultCode Pt} (ha : s.p[a.val].valid = true)
    (h : smul s.p[a.val].pt s.x[b.val].toNat = out) : exec (.smul d a b) s = .next (pointEnd s d out) :=
  pointUnary_end (op := fun q => smul q s.x[b.val].toNat) ha h

theorem execLiftx_end {d a : Reg} {odd : Bool} {s : State} {out : Except ResultCode Pt}
    (h : liftx s.x[a.val].toNat odd = out) : exec (.liftx d a odd) s = .next (pointEnd s d out) := by
  subst h
  change execLiftx d a odd s = .next (pointEnd s d (liftx (s.readNat a) odd))
  rcases execLiftx_cases d a odd s with ⟨r, hr, e⟩ | ⟨c, hc, e⟩
  · rw [e, hr, pointEnd_ok]
  · rw [e, hc, pointEnd_error]

end Sys2Proof.Claims

namespace Sys2Proof.Proofs

open Sys2Proof.Machine Sys2Proof.Claims

/-- Settles O46: the multiple modulo `n` is known in the group for each of the scalars named. -/
theorem smulResult : Obligations.SmulResult := by
  intro _ s d a b ha
  have hn := one_lt_secpN
  refine ⟨fun hoff => ?_, fun g hg => ⟨?_, fun hk => ?_, fun hk => ?_⟩, fun hG hk => ?_⟩
  · exact execSmul_end ha (smul_offCurve (fun h => hoff ((onSecp_iff _).2 h)) _)
  · obtain ⟨q, hq, hmul⟩ := smul_represents hg s.x[b.val].toNat
    exact ⟨q, hmul, execSmul_end ha hq⟩
  · have hmod : s.x[b.val].toNat % secpN = 0 := by
      rcases hk with h | h
      · rw [h, Nat.zero_mod]
      · rw [h, Nat.mod_self]
    rw [← identity_of_issecp hg.issecp]
    exact execSmul_end ha (smul_of_mod_zero hg hmod)
  · have hmod : s.x[b.val].toNat % secpN = 1 := by rw [hk, Nat.add_mod_left, Nat.mod_eq_of_lt hn]
    exact execSmul_end ha (smul_of_mod_one hg hmod)
  · have hmod : s.x[b.val].toNat % secpN = secpN - 1 := by rw [hk, Nat.mod_eq_of_lt (by omega)]
    rw [← pneg_secpG]
    rw [secpPoint_generator] at hG
    exact execSmul_end ha (by rw [hG, smul_secpG_neg hmod])

/-- Settles O47: a multiple is the identity exactly when the order, `n`, divides the scalar. -/
theorem generatorHasOrderN : Obligations.GeneratorHasOrderN := by
  intro _
  refine ⟨exists_isGenerator, fun g hg => ⟨?_, fun k hk h0 => ?_⟩⟩
  · rw [← hg.addOrderOf, addOrderOf_nsmul_eq_zero]
  · obtain ⟨hpos, hle⟩ := hk
    have hdvd : secpN ∣ k := hg.addOrderOf ▸ addOrderOf_dvd_of_nsmul_eq_zero h0
    have := Nat.le_of_dvd hpos hdvd
    omega

/-- Settles O48, by the three answers of `liftx`. -/
theorem liftxResult : Obligations.LiftxResult := by
  intro s d a odd x
  refine ⟨fun hx => ?_, fun y hx _ hy => ?_, fun hx hno => ?_⟩
  · exact execLiftx_end (liftx_outOfRange hx odd)
  · obtain ⟨y', hlt, he, hpar, h⟩ := liftx_root hx hy odd
    exact ⟨y', hlt, he, hpar, execLiftx_end h⟩
  · exact execLiftx_end (liftx_noRoot hx hno odd)

/-- Settles O45: the point GLOAD writes is the statement's, whose coordinates are the model's constants. -/
theorem gloadResult : Obligations.GloadResult := by
  refine ⟨fun s d => ?_, secpEquation_generator⟩
  change exec (.gload d) s = .next (completed (withP s d (secpPoint secpGx secpGy)) .ok)
  rw [secpPoint_generator]
  exact execGload_end d s

end Sys2Proof.Proofs
end

section
/-! PROOF. The ECDSA commands' results: the draw KEYGEN takes, what SIGN's candidate comes to and on what it depends, the order of VERIFY's checks, and the round trip (44_ecdsa.md R200 to R214). -/

namespace Sys2Proof.Machine

/-! ### Scalars in range (R200) -/

/-- A multiple of the generator by a scalar in range is never the identity (R205). -/
theorem smul_secpG_represents [Fact secpP.Prime] {g : (shortCurve secpP 0 7).Point} (hg : secpG.Represents g) {k : Nat}
    (hk : inScalarRange k = true) : ∃ q, smul secpG k = .ok q ∧ q.Represents (k • g) ∧ q.inf = false := by
  obtain ⟨q, hq, -, -, -, hinf⟩ := smul_secpG_of_range hk
  obtain ⟨t, ht, hrep⟩ := smul_represents hg k
  cases hq.symm.trans ht
  rw [Nat.mod_eq_of_lt (inScalarRange_iff.1 hk).2] at hrep
  exact ⟨q, hq, hrep, hinf⟩

theorem toNat_ofNat_of_inScalarRange {k : Nat} (h : inScalarRange k = true) : (BitVec.ofNat 256 k).toNat = k := by
  rw [BitVec.toNat_ofNat, Nat.mod_eq_of_lt ((inScalarRange_iff.1 h).2.trans secpN_lt)]

/-- R202's inverse is the power of R125. -/
theorem powMod_secpN (k : Nat) : powMod k (secpN - 2) secpN = k ^ (secpN - 2) % secpN :=
  powMod_eq k secpN ((Nat.sub_le _ _).trans_lt secpN_lt)

/-! ### The draws (R208) -/

theorem takeDraw_first {bad rest : List W256} {c : W256} (hbad : ∀ v ∈ bad, inScalarRange v.toNat = false)
    (hc : inScalarRange c.toNat = true) : takeDraw (bad ++ c :: rest) = some (c, rest) := by
  induction bad with
  | nil => exact if_pos hc
  | cons v bad ih =>
    obtain ⟨hv, hbad⟩ := List.forall_mem_cons.1 hbad
    exact (if_neg (by simp [hv])).trans (ih hbad)

theorem takeDraw_none {l : List W256} (h : ∀ v ∈ l, inScalarRange v.toNat = false) : takeDraw l = none := by
  induction l with
  | nil => rfl
  | cons v l ih =>
    obtain ⟨hv, hl⟩ := List.forall_mem_cons.1 h
    exact (if_neg (by simp [hv])).trans (ih hl)

/-! ### One candidate (R203, R205) -/

section
variable {x z k : Nat} {R : Pt}

/-- The candidate's `s` before R206, with R202's inverse as a power. -/
def candidateS (x z k r : Nat) : Nat := (z + r * x) * (k ^ (secpN - 2) % secpN) % secpN

theorem signCandidate_rejected (hR : smul secpG k = .ok R)
    (h : R.x.v.toNat % secpN = 0 ∨ candidateS x z k (R.x.v.toNat % secpN) = 0) : signCandidate x z k = .ok none := by
  rw [signCandidate, hR, except_ok_bind, powMod_secpN]
  by_cases hr : R.x.v.toNat % secpN = 0
  · exact if_pos hr
  · exact (if_neg hr).trans (if_pos (h.resolve_left hr))

theorem signCandidate_accepted (hR : smul secpG k = .ok R) (hr : R.x.v.toNat % secpN ≠ 0)
    (hw : candidateS x z k (R.x.v.toNat % secpN) ≠ 0) : signCandidate x z k =
      .ok (some (R.x.v.toNat % secpN, lows (candidateS x z k (R.x.v.toNat % secpN)))) := by
  rw [signCandidate, hR, except_ok_bind, powMod_secpN]
  exact (if_neg hr).trans (if_neg hw)

/-- A signature has `r` in range and a low `s` (R206). -/
theorem signCandidate_range {r w : Nat} (hk : inScalarRange k = true) (h : signCandidate x z k = .ok (some (r, w))) :
    inScalarRange r = true ∧ 1 ≤ w ∧ w ≤ (secpN - 1) / 2 := by
  obtain ⟨R, -, -, ⟨hnone, -⟩ | ⟨r', s, hsome, -, -, hr1, hr2, hs0, hs⟩⟩ := signCandidate_cases x z hk
  · cases hnone.symm.trans h
  · cases hsome.symm.trans h
    exact ⟨inScalarRange_iff.2 ⟨hr1, hr2⟩, lows_range hs0 hs⟩

end

section
variable {H : Bytes32 → List Byte → Bytes32} {x z : Nat} {g : NonceState}

theorem signRound_outOfRange (hk : inScalarRange (be (nonceDraw H g).val.toList) = false) :
    signRound H x z g = .ok (.again (nonceNext H (nonceDraw H g))) := if_pos hk

theorem signRound_rejected (hk : inScalarRange (be (nonceDraw H g).val.toList) = true)
    (h : signCandidate x z (be (nonceDraw H g).val.toList) = .ok none) :
    signRound H x z g = .ok (.again (nonceNext H { nonceDraw H g with nrt := true })) := by
  rw [signRound, if_neg (by simp [hk]), h, except_ok_bind]

theorem signRound_signature {r w : Nat} (hk : inScalarRange (be (nonceDraw H g).val.toList) = true)
    (h : signCandidate x z (be (nonceDraw H g).val.toList) = .ok (some (r, w))) :
    signRound H x z g = .ok (.accepted r w g.nrt) := by
  rw [signRound, if_neg (by simp [hk]), h, except_ok_bind]
  rfl

end

/-! ### The digest modulo `n` (R203, R205) -/

section
variable {z z' : Nat}

theorem signCandidate_digest (h : z % secpN = z' % secpN) (x k : Nat) :
    signCandidate x z k = signCandidate x z' k := by
  have hs (r p : Nat) : (z + r * x) * p % secpN = (z' + r * x) * p % secpN :=
    Nat.ModEq.mul_right p (Nat.ModEq.add_right (r * x) h)
  simp only [signCandidate, hs]

theorem signRound_digest (h : z % secpN = z' % secpN) (H : Bytes32 → List Byte → Bytes32) (x : Nat) (g : NonceState) :
    signRound H x z g = signRound H x z' g := by
  simp only [signRound, signCandidate_digest h]

theorem nonceSeed_digest (h : z % secpN = z' % secpN) (H : Bytes32 → List Byte → Bytes32) (x : Nat) :
    nonceSeed H x z = nonceSeed H x z' := by
  simp only [nonceSeed, h]

end

/-! ### What SIGN comes to (R212) -/

/-- What SIGN's operands and its generator's state come to: the code it raises, or what its candidate came to. -/
def signVerdict (H : Bytes32 → List Byte → Bytes32) (d e : Reg) (x z : Nat) (nonce : Option NonceState) :
    Except ResultCode SignRound :=
  if d = e then .error .illegalCommand
  else if inScalarRange x = false then .error .outOfRange
  else signRound H x z (nonce.getD (nonceSeed H x z))

section
variable {H : Bytes32 → List Byte → Bytes32} {d e : Reg} {x z : Nat}

theorem signVerdict_outOfRange (hde : d ≠ e) (hx : inScalarRange x = false) (nonce : Option NonceState) :
    signVerdict H d e x z nonce = .error .outOfRange := (if_neg hde).trans (if_pos hx)

theorem signVerdict_round (hde : d ≠ e) (hx : inScalarRange x = true) (nonce : Option NonceState) :
    signVerdict H d e x z nonce = signRound H x z (nonce.getD (nonceSeed H x z)) :=
  (if_neg hde).trans (if_neg (by simp [hx]))

theorem signVerdict_digest {z' : Nat} (h : z % secpN = z' % secpN) (nonce : Option NonceState) :
    signVerdict H d e x z nonce = signVerdict H d e x z' nonce := by
  simp only [signVerdict, signRound_digest h, nonceSeed_digest h]

/-- SIGN raises an error, goes on, or has a candidate in range whose signature it accepts. -/
theorem signVerdict_cases (H : Bytes32 → List Byte → Bytes32) (d e : Reg) (x z : Nat) (nonce : Option NonceState) :
    (∃ c, c ≠ .ok ∧ signVerdict H d e x z nonce = .error c) ∨
    (∃ g, signVerdict H d e x z nonce = .ok (.again g)) ∨
    (d ≠ e ∧ inScalarRange x = true ∧ ∃ k r w nrt, inScalarRange k = true ∧
      signCandidate x z k = .ok (some (r, w)) ∧ signVerdict H d e x z nonce = .ok (.accepted r w nrt)) := by
  by_cases hde : d = e
  · exact .inl ⟨.illegalCommand, by decide, if_pos hde⟩
  cases hx : inScalarRange x with
  | false => exact .inl ⟨.outOfRange, by decide, signVerdict_outOfRange hde hx nonce⟩
  | true =>
    rw [signVerdict_round hde hx]
    rcases Claims.signRound_cases H x z (nonce.getD (nonceSeed H x z)) with ⟨g, hg⟩ | ⟨r, w, nrt, hs⟩
    · exact .inr (.inl ⟨g, hg⟩)
    · obtain ⟨k, hk, hsig⟩ := Claims.signRound_accepted hs
      exact .inr (.inr ⟨hde, rfl, k, r, w, nrt, hk, hsig, hs⟩)

end

/-! ### The checks of VERIFY (R207) -/

section
variable {q : Pt} {z r w : Nat}

theorem verifycore_offCurve (h : issecp q = false) : verifycore q z r w = .error .curveMismatch := if_pos h

theorem verifycore_inf (hs : issecp q = true) (hi : q.inf = true) : verifycore q z r w = .error .identityPoint :=
  (if_neg (by simp [hs])).trans (if_pos hi)

theorem verifycore_invalid (hs : issecp q = true) (hi : q.inf = false)
    (h : ¬ (inScalarRange r = true ∧ inScalarRange w = true)) :
    verifycore q z r w = .ok (.invalidSignature, false) :=
  (if_neg (by simp [hs])).trans ((if_neg (by simp [hi])).trans (if_pos (by simpa [or_iff_not_imp_left] using h)))

/-- The verdict on scalars in range: whether `u * G + v * Q` has x-coordinate `r` modulo `n`. -/
theorem verifycore_represents [Fact secpP.Prime] {g h : (shortCurve secpP 0 7).Point} (hg : secpG.Represents g)
    (hq : q.Represents h) (hi : q.inf = false) (hr : inScalarRange r = true) (hw : inScalarRange w = true) (z : Nat) :
    ∃ R : Pt, R.Represents ((z * w ^ (secpN - 2) % secpN) • g + (r * w ^ (secpN - 2) % secpN) • h) ∧
      verifycore q z r w = .ok (.ok, !R.inf && R.x.v.toNat % secpN == r) := by
  obtain ⟨t1, ht1, hrep1⟩ := smul_represents hg (z * powMod w (secpN - 2) secpN % secpN)
  obtain ⟨t2, ht2, hrep2⟩ := smul_represents hq (r * powMod w (secpN - 2) secpN % secpN)
  rw [Nat.mod_mod, powMod_secpN, Nat.mul_mod_mod] at hrep1 hrep2
  obtain ⟨R, hR, hrep⟩ := padd_represents secpP_odd hrep1 hrep2
  refine ⟨R, hrep, ?_⟩
  rw [verifycore, if_neg (by simp [hq.issecp]), if_neg (by simp [hi]), if_neg (by simp [hr, hw]), ht1, except_ok_bind,
    ht2, except_ok_bind, hR, except_ok_bind]
  cases R.inf <;> rfl

end

end Sys2Proof.Machine

namespace Sys2Proof.Claims

open Sys2Proof.Machine

/-! ### The statements' words -/

theorem bigEndian_eq (t : List Byte) : bigEndian t = be t := by
  simp only [bigEndian, be, Nat.mul_comm]

theorem not_inRange_iff (k : Nat) : ¬ inRange k ↔ inScalarRange k = false := by
  rw [inRange_iff, Bool.not_eq_true]

theorem IsGenerator.represents [Fact secpP.Prime] {g : SecpGroup} (hg : IsGenerator g) : secpG.Represents g := by
  rwa [IsGenerator, secpPoint_generator] at hg

/-! ### How the commands end (R210 to R213) -/

theorem execKeygen_end {d e : Reg} {s : State} {c : W256} {rest : List W256} {q : Pt}
    (hc : takeDraw s.entropy = some (c, rest)) (hq : smul secpG c.toNat = .ok q) (hi : q.inf = false) :
    exec (.keygen d e) s = .next (completed (withP (withX { s with entropy := rest } d c) e q) .ok) := by
  rw [completed_eq, withP_affine _ _ hi, withX_eq]
  simp only [exec, execKeygen, hc, hq, except_ok_bind, conclude_ok]

theorem execKeygen_noDraw {d e : Reg} {s : State} (h : takeDraw s.entropy = none) :
    exec (.keygen d e) s = .next { s with entropy := [] } := by
  simp only [exec, execKeygen, h]

theorem execPubkey_end {d a : Reg} {s : State} {q : Pt} (hx : inScalarRange s.x[a.val].toNat = true)
    (hq : smul secpG s.x[a.val].toNat = .ok q) (hi : q.inf = false) :
    exec (.pubkey d a) s = .next (pointEnd s d (.ok q)) := by
  change execPubkey d a s = _
  rcases execPubkey_cases d a s with ⟨-, r, hr, e⟩ | ⟨-, c, hc, -⟩ | ⟨hout, -⟩
  · cases hr.symm.trans hq
    rw [e, pointEnd, completed_eq, withP_affine _ _ hi]
  · cases hc.symm.trans hq
  · cases hout.symm.trans hx

theorem execPubkey_outOfRange {d a : Reg} {s : State} (hx : inScalarRange s.x[a.val].toNat = false) :
    exec (.pubkey d a) s = .next (completed s .outOfRange) := by
  rw [completed_eq]
  exact congrArg (conclude s) (if_pos hx)

/-- SIGN's next state, from what its operands came to (R212). -/
def signEnd (s : State) (d e : Reg) : Except ResultCode SignRound → State
  | .error c => completed s c
  | .ok (.again g) => { s with nonce := some g }
  | .ok (.accepted r w nrt) =>
    completed { withX (withX s d (BitVec.ofNat 256 r)) e (BitVec.ofNat 256 w) with
      flags := { s.flags with nrt := nrt } } .ok

theorem signWith_eq (H : Bytes32 → List Byte → Bytes32) (d e a b : Reg) (s : State) :
    signWith H d e a b s = .next (signEnd s d e (signVerdict H d e s.x[a.val].toNat s.x[b.val].toNat s.nonce)) := by
  change _ = Host.Outcome.next (signEnd s d e (signVerdict H d e (s.readNat a) (s.readNat b) s.nonce))
  rcases signWith_cases H d e a b s with ⟨hde, hx, r, w, nrt, ho, h⟩ | ⟨hde, hx, g, ho, h⟩ | ⟨hde, hx, c, ho, h⟩ |
    ⟨hde, hx, h⟩ | ⟨hde, h⟩ <;> rw [h]
  · rw [signVerdict_round hde hx, ho]
    rfl
  · rw [signVerdict_round hde hx, ho]
    rfl
  · rw [signVerdict_round hde hx, ho, signEnd, completed_eq]
  · rw [signVerdict_outOfRange hde hx, signEnd, completed_eq]
  · rw [signVerdict, if_pos hde, signEnd, completed_eq]

theorem signWith_end {H : Bytes32 → List Byte → Bytes32} {d e a b : Reg} {s : State} {out : SignRound} (hde : d ≠ e)
    (hx : inScalarRange s.x[a.val].toNat = true)
    (h : signRound H s.x[a.val].toNat s.x[b.val].toNat
      (s.nonce.getD (nonceSeed H s.x[a.val].toNat s.x[b.val].toNat)) = .ok out) :
    signWith H d e a b s = .next (signEnd s d e (.ok out)) := by
  rw [signWith_eq, signVerdict_round hde hx, h]

/-- A SIGN in execution that has completed with `OK` has written the signature of a candidate in range. -/
theorem signWith_completed {H : Bytes32 → List Byte → Bytes32} {d e a b : Reg} {s t : State}
    (hbusy : s.status.busy = true) (h : signWith H d e a b s = .next t) (hdone : t.status.busy = false)
    (hok : t.status.code = .ok) :
    inScalarRange s.x[a.val].toNat = true ∧ ∃ k r w, inScalarRange k = true ∧
      signCandidate s.x[a.val].toNat s.x[b.val].toNat k = .ok (some (r, w)) ∧
      t.x[d.val].toNat = r ∧ t.x[e.val].toNat = w := by
  rw [signWith_eq] at h
  rcases signVerdict_cases H d e s.x[a.val].toNat s.x[b.val].toNat s.nonce with
    ⟨c, hc, ho⟩ | ⟨g, ho⟩ | ⟨hde, hx, k, r, w, nrt, hk, hsig, ho⟩ <;> rw [ho] at h <;> cases h
  · exact absurd hok hc
  · cases hbusy.symm.trans hdone
  · obtain ⟨hr, hw1, hw2⟩ := signCandidate_range hk hsig
    have hw : inScalarRange w = true := inScalarRange_iff.2 ⟨hw1, by have := one_lt_secpN; omega⟩
    refine ⟨hx, k, r, w, hk, hsig, ?_, ?_⟩
    · have hd : (withX (withX s d (BitVec.ofNat 256 r)) e (BitVec.ofNat 256 w)).x[d.val] = BitVec.ofNat 256 r :=
        (getElem_setX_ne hde _).trans (readX_withX s d _)
      exact (congrArg BitVec.toNat hd).trans (toNat_ofNat_of_inScalarRange hr)
    · have he : (withX (withX s d (BitVec.ofNat 256 r)) e (BitVec.ofNat 256 w)).x[e.val] = BitVec.ofNat 256 w :=
        readX_withX _ e _
      exact (congrArg BitVec.toNat he).trans (toNat_ofNat_of_inScalarRange hw)

/-- VERIFY's next state, from R207's answer: VOK is written in every outcome (R213). -/
def verifyEnd (s : State) : Except ResultCode (ResultCode × Bool) → State
  | .ok (code, verdict) => completed (withVok s verdict) code
  | .error c => completed (withVok s false) c

theorem execVerify_end {a b c e : Reg} {s : State} {out : Except ResultCode (ResultCode × Bool)}
    (ha : s.p[a.val].valid = true)
    (h : verifycore s.p[a.val].pt s.x[b.val].toNat s.x[c.val].toNat s.x[e.val].toNat = out) :
    exec (.verify a b c e) s = .next (verifyEnd s out) := by
  subst h
  change execVerify a b c e s =
    .next (verifyEnd s (verifycore s.p[a.val].pt (s.readNat b) (s.readNat c) (s.readNat e)))
  rcases execVerify_cases a b c e s with ⟨-, code, v, hv, h⟩ | ⟨-, code, hc, h⟩ | ⟨hempty, -⟩
  · rw [h, hv, verifyEnd, completed_eq, withVok_eq]
  · rw [h, hc, verifyEnd, completed_eq, withVok_eq]
  · simp [ha] at hempty

end Sys2Proof.Claims

namespace Sys2Proof.Proofs

open Sys2Proof.Machine Sys2Proof.Claims

/-- Settles O49, by the draw `takeDraw` takes. -/
theorem keygenResult : Obligations.KeygenResult := by
  intro _ s d e g hg
  refine ⟨fun bad rest c hs hbad hc => ?_, fun hnone => ?_⟩
  · rw [inRange_iff] at hc
    obtain ⟨q, hq, hrep, hi⟩ := smul_secpG_represents hg.represents hc
    have hdraw : takeDraw s.entropy = some (c, rest) :=
      hs ▸ takeDraw_first (fun v hv => (not_inRange_iff _).1 (hbad v hv)) hc
    exact ⟨q, hrep, hi, execKeygen_end hdraw hq hi⟩
  · exact execKeygen_noDraw (takeDraw_none fun v hv => (not_inRange_iff _).1 (hnone v hv))

/-- Settles O50: a multiple by a scalar in range is affine, so the key's write clears INF. -/
theorem pubkeyResult : Obligations.PubkeyResult := by
  intro _ s d a g hg
  refine ⟨fun hx => ?_, fun hx => execPubkey_outOfRange ((not_inRange_iff _).1 hx)⟩
  rw [inRange_iff] at hx
  obtain ⟨q, hq, hrep, hi⟩ := smul_secpG_represents hg.represents hx
  exact ⟨q, hrep, hi, execPubkey_end hx hq hi⟩

/-- Settles O51, by what one candidate comes to; R203's steps and the candidate are the statement's, by definition. -/
theorem signResult : Obligations.SignResult := by
  refine ⟨fun _ _ _ _ _ => rfl, ?_⟩
  intro _ H s d e a b g hg hde x z tail V0 K0 K1 V1 K2 start V k K'
  have hk : be (nonceDraw H start).val.toList = k := (bigEndian_eq _).symm
  have hend {out : SignRound} (hx : inRange x) (h : signRound H x z start = .ok out) :
      signWith H d e a b s = .next (signEnd s d e (.ok out)) := signWith_end hde ((inRange_iff x).1 hx) h
  refine ⟨fun hx => ?_, fun hx hout => ?_, fun hx hin => ?_⟩
  · rw [signWith_eq, signVerdict_outOfRange hde ((not_inRange_iff x).1 hx)]
    rfl
  · rw [not_inRange_iff, ← hk] at hout
    exact hend hx (signRound_outOfRange hout)
  · rw [inRange_iff, ← hk] at hin
    rw [← hk]
    obtain ⟨R, hR, hrep, hi⟩ := smul_secpG_represents hg.represents hin
    refine ⟨R, hrep, hi, fun hrej => ?_, fun hr hw => ?_⟩
    · exact hend hx (signRound_rejected hin (signCandidate_rejected hR hrej))
    · exact hend hx (signRound_signature hin (signCandidate_accepted hR hr hw))

/-- Settles O52: the digest enters what SIGN comes to only modulo `n`, and no other operand changes. -/
theorem signReadsDigestModuloN : Obligations.SignReadsDigestModuloN := by
  intro H s d e a b z hab hz
  have hxa : (withX s b z).x[a.val] = s.x[a.val] := getElem_setX_ne hab z
  have hxb : (withX s b z).x[b.val] = z := readX_withX s b z
  have hverdict := signVerdict_digest (H := H) (d := d) (e := e) (x := s.x[a.val].toNat) hz s.nonce
  refine ⟨_, signEnd (withX s b z) d e (signVerdict H d e s.x[a.val].toNat s.x[b.val].toNat s.nonce),
    signWith_eq H d e a b s, ?_, ?_⟩
  · rw [signWith_eq, hxa, hxb, ← hverdict]
    rfl
  · rcases signVerdict_cases H d e s.x[a.val].toNat s.x[b.val].toNat s.nonce with
      ⟨c, hc, ho⟩ | ⟨g, ho⟩ | ⟨-, -, k, r, w, nrt, -, -, ho⟩ <;> rw [ho]
    · exact ⟨rfl, rfl, rfl, rfl, fun _ _ hok => absurd hok hc⟩
    · exact ⟨rfl, rfl, rfl, rfl, fun hbusy hdone => by cases hbusy.symm.trans hdone⟩
    · refine ⟨rfl, rfl, rfl, rfl, fun _ _ _ => ?_⟩
      simp [signEnd, completed, withX, Vector.getElem_set]

/-- Settles O53, by the range of a candidate's signature. -/
theorem signatureIsLow : Obligations.SignatureIsLow := by
  intro H s t d e a b hbusy h hdone hok
  obtain ⟨-, k, r, w, hk, hsig, hr, hw⟩ := signWith_completed hbusy h hdone hok
  rw [hr, hw, inRange_iff]
  exact signCandidate_range hk hsig

/-- Settles O54, by R207's checks in order. -/
theorem verifyResult : Obligations.VerifyResult := by
  intro _ s a b c e g hg ha q z r w
  refine ⟨fun hoff => ?_, fun hs hi => ?_, fun hs hi hbad => ?_, fun h hq hi hr hw => ?_⟩
  · rw [onSecp_iff, Bool.not_eq_true] at hoff
    exact execVerify_end ha (verifycore_offCurve hoff)
  · exact execVerify_end ha (verifycore_inf ((onSecp_iff q).1 hs) hi)
  · rw [inRange_iff, inRange_iff] at hbad
    exact execVerify_end ha (verifycore_invalid ((onSecp_iff q).1 hs) hi hbad)
  · rw [inRange_iff] at hr hw
    obtain ⟨R, hrep, hv⟩ := verifycore_represents hg.represents hq hi hr hw z
    exact ⟨R, hrep, execVerify_end ha hv⟩

/-- Settles O55: the registers hold a candidate's signature and its secret's key, which R207 accepts. -/
theorem ecdsaRoundTrip : Obligations.EcdsaRoundTrip := by
  intro H s t d e a b hbusy h hdone hok u v p k z r w hsecret hkey v' hp hz hr hw
  obtain ⟨hx, nonce, _, _, hnonce, hsig, rfl, rfl⟩ := signWith_completed hbusy h hdone hok
  obtain ⟨q, hq, hv⟩ := verifycore_signCandidate hx hnonce hsig
  obtain ⟨q', hq', -, -, -, hi⟩ := smul_secpG_of_range hx
  cases hq.symm.trans hq'
  rw [← hsecret] at hx hq
  obtain ⟨hreg, -⟩ := p_of_pointEnd (execPubkey_end (d := p) hx hq hi) hkey
  refine execVerify_end (out := .ok (.ok, true)) (by rw [hp, hreg]) ?_
  rw [hp, hreg, hz, hr, hw, hv]

end Sys2Proof.Proofs
end

section
/-! PROOF. The encoding commands' results: strings in `BUF` as the statements say them, what each parse answers, how each command ends, and the round trips (45_encoding.md R230 to R239). -/

namespace Sys2Proof.Claims

open Sys2Proof.Machine

/-! ### Strings in BUF (R10, R230) -/

section
variable {b : Memory} {j : Nat}

theorem readBytes_succ (b : Memory) (j k : Nat) : b.readBytes j (k + 1) = b.read j :: b.readBytes (j + 1) k := by
  simp [Memory.readBytes, List.range_succ_eq_map, Nat.add_assoc, Nat.add_comm 1]

theorem readBytes_add (b : Memory) (j k l : Nat) :
    b.readBytes j (k + l) = b.readBytes j k ++ b.readBytes (j + k) l := by
  simp [Memory.readBytes, List.range_add, Nat.add_assoc]

theorem number_eq (b : Memory) (j k : Nat) : number b j k = be (b.readBytes j k) := by
  rw [← bigEndian_eq, bigEndian, Memory.readBytes, List.foldl_map]
  rfl

/-- The statements' string in `BUF` is the one the machine reads. -/
theorem holds_iff_readBytes {t : List Byte} : holds b j t ↔ b.readBytes j t.length = t := by
  constructor
  · intro h
    refine List.ext_getElem (Memory.length_readBytes b j _) fun i _ hi => ?_
    simpa [Memory.readBytes] using h i hi
  · intro h i hi
    simpa [Memory.readBytes] using List.getElem_of_eq h (by rwa [Memory.length_readBytes])

theorem holds_cons {c : Byte} {t : List Byte} : holds b j (c :: t) ↔ b.read j = c ∧ holds b (j + 1) t := by
  rw [holds_iff_readBytes, holds_iff_readBytes, List.length_cons, readBytes_succ, List.cons.injEq]

theorem holds_append {t u : List Byte} : holds b j (t ++ u) ↔ holds b j t ∧ holds b (j + t.length) u := by
  rw [holds_iff_readBytes, holds_iff_readBytes, holds_iff_readBytes, List.length_append, readBytes_add]
  exact ⟨fun h => List.append_inj h (Memory.length_readBytes b j _), fun ⟨ht, hu⟩ => by rw [ht, hu]⟩

/-- The bytes of a stored 256-bit value are its slices, most significant first. -/
theorem read_of_holds_be32 {v : W256} (h : holds b j (be32 v.toNat)) {i : Nat} (hi : i < 32) :
    b.read (j + i) = v.extractLsb' (8 * (31 - i)) 8 := by
  have hlen : i < (be32 v.toNat).length := by rwa [length_be32]
  rw [h i hlen]
  exact (List.getElem_eq_iff hlen).2 (getElem?_be32 v hi)

theorem holds_writeBytes (hw : b.wf) {t : List Byte} (hfit : t.length ≤ Memory.size) :
    holds (b.writeBytes 0 t) 0 t :=
  holds_iff_readBytes.2 (Memory.readBytes_writeBytes hw t hfit)

theorem sameFrom_writeBytes (hw : b.wf) {t : List Byte} (hfit : t.length ≤ Memory.size) :
    sameFrom b (b.writeBytes 0 t) t.length := fun i hi => by
  rw [Memory.read_writeBytes hw 0 i t (by omega), dif_neg (by omega)]

end

theorem readString_eq {s : State} {t : List Byte} (hlen : t.length = s.len.toNat) (h : holds s.buf 0 t) :
    s.readString = t := by
  rw [State.readString, ← hlen, holds_iff_readBytes.1 h]

theorem holds_readString (s : State) : holds s.buf 0 s.readString := by
  rw [holds_iff_readBytes, State.readString, Memory.length_readBytes]

theorem readString_of_len {s : State} {k : Nat} (h : s.len.toNat = k + 1) :
    s.readString = s.buf.read 0 :: s.buf.readBytes 1 k := by
  rw [State.readString, h, readBytes_succ]

/-! ### SEC (R231, R235, R236) -/

/-- The string of an affine point in either form. -/
def secForm (compressed : Bool) (x y : Fe) : List Byte := if compressed then secC x y else secU x y

theorem length_secForm (compressed : Bool) (x y : Fe) :
    (secForm compressed x y).length = if compressed then 33 else 65 := by
  cases compressed
  · exact length_secU x y
  · exact length_secC x y

theorem length_secForm_le (compressed : Bool) (x y : Fe) : (secForm compressed x y).length ≤ Memory.size := by
  rw [length_secForm]
  cases compressed <;> decide

section
variable {q : Pt} {compressed : Bool}

theorem secString_offCurve (h : ¬ onSecp q) : secString q compressed = .error .curveMismatch := by
  rw [onSecp_iff, Bool.not_eq_true] at h
  exact if_pos h

theorem secString_inf (hs : onSecp q) (hi : q.inf = true) : secString q compressed = .error .identityPoint := by
  rw [onSecp_iff] at hs
  rw [secString, if_neg (by simp [hs]), if_pos hi]

theorem secString_affine (hs : onSecp q) (hi : q.inf = false) :
    secString q compressed = .ok (secForm compressed q.x q.y) := by
  rw [onSecp_iff] at hs
  rw [secString, if_neg (by simp [hs]), if_neg (by simp [hi]), secForm]

/-- A point's own string, of either form, parses to the point (R239). -/
theorem secParse_secForm (hw : q.wf) (hc : q.onCurve) (hs : onSecp q) (hi : q.inf = false) :
    secParse (secForm compressed q.x q.y) = .ok q := by
  rw [onSecp_iff] at hs
  cases compressed
  · exact secParse_secU hw hs hi hc
  · exact secParse_secC hw hs hi hc

/-- Where the parts of a stored string stand (R231). -/
theorem read_of_holds_secForm {b : Memory} {x y : Fe} (h : holds b 0 (secForm compressed x y)) :
    b.read 0 = (if compressed then (if y.v.toNat % 2 = 0 then 0x02 else 0x03) else 0x04) ∧
      (∀ i, i < 32 → b.read (1 + i) = x.v.extractLsb' (8 * (31 - i)) 8) ∧
      (compressed = false → ∀ i, i < 32 → b.read (33 + i) = y.v.extractLsb' (8 * (31 - i)) 8) := by
  cases compressed with
  | true =>
    obtain ⟨hhead, hx⟩ := holds_cons.1 h
    exact ⟨hhead, fun _ => read_of_holds_be32 hx, nofun⟩
  | false =>
    obtain ⟨hhead, hxy⟩ := holds_cons.1 h
    obtain ⟨hx, hy⟩ := holds_append.1 hxy
    rw [length_be32] at hy
    exact ⟨hhead, fun _ => read_of_holds_be32 hx, fun _ _ => read_of_holds_be32 hy⟩

end

theorem oncurve_secpFe {x y : Nat} (hx : x < secpP) (hy : y < secpP) :
    oncurve (secpFe x) (secpFe y) (secpFe 0) (secpFe 7) = true ↔ secpEquation x y := by
  rw [oncurve, beq_iff_eq, toNat_secpFe hx, toNat_secpFe hy, toNat_secpFe zero_lt_secpP, toNat_secpFe seven_lt_secpP,
    show (secpFe x).m.toNat = secpP from toNat_secpP, secpEquation, Nat.zero_mul, Nat.add_zero, pow_two,
    pow_succ, pow_two]

/-- The uncompressed form's checks in order (R236). -/
theorem secParse_cons_uncompressed (body : List Byte) : secParse (0x04 :: body) =
    if (0x04 :: body : List Byte).length ≠ 65 then .error .malformedSec
    else if secpP ≤ be (body.take 32) ∨ secpP ≤ be (body.drop 32) then .error .outOfRange
    else mkpoint (secpFe (be (body.take 32))) (secpFe (be (body.drop 32))) (secpFe 0) (secpFe 7) := by
  simp only [secParse, if_true]

theorem secParse_cons_compressed {c : Byte} (hc : c = 0x02 ∨ c = 0x03) (body : List Byte) : secParse (c :: body) =
    if (c :: body).length ≠ 33 then .error .malformedSec else liftx (be body) (decide (c = 0x03)) := by
  have h4 : c ≠ 0x04 := by rcases hc with rfl | rfl <;> decide
  exact (if_neg h4).trans (if_pos hc)

section
variable {X Y : List Byte} (hX : X.length = 32) (hY : Y.length = 32)
include hX

theorem secParse_compressed {c : Byte} (hc : c = 0x02 ∨ c = 0x03) :
    secParse (c :: X) = liftx (be X) (decide (c = 0x03)) := by
  rw [secParse_cons_compressed hc, if_neg (by simp [hX])]

include hY

theorem secParse_uncompressed : secParse (0x04 :: (X ++ Y)) =
    if secpP ≤ be X ∨ secpP ≤ be Y then .error .outOfRange
    else mkpoint (secpFe (be X)) (secpFe (be Y)) (secpFe 0) (secpFe 7) := by
  rw [secParse_cons_uncompressed, if_neg (by simp [hX, hY]), List.take_left' hX, List.drop_left' hX]

theorem secParse_outOfRange (h : secpP ≤ be X ∨ secpP ≤ be Y) :
    secParse (0x04 :: (X ++ Y)) = .error .outOfRange := by
  rw [secParse_uncompressed hX hY, if_pos h]

variable (hx : be X < secpP) (hy : be Y < secpP)
include hx hy

theorem secParse_offCurve (h : ¬ secpEquation (be X) (be Y)) :
    secParse (0x04 :: (X ++ Y)) = .error .notOnCurve := by
  rw [secParse_uncompressed hX hY, if_neg (by omega)]
  exact mkpoint_offCurve ⟨rfl, rfl, rfl⟩ (by rwa [oncurve_secpFe hx hy])

theorem secParse_onCurve (h : secpEquation (be X) (be Y)) :
    secParse (0x04 :: (X ++ Y)) = .ok (secpPoint (be X) (be Y)) := by
  rw [secParse_uncompressed hX hY, if_neg (by omega), secpPoint_eq hx hy]
  exact mkpoint_onCurve ⟨rfl, rfl, rfl⟩ ((oncurve_secpFe hx hy).2 h)

end

/-- A first byte whose form has another length, or that names no form, is refused (R236). -/
theorem secParse_malformed {c : Byte} {body : List Byte}
    (h : (c = 0x04 ∧ (c :: body).length ≠ 65) ∨ ((c = 0x02 ∨ c = 0x03) ∧ (c :: body).length ≠ 33) ∨
      (c ≠ 0x02 ∧ c ≠ 0x03 ∧ c ≠ 0x04)) : secParse (c :: body) = .error .malformedSec := by
  rcases h with ⟨rfl, hlen⟩ | ⟨hc, hlen⟩ | ⟨h2, h3, h4⟩
  · rw [secParse_cons_uncompressed, if_pos hlen]
  · rw [secParse_cons_compressed hc, if_pos hlen]
  · exact (if_neg h4).trans (if_neg (by tauto))

/-- A parsed point is affine. -/
theorem secParse_inf {t : List Byte} {q : Pt} (h : secParse t = .ok q) : q.inf = false := by
  rcases secParse_cases t with e | e | e | ⟨x, y, -, -, -, e⟩ <;> cases e.symm.trans h
  rfl

/-! ### DER (R232, R233) -/

/-- The content written is the shortest with its high bit clear. -/
theorem derInteger_derContent {v : Nat} (h0 : 1 ≤ v) (h : v < 2 ^ 256) : derInteger v (derContent v) := by
  refine ⟨by rw [bigEndian_eq, be_derContent h0 h], ?_⟩
  obtain ⟨c, rest, hm, ⟨hc, hd⟩ | ⟨hc, hd⟩⟩ := derContent_cases h0 h
  · exact ⟨0x00, minbe v, hd, by decide, fun _ => ⟨c, rest, hm, hc⟩⟩
  · exact ⟨c, rest, hd.trans hm, hc, fun hzero => absurd hzero (minbe_head hm)⟩

theorem derFrame_der {r w : Nat} (hr0 : 1 ≤ r) (hr : r < 2 ^ 256) (hw0 : 1 ≤ w) (hw : w < 2 ^ 256) :
    derFrame (der r w) (derContent r) (derContent w) := by
  obtain ⟨hr1, hr33⟩ := length_derContent hr0 hr
  obtain ⟨hw1, hw33⟩ := length_derContent hw0 hw
  have hbody : (derint r ++ derint w).length = (derContent r).length + (derContent w).length + 4 := by
    rw [List.length_append, length_derint, length_derint]
    omega
  refine ⟨List.ne_nil_of_length_pos hr1, List.ne_nil_of_length_pos hw1, by omega, ?_⟩
  rw [der, hbody]
  simp [derint]

/-- A frame parses to its contents' integers, when they fit an X register. -/
theorem derparse_of_derFrame {t R W : List Byte} (h : derFrame t R W) (hR : bigEndian R < 2 ^ 256)
    (hW : bigEndian W < 2 ^ 256) : derparse t = .ok (bigEndian R, bigEndian W) := by
  obtain ⟨hR0, hW0, hlen, rfl⟩ := h
  rw [bigEndian_eq] at hR hW
  rw [bigEndian_eq, bigEndian_eq]
  have hparse := derparse_frame R W (BitVec.ofNat 8 (R.length + W.length + 4)) (BitVec.ofNat 8 R.length)
    (BitVec.ofNat 8 W.length) (toNat_byteLength (by omega)) (toNat_byteLength (by omega))
    (mt List.length_eq_zero_iff.1 hR0) (mt List.length_eq_zero_iff.1 hW0)
    (by rw [BitVec.toNat_ofNat, Nat.mod_eq_of_lt (by omega)]) hR hW
  simpa using hparse

/-- Only frames parse. -/
theorem derFrame_of_derparse {t : List Byte} {r w : Nat} (h : derparse t = .ok (r, w)) :
    ∃ R W, derFrame t R W ∧ bigEndian R < 2 ^ 256 ∧ bigEndian W < 2 ^ 256 := by
  obtain ⟨R, W, c, lr, lw, rfl, hlr, hlw, hc, hR0, hW0, rfl, rfl, hR, hW⟩ := derparse_ok h
  refine ⟨R, W, ⟨mt List.length_eq_zero_iff.2 hR0, mt List.length_eq_zero_iff.2 hW0, hc ▸ c.isLt, ?_⟩, ?_, ?_⟩
  · rw [← hc, ← hlr, ← hlw]
    simp
  · rwa [bigEndian_eq]
  · rwa [bigEndian_eq]

/-! ### How the commands end (R235 to R238) -/

/-- What an encoder ends with: its string and length written, or the code raised (R230). -/
def stringEnd (s : State) : Except ResultCode (List Byte) → State
  | .ok t => completed { s with buf := s.buf.writeBytes 0 t, len := BitVec.ofNat 8 t.length } .ok
  | .error c => completed s c

theorem stringEnd_ok (s : State) (t : List Byte) : stringEnd s (.ok t) = (s.putString t).finish .ok := by
  rw [stringEnd, completed_eq]
  rfl

/-- The string an encoder ended with is the one a decoder reads next. -/
theorem readString_stringEnd {s : State} (hw : s.buf.wf) {t : List Byte} (hfit : t.length ≤ Memory.size) :
    (stringEnd s (.ok t)).readString = t := by
  rw [stringEnd_ok, State.readString_putString hw t hfit]

theorem len_stringEnd (s : State) {t : List Byte} (hfit : t.length ≤ Memory.size) :
    (stringEnd s (.ok t)).len.toNat = t.length := by
  rw [stringEnd_ok, State.len_putString t hfit]

theorem execSecenc_end {a : Reg} {compressed : Bool} {s : State} {out : Except ResultCode (List Byte)}
    (ha : s.p[a.val].valid = true) (h : secString s.p[a.val].pt compressed = out) :
    exec (.secenc a compressed) s = .next (stringEnd s out) := by
  subst h
  change execSecenc a compressed s = _
  rw [execSecenc, State.readP_valid ha, except_ok_bind]
  cases secString s.p[a.val].pt compressed with
  | ok t => rw [stringEnd_ok, except_ok_bind, conclude_ok]
  | error c => rw [stringEnd, completed_eq, except_error_bind, conclude_error]

theorem execDerenc_end {a b : Reg} {s : State} (ha : inRange s.x[a.val].toNat) (hb : inRange s.x[b.val].toNat) :
    exec (.derenc a b) s = .next (stringEnd s (.ok (der s.x[a.val].toNat s.x[b.val].toNat))) := by
  rw [inRange_iff] at ha hb
  rw [stringEnd_ok]
  rcases execDerenc_cases a b s with ⟨-, -, e⟩ | ⟨h, -⟩
  · exact e
  · rcases h with h | h
    · cases h.symm.trans ha
    · cases h.symm.trans hb

theorem execDerenc_outOfRange {a b : Reg} {s : State} (h : ¬ (inRange s.x[a.val].toNat ∧ inRange s.x[b.val].toNat)) :
    exec (.derenc a b) s = .next (completed s .outOfRange) := by
  rw [completed_eq]
  rcases execDerenc_cases a b s with ⟨ha, hb, -⟩ | ⟨-, e⟩
  · exact absurd ⟨(inRange_iff _).2 ha, (inRange_iff _).2 hb⟩ h
  · exact e

theorem execSecdec_end {d : Reg} {s : State} {out : Except ResultCode Pt} (h0 : s.len.toNat ≠ 0)
    (hlen : s.len.toNat ≤ Memory.size) (h : secParse s.readString = out) :
    exec (.secdec d) s = .next (pointEnd s d out) := by
  subst h
  change execSecdec d s = _
  rcases execSecdec_cases d s with ⟨-, -, q, hq, e⟩ | ⟨-, -, c, hc, e⟩ | ⟨hbad, -⟩
  · rw [e, hq, pointEnd, completed_eq, withP_affine _ _ (secParse_inf hq)]
  · rw [e, hc, pointEnd_error]
  · rcases hbad with hbad | hbad
    · exact absurd (congrArg BitVec.toNat hbad) h0
    · omega

theorem execSecdec_badLength {d : Reg} {s : State} (h : s.len.toNat = 0 ∨ Memory.size < s.len.toNat) :
    exec (.secdec d) s = .next (completed s .malformedSec) := by
  rw [completed_eq]
  exact congrArg (conclude s) (if_pos (h.imp_left fun h => BitVec.eq_of_toNat_eq h))

/-- Every length and first byte that SECDEC refuses before it reads a coordinate. -/
theorem execSecdec_malformed {d : Reg} {s : State} (h : s.len.toNat = 0 ∨ Memory.size < s.len.toNat ∨
      (s.buf.read 0 = 0x04 ∧ s.len.toNat ≠ 65) ∨ ((s.buf.read 0 = 0x02 ∨ s.buf.read 0 = 0x03) ∧ s.len.toNat ≠ 33) ∨
      (s.buf.read 0 ≠ 0x02 ∧ s.buf.read 0 ≠ 0x03 ∧ s.buf.read 0 ≠ 0x04)) :
    exec (.secdec d) s = .next (completed s .malformedSec) := by
  by_cases hlen : s.len.toNat = 0 ∨ Memory.size < s.len.toNat
  · exact execSecdec_badLength hlen
  · obtain ⟨h0, h128⟩ := not_or.1 hlen
    obtain ⟨k, hk⟩ : ∃ k, s.len.toNat = k + 1 := Nat.exists_eq_succ_of_ne_zero h0
    refine execSecdec_end (out := .error .malformedSec) h0 (not_lt.1 h128) ?_
    rw [readString_of_len hk]
    refine secParse_malformed ?_
    rw [List.length_cons, Memory.length_readBytes, ← hk]
    exact (h.resolve_left h0).resolve_left h128

theorem execSecdec_uncompressed {d : Reg} {s : State} {out : Except ResultCode Pt} (hc : s.buf.read 0 = 0x04)
    (hL : s.len.toNat = 65) (h : secParse (0x04 :: (s.buf.readBytes 1 32 ++ s.buf.readBytes 33 32)) = out) :
    exec (.secdec d) s = .next (pointEnd s d out) := by
  refine execSecdec_end (by omega) (by rw [hL]; decide) ?_
  rw [readString_of_len hL, hc, readBytes_add s.buf 1 32 32, h]

theorem execSecdec_compressed {d : Reg} {s : State} {out : Except ResultCode Pt}
    (hc : s.buf.read 0 = 0x02 ∨ s.buf.read 0 = 0x03) (hL : s.len.toNat = 33)
    (h : liftx (number s.buf 1 32) (decide (s.buf.read 0 = 0x03)) = out) :
    exec (.secdec d) s = .next (pointEnd s d out) := by
  refine execSecdec_end (by omega) (by rw [hL]; decide) ?_
  rw [readString_of_len hL, secParse_compressed (Memory.length_readBytes _ _ _) hc, ← number_eq, h]

theorem execDerdec_end {d e : Reg} {s : State} {r w : Nat} (hde : d ≠ e) (hlen : s.len.toNat ≤ Memory.size)
    (h : derparse s.readString = .ok (r, w)) : exec (.derdec d e) s =
      .next (completed (withX (withX s d (BitVec.ofNat 256 r)) e (BitVec.ofNat 256 w)) .ok) := by
  rw [completed_eq, withX_eq, withX_eq]
  change execDerdec d e s = _
  rw [execDerdec, if_neg hde, if_neg (by omega), h]
  rfl

theorem execDerdec_malformed {d e : Reg} {s : State} (hde : d ≠ e)
    (h : Memory.size < s.len.toNat ∨ ∀ r w, derparse s.readString ≠ .ok (r, w)) :
    exec (.derdec d e) s = .next (completed s .malformedDer) := by
  rw [completed_eq]
  change execDerdec d e s = _
  rw [execDerdec, if_neg hde]
  split
  · rfl
  · rename_i hlen
    rcases derparse_cases s.readString with hp | ⟨r, w, hp, -⟩
    · rw [hp]
      rfl
    · exact absurd hp (h.resolve_left hlen r w)

end Sys2Proof.Claims

namespace Sys2Proof.Proofs

open Sys2Proof.Machine Sys2Proof.Claims

/-- Settles O56, by R235's checks in order and the parts of the string written. -/
theorem secencResult : Obligations.SecencResult := by
  intro s a compressed ha hw q
  refine ⟨fun hoff => execSecenc_end ha (secString_offCurve hoff),
    fun hs hi => execSecenc_end ha (secString_inf hs hi), fun hs hi => ?_⟩
  have hlen := length_secForm compressed q.x q.y
  have hfit := length_secForm_le compressed q.x q.y
  have hbyte : BitVec.ofNat 8 (secForm compressed q.x q.y).length = if compressed then 33 else 65 := by
    rw [hlen]
    cases compressed <;> rfl
  have hend := execSecenc_end ha (secString_affine (compressed := compressed) hs hi)
  have hsame := sameFrom_writeBytes hw hfit
  rw [stringEnd, hbyte] at hend
  rw [hlen] at hsame
  obtain ⟨hhead, hx, hy⟩ := read_of_holds_secForm (holds_writeBytes hw hfit)
  exact ⟨_, Memory.wf_writeBytes hw 0 _, hend, hhead, hx, hy, hsame⟩

/-- Settles O57: the string read is a form's first byte and its coordinates, or is refused. -/
theorem secdecResult : Obligations.SecdecResult := by
  intro s d L c x y
  refine ⟨execSecdec_malformed, fun hc hL => ?_, fun hc hL => ?_⟩
  · have hX := Memory.length_readBytes s.buf 1 32
    have hY := Memory.length_readBytes s.buf 33 32
    have hend {out : Except ResultCode Pt} := execSecdec_uncompressed (d := d) (out := out) hc hL
    rw [show x = be _ from number_eq s.buf 1 32, show y = be _ from number_eq s.buf 33 32]
    exact ⟨fun hout => hend (secParse_outOfRange hX hY hout),
      fun hx hy hoff => hend (secParse_offCurve hX hY hx hy hoff),
      fun hx hy hon => hend (secParse_onCurve hX hY hx hy hon)⟩
  · have hend {out : Except ResultCode Pt} := execSecdec_compressed (d := d) (out := out) hc hL
    refine ⟨fun hout => hend (liftx_outOfRange hout _), fun hlt hno => hend (liftx_noRoot hlt hno _),
      fun y' hlt _ hon => ?_⟩
    obtain ⟨y'', hlt', he, hpar, h⟩ := liftx_root hlt hon (decide (c = 0x03))
    exact ⟨y'', hlt', he, by rw [hpar]; by_cases h3 : c = 0x03 <;> simp [h3], hend h⟩

/-- Settles O58: the string written is the frame of the two numbers' contents. -/
theorem derencResult : Obligations.DerencResult := by
  intro s a b hw r w
  refine ⟨execDerenc_outOfRange, fun hr hs => ?_⟩
  have hlt (i : Reg) : s.x[i.val].toNat < 2 ^ 256 := s.x[i.val].isLt
  obtain ⟨h8, h72⟩ := length_der hr.1 (hlt a) hs.1 (hlt b)
  have hfit : (der r w).length ≤ Memory.size := h72.trans (by decide)
  exact ⟨_, der r w, derContent r, derContent w, derInteger_derContent hr.1 (hlt a),
    derInteger_derContent hs.1 (hlt b), derFrame_der hr.1 (hlt a) hs.1 (hlt b), h8, h72, Memory.wf_writeBytes hw 0 _, execDerenc_end hr hs,
    holds_writeBytes hw hfit, sameFrom_writeBytes hw hfit⟩

/-- Settles O59: the string read is the only one that `BUF` and LEN name, and it parses exactly when it is a frame. -/
theorem derdecResult : Obligations.DerdecResult := by
  intro s d e hde
  refine ⟨fun t R W hlen h128 ht hf hR hW => ?_, fun h => ?_⟩
  · have hparse := derparse_of_derFrame hf hR hW
    rw [← readString_eq hlen ht] at hparse
    exact execDerdec_end hde (by rw [← hlen]; exact h128) hparse
  · refine execDerdec_malformed hde (h.imp_right fun hno r w hp => hno ?_)
    obtain ⟨R, W, hf, hR, hW⟩ := derFrame_of_derparse hp
    exact ⟨s.readString, R, W, Memory.length_readBytes _ _ _, holds_readString s, hf, hR, hW⟩

/-- Settles O60: the decoder reads the string the encoder left, and its parse inverts the encoding. -/
theorem serializationRoundTrips : Obligations.SerializationRoundTrips := by
  refine ⟨fun s t a d compressed ha hw hc hs hi hbuf h => ?_, fun s t a b d e hr hw hde hbuf h => ?_⟩
  · cases (execSecenc_end ha (secString_affine hs hi)).symm.trans h
    have hfit := length_secForm_le compressed s.p[a.val].pt.x s.p[a.val].pt.y
    have hlen := len_stringEnd s hfit
    refine execSecdec_end (out := .ok s.p[a.val].pt) ?_ (hlen.trans_le hfit) ?_
    · rw [hlen, length_secForm]
      cases compressed <;> decide
    · rw [readString_stringEnd hbuf hfit, secParse_secForm hw hc hs hi]
  · cases (execDerenc_end hr hw).symm.trans h
    have hlt (i : Reg) : s.x[i.val].toNat < 2 ^ 256 := s.x[i.val].isLt
    have hfit := (length_der hr.1 (hlt a) hw.1 (hlt b)).2.trans (show 72 ≤ Memory.size by decide)
    have hparse := derparse_der hr.1 (hlt a) hw.1 (hlt b)
    rw [← readString_stringEnd hbuf hfit] at hparse
    have hend := execDerdec_end hde ((len_stringEnd s hfit).trans_le hfit) hparse
    rwa [BitVec.ofNat_toNat, BitVec.ofNat_toNat, BitVec.setWidth_eq, BitVec.setWidth_eq] at hend

end Sys2Proof.Proofs
end

section
/-! PROOF. How a command that completes ends: with `OK`, or with a code of its rule and nothing else written; and a step of one engine of a system (60_exceptions.md R261 to R263, R278). -/

namespace Sys2Proof.Claims

open Sys2Proof.Machine

/-! ### Raised codes (R262, R263) -/

/-- A command that completes ends with `OK` and no error, or with a code its rule lists, and then nothing but the
completion is left: of the state before it, or, for VERIFY, of that state with VOK cleared (R213). -/
theorem effect_ends {i : Instr} {s t : State} (h : Effect i s t) (hbusy : s.status.busy = true)
    (hend : t.status.busy = false) :
    (t.status.code = .ok ∧ t.status.err = false) ∨
    ∃ code, (s.Inv → i.wellFormed = true → code ∈ errorCodes i) ∧
      (((∀ a b c e, i ≠ .verify a b c e) ∧ t = s.finish code) ∨
        ∃ a b c e, i = .verify a b c e ∧ t = (s.setVok false).finish code) := by
  cases h with
  | raised code hi hcode => exact .inr ⟨code, hcode, .inl ⟨hi, rfl⟩⟩
  | verified a b c e code v hi hcode =>
    rcases hcode with rfl | ⟨rfl, hcode⟩
    · exact .inl ⟨rfl, rfl⟩
    · exact .inr ⟨code, fun hs _ => hcode hs, .inr ⟨a, b, c, e, hi, rfl⟩⟩
  | drawing => exact absurd hend (by simp [hbusy])
  | signing => exact absurd hend (by simp [hbusy])
  | _ => exact .inl ⟨rfl, rfl⟩

end Sys2Proof.Claims

namespace Sys2Proof.Machine

/-! ### One engine of a system (R278) -/

theorem System.stepAt_next {y : System} {i : Nat} {s t : State} (hs : y.engines[i]? = some s) (h : step s = .next t) :
    y.stepAt i = .next ⟨y.engines.set i t⟩ := by
  simp only [System.stepAt, hs, h]

end Sys2Proof.Machine

namespace Sys2Proof.Proofs

open Sys2Proof.Machine Sys2Proof.Claims

/-- Settles O23: an error is no `OK`, and the other end leaves only the completion. -/
theorem raisedCommandWritesNothing : Obligations.RaisedCommandWritesNothing := by
  intro i s t hbusy h hend herr
  rw [completed_eq]
  rcases effect_ends (effect_of_exec h) hbusy hend with ⟨-, hok⟩ | ⟨code, -, ⟨hi, rfl⟩ | ⟨a, b, c, e, rfl, rfl⟩⟩
  · exact absurd herr (by simp [hok])
  · split
    · exact absurd rfl (hi _ _ _ _)
    · rfl
  · rfl

/-- Settles O28: a command that does not end with `OK` ends with a code its rule lists. -/
theorem codesProduced : Obligations.CodesProduced := by
  intro i s t hwf hinv hbusy h hend
  rcases effect_ends (effect_of_exec h) hbusy hend with ⟨hok, -⟩ | ⟨code, hcode, ⟨-, rfl⟩ | ⟨a, b, c, e, -, rfl⟩⟩
  · exact .inl hok
  · exact .inr (hcode hinv hwf)
  · exact .inr (hcode hinv hwf)

/-- Settles O17: the step replaces the one engine in the list. -/
theorem enginesShareNothing : Obligations.EnginesShareNothing := by
  intro y i s t hs h
  obtain ⟨hi, -⟩ := List.getElem?_eq_some_iff.1 hs
  exact ⟨_, System.stepAt_next hs h, List.getElem?_set_self hi, fun j hj => List.getElem?_set_ne hj.symm⟩

end Sys2Proof.Proofs
end

section
/-! PROOF. Both resets leave the block's reset state, whatever the engine is doing (70_reset_and_hazards.md R300, R301). -/

namespace Sys2Proof.Machine

/-! ### The hard reset -/

/-- A hard reset as the next event takes effect whatever the state, the engine's turn not being asked for (R301). -/
theorem step_hardReset (s : State) :
    step { s with agenda := .hardReset :: s.agenda } = .next s.resetBlock := rfl

end Sys2Proof.Machine

namespace Sys2Proof.Proofs

open Sys2Proof.Machine Sys2Proof.Claims

/-- Settles O13: the hard reset's event and the CTRL write with SRST both leave `State.resetBlock`, busy or not. -/
theorem resetAbandonsTheCommand : Obligations.ResetAbandonsTheCommand := fun s _ hsrst =>
  ⟨step_hardReset s, writes_loc rfl rfl (busWrite_ctrl_reset hsrst s)⟩

end Sys2Proof.Proofs
end
